-- ==== Sys2Proof/Word.lean ====
section
/-! DEFINITION. The word types of the block (00_scope.md R10: every value is unsigned and has a stated width). -/

namespace Sys2Proof

/-- One byte of the window, of the trace or of a descriptor. -/
abbrev Byte := BitVec 8

/-- A 16-bit field of the SETUP packet (30_encoding.md R90). -/
abbrev Half := BitVec 16

/-- A 32-bit buffer-control word (30_encoding.md R95) or counter (10_state.md R26). -/
abbrev Word := BitVec 32

/-- A device address, 0 to 127 (10_state.md R22, R23, R30). -/
abbrev DevAddr := BitVec 7

/-- An endpoint number, 0 to 15 (00_scope.md R8 `N_EP`). -/
abbrev Endpoint := Fin 16

end Sys2Proof
end

