-- ==== Sys2Proof/Syntax.lean ====
section
/-! DEFINITION. The operations of UDEC-1: one constructor of `Instr` per row of spec/opcode_table.json. -/

namespace Sys2Proof

/-- Direction of an endpoint's buffer: IN is device to host (00_scope.md R19). -/
inductive Dir where
  | inn
  | out
deriving DecidableEq, Repr

/-- The seven byte sequences of the descriptor ROM (20_memory.md R64). -/
inductive RomSeq where
  | dev
  | cfg
  | hidr
  | str0
  | str1
  | str2
  | str3
deriving DecidableEq, Repr

/-- The five fields of a SETUP packet (10_state.md R21, 30_encoding.md R90). -/
structure SetupPacket where
  requestType : Byte
  request     : Byte
  value       : Half
  index       : Half
  length      : Half
deriving DecidableEq, Repr

/-- The column `format` of the operation table (30_encoding.md R104). -/
inductive Format where
  | setup
  | event
  | call
  | env
deriving DecidableEq, Repr

/-- The column `level` of a SETUP row (30_encoding.md R104). -/
inductive Level where
  | request
  | descriptor
  | string
deriving DecidableEq, Repr

/-- An operation. A SETUP row carries the packet fields that its row does not fix, so that no bit of the packet
is dropped (30_encoding.md R90 to R94); the other rows carry the operands of 30_encoding.md R102 and
44_sie_environment.md. -/
inductive Instr where
  -- SETUP, level request (30_encoding.md R93)
  | getStatus (requestType : Byte) (value index length : Half)
  | clearFeature (requestType : Byte) (value index length : Half)
  | req2Unassigned (requestType : Byte) (value index length : Half)
  | setFeature (requestType : Byte) (value index length : Half)
  | req4Unassigned (requestType : Byte) (value index length : Half)
  | setAddress (requestType : Byte) (value index length : Half)
  | setDescriptor (requestType : Byte) (value index length : Half)
  | getConfiguration (requestType : Byte) (value index length : Half)
  | setConfiguration (requestType : Byte) (value index length : Half)
  | getInterface (requestType : Byte) (value index length : Half)
  | setInterface (requestType : Byte) (value index length : Half)
  | synchFrame (requestType : Byte) (value index length : Half)
  | req13To255Unassigned (requestType request : Byte) (value index length : Half)
  | getDescriptor (requestType : Byte) (value index length : Half)
  -- SETUP, levels descriptor and string (30_encoding.md R94)
  | getDescriptorDevice (requestType sidx : Byte) (index length : Half)
  | getDescriptorConfiguration (requestType sidx : Byte) (index length : Half)
  | getDescriptorString0 (requestType : Byte) (index length : Half)
  | getDescriptorString1 (requestType : Byte) (index length : Half)
  | getDescriptorString2 (requestType : Byte) (index length : Half)
  | getDescriptorString3 (requestType : Byte) (index length : Half)
  | getDescriptorStringOther (requestType sidx : Byte) (index length : Half)
  | getDescriptorDeviceQualifier (requestType sidx : Byte) (index length : Half)
  | getDescriptorHidReport (requestType sidx : Byte) (index length : Half)
  | getDescriptorOther (requestType dtype sidx : Byte) (index length : Half)
  -- EVENT (30_encoding.md R97, 40_event_adapter.md)
  | evSetup
  | evBusReset
  | evEp0Out
  | evEp0In
  | traceAppend
  -- CALL (41_request_dispatcher.md R140, 42_descriptor_catalog.md R160, 43_transfer_engine.md, 30_encoding.md R103)
  | dispatch (pkt : SetupPacket)
  | catalog (dtype sidx : Byte) (length : Half)
  | sendToHost (endpoint pid : Nat) (buffer : Option RomSeq) (size : Nat)
  | prepareOutBuffer (endpoint pid size : Nat)
  | sendStall (endpoint pid : Nat)
  | armStatusIn
  | rearmOut
  | sendDescriptor (buffer : RomSeq) (size : Nat)
  | stallEp0
  -- ENV (44_sie_environment.md)
  | envSetup (bytes : Vector Byte 8)
  | envBusReset
  | envNoBuffer (endpoint : Endpoint) (dir : Dir)
  | envInDone (endpoint : Endpoint) (fullDraw : Bool)
  | envOutDone (endpoint : Endpoint) (packetPid : Bool) (data : List Byte)
  | envStall (endpoint : Endpoint)
deriving DecidableEq, Repr

end Sys2Proof
end

