-- ==== Sys2Proof/WellFormed.lean ====
section
/-! DEFINITION. When a term of `Instr` is an operation of the table: the selector fields a row does not fix
bit by bit lie in the row's range. -/

namespace Sys2Proof

/-- The descriptor types of 30_encoding.md R94 with an entry of their own. -/
def knownDescriptorTypes : List Byte := [0x01, 0x02, 0x03, 0x06, 0x22]

/-- 30_encoding.md R93 and R98 (13 to 255), R94 and R99 (string index 4 to 255; a type outside the catalog), and the
field width of a received count (00_scope.md R8 `LEN_BITS`). Every other operand may take every value of its type. -/
def Instr.wf : Instr → Bool
  | .getStatus _ _ _ _ => true
  | .clearFeature _ _ _ _ => true
  | .req2Unassigned _ _ _ _ => true
  | .setFeature _ _ _ _ => true
  | .req4Unassigned _ _ _ _ => true
  | .setAddress _ _ _ _ => true
  | .setDescriptor _ _ _ _ => true
  | .getConfiguration _ _ _ _ => true
  | .setConfiguration _ _ _ _ => true
  | .getInterface _ _ _ _ => true
  | .setInterface _ _ _ _ => true
  | .synchFrame _ _ _ _ => true
  | .req13To255Unassigned _ request _ _ _ => decide (13 ≤ request.toNat)
  | .getDescriptor _ _ _ _ => true
  | .getDescriptorDevice _ _ _ _ => true
  | .getDescriptorConfiguration _ _ _ _ => true
  | .getDescriptorString0 _ _ _ => true
  | .getDescriptorString1 _ _ _ => true
  | .getDescriptorString2 _ _ _ => true
  | .getDescriptorString3 _ _ _ => true
  | .getDescriptorStringOther _ sidx _ _ => decide (4 ≤ sidx.toNat)
  | .getDescriptorDeviceQualifier _ _ _ _ => true
  | .getDescriptorHidReport _ _ _ _ => true
  | .getDescriptorOther _ dtype _ _ _ => decide (dtype ∉ knownDescriptorTypes)
  | .evSetup => true
  | .evBusReset => true
  | .evEp0Out => true
  | .evEp0In => true
  | .traceAppend => true
  | .dispatch _ => true
  | .catalog _ _ _ => true
  | .sendToHost _ _ _ _ => true
  | .prepareOutBuffer _ _ _ => true
  | .sendStall _ _ => true
  | .armStatusIn => true
  | .rearmOut => true
  | .sendDescriptor _ _ => true
  | .stallEp0 => true
  | .envSetup _ => true
  | .envBusReset => true
  | .envNoBuffer _ _ => true
  | .envInDone _ _ => true
  | .envOutDone _ _ data => decide (data.length < 1024)
  | .envStall _ => true

end Sys2Proof
end

