-- ==== Sys2Proof/Decode.lean ====
section
/-! DEFINITION. The SETUP packet format, the decoder (level by level, total on any bytes) and, after it, the encoder:
30_encoding.md R90 to R94, R97 to R99, R101, R104. -/

namespace Sys2Proof

/-- `le16(b0, b1) = b0 + 256*b1` (00_scope.md R12, 20_memory.md R66 b). -/
def le16 (b0 b1 : Byte) : Half := b1 ++ b0

/-- Bits 7 to 0 of a 16-bit field, the byte at the lower offset. -/
def lowByte (h : Half) : Byte := h.extractLsb' 0 8

/-- Bits 15 to 8 of a 16-bit field, the byte at the higher offset. -/
def highByte (h : Half) : Byte := h.extractLsb' 8 8

/-- The fields of the 64-bit value `P` (30_encoding.md R90). -/
def SetupPacket.ofBits (p : BitVec 64) : SetupPacket :=
  { requestType := p.extractLsb' 0 8, request := p.extractLsb' 8 8, value := p.extractLsb' 16 16,
    index := p.extractLsb' 32 16, length := p.extractLsb' 48 16 }

/-- The 64-bit value `P` of a packet. -/
def SetupPacket.toBits (k : SetupPacket) : BitVec 64 :=
  k.length ++ k.index ++ k.value ++ k.request ++ k.requestType

/-- The packet of eight bytes in window order (30_encoding.md R90, 40_event_adapter.md R123). -/
def SetupPacket.ofBytes (b0 b1 b2 b3 b4 b5 b6 b7 : Byte) : SetupPacket :=
  { requestType := b0, request := b1, value := le16 b2 b3, index := le16 b4 b5, length := le16 b6 b7 }

/-- The eight bytes of a packet in window order. -/
def SetupPacket.toBytes (k : SetupPacket) : List Byte :=
  [k.requestType, k.request, lowByte k.value, highByte k.value, lowByte k.index, highByte k.index,
   lowByte k.length, highByte k.length]

/-- The packet with byte `i` replaced: one byte load of phase A2 (40_event_adapter.md R123). -/
def SetupPacket.setByte (k : SetupPacket) (i : Fin 8) (b : Byte) : SetupPacket :=
  match i with
  | 0 => { k with requestType := b }
  | 1 => { k with request := b }
  | 2 => { k with value := le16 b (highByte k.value) }
  | 3 => { k with value := le16 (lowByte k.value) b }
  | 4 => { k with index := le16 b (highByte k.index) }
  | 5 => { k with index := le16 (lowByte k.index) b }
  | 6 => { k with length := le16 b (highByte k.length) }
  | 7 => { k with length := le16 (lowByte k.length) b }

/-- Direction, type and recipient of `requestType` (30_encoding.md R91, general knowledge there). No rule reads them. -/
def SetupPacket.deviceToHost (k : SetupPacket) : Bool := k.requestType.getLsbD 7
def SetupPacket.requestKind (k : SetupPacket) : BitVec 2 := k.requestType.extractLsb' 5 2
def SetupPacket.recipient (k : SetupPacket) : BitVec 5 := k.requestType.extractLsb' 0 5

/-- Why a list of bytes is no SETUP packet: it always has 8 bytes (30_encoding.md R90, R101). -/
inductive DecodeError where
  | notEightBytes (n : Nat)
deriving DecidableEq, Repr

/-- The request level of the table (30_encoding.md R93): every request code selects exactly one row. -/
def decodeRequest (k : SetupPacket) : Instr :=
  match k.request.toNat with
  | 0 => .getStatus k.requestType k.value k.index k.length
  | 1 => .clearFeature k.requestType k.value k.index k.length
  | 2 => .req2Unassigned k.requestType k.value k.index k.length
  | 3 => .setFeature k.requestType k.value k.index k.length
  | 4 => .req4Unassigned k.requestType k.value k.index k.length
  | 5 => .setAddress k.requestType k.value k.index k.length
  | 6 => .getDescriptor k.requestType k.value k.index k.length
  | 7 => .setDescriptor k.requestType k.value k.index k.length
  | 8 => .getConfiguration k.requestType k.value k.index k.length
  | 9 => .setConfiguration k.requestType k.value k.index k.length
  | 10 => .getInterface k.requestType k.value k.index k.length
  | 11 => .setInterface k.requestType k.value k.index k.length
  | 12 => .synchFrame k.requestType k.value k.index k.length
  | _ => .req13To255Unassigned k.requestType k.request k.value k.index k.length

/-- The string level, under `dtype = 0x03` (30_encoding.md R94): the index is the low byte of `value` (R92 b). -/
def decodeString (requestType sidx : Byte) (index length : Half) : Instr :=
  match sidx.toNat with
  | 0 => .getDescriptorString0 requestType index length
  | 1 => .getDescriptorString1 requestType index length
  | 2 => .getDescriptorString2 requestType index length
  | 3 => .getDescriptorString3 requestType index length
  | _ => .getDescriptorStringOther requestType sidx index length

/-- The descriptor level, under GET_DESCRIPTOR (30_encoding.md R94): the type is the high byte of `value` (R92 a). -/
def decodeDescriptor (requestType dtype sidx : Byte) (index length : Half) : Instr :=
  match dtype.toNat with
  | 0x01 => .getDescriptorDevice requestType sidx index length
  | 0x02 => .getDescriptorConfiguration requestType sidx index length
  | 0x03 => decodeString requestType sidx index length
  | 0x06 => .getDescriptorDeviceQualifier requestType sidx index length
  | 0x22 => .getDescriptorHidReport requestType sidx index length
  | _ => .getDescriptorOther requestType dtype sidx index length

/-- Decoding to the end, level by level (30_encoding.md R104): a GET_DESCRIPTOR goes on to its descriptor row. -/
def decode (k : SetupPacket) : Instr :=
  match k.request.toNat with
  | 6 => decodeDescriptor k.requestType (highByte k.value) (lowByte k.value) k.index k.length
  | _ => decodeRequest k

/-- Decoding of the bytes of a packet, total on any list of bytes. -/
def decodeBytes : List Byte → Except DecodeError Instr
  | [b0, b1, b2, b3, b4, b5, b6, b7] => .ok (decode (.ofBytes b0 b1 b2 b3 b4 b5 b6 b7))
  | bs => .error (.notEightBytes bs.length)

/-- The table's numbering: bit 0 is the least significant bit of the first byte, which is the bit order of `P`. The packet
is always 8 bytes long, and every bit above `nbits` is 0. -/
def packetOfTableWord (nbits w : Nat) : SetupPacket := .ofBits (BitVec.ofNat 64 (w % 2 ^ nbits))

/-- What the decoder reads from a table word. A word longer than a packet is none. -/
def decodeTableWord (nbits w : Nat) : Option Instr :=
  if nbits ≤ 64 then some (decode (packetOfTableWord nbits w)) else none

/-- Event selection (30_encoding.md R97): each flag that reads 1 selects its branch, independently of the others, in
the fixed order of 40_event_adapter.md R121. -/
def decodeEvents (fSetup fReset fOut fIn : Bool) : List Instr :=
  (if fSetup then [.evSetup] else []) ++ (if fReset then [.evBusReset] else []) ++
  (if fOut then [.evEp0Out] else []) ++ (if fIn then [.evEp0In] else [])

/-- The table's `format` of an operation (30_encoding.md R104). -/
def Instr.format : Instr → Format
  | .evSetup | .evBusReset | .evEp0Out | .evEp0In | .traceAppend => .event
  | .dispatch _ | .catalog _ _ _ | .sendToHost _ _ _ _ | .prepareOutBuffer _ _ _ | .sendStall _ _ => .call
  | .armStatusIn | .rearmOut | .sendDescriptor _ _ | .stallEp0 => .call
  | .envSetup _ | .envBusReset | .envNoBuffer _ _ | .envInDone _ _ | .envOutDone _ _ _ | .envStall _ => .env
  | .getStatus _ _ _ _ | .clearFeature _ _ _ _ | .req2Unassigned _ _ _ _ | .setFeature _ _ _ _ => .setup
  | .req4Unassigned _ _ _ _ | .setAddress _ _ _ _ | .setDescriptor _ _ _ _ | .getConfiguration _ _ _ _ => .setup
  | .setConfiguration _ _ _ _ | .getInterface _ _ _ _ | .setInterface _ _ _ _ | .synchFrame _ _ _ _ => .setup
  | .req13To255Unassigned _ _ _ _ _ | .getDescriptor _ _ _ _ | .getDescriptorDevice _ _ _ _ => .setup
  | .getDescriptorConfiguration _ _ _ _ | .getDescriptorString0 _ _ _ | .getDescriptorString1 _ _ _ => .setup
  | .getDescriptorString2 _ _ _ | .getDescriptorString3 _ _ _ | .getDescriptorStringOther _ _ _ _ => .setup
  | .getDescriptorDeviceQualifier _ _ _ _ | .getDescriptorHidReport _ _ _ _ | .getDescriptorOther _ _ _ _ _ => .setup

/-- The packet with the given selector bytes in `value` (30_encoding.md R92 a, b): the type high, the index low. -/
def descriptorPacket (requestType dtype sidx : Byte) (index length : Half) : SetupPacket :=
  { requestType, request := 6, value := le16 sidx dtype, index, length }

/-- The packet of an operation, written from the tables of 30_encoding.md R93 and R94. An operation that is not a SETUP row
has no encoding (R104). -/
def encodePacket : Instr → Option SetupPacket
  | .getStatus t v i l => some { requestType := t, request := 0, value := v, index := i, length := l }
  | .clearFeature t v i l => some { requestType := t, request := 1, value := v, index := i, length := l }
  | .req2Unassigned t v i l => some { requestType := t, request := 2, value := v, index := i, length := l }
  | .setFeature t v i l => some { requestType := t, request := 3, value := v, index := i, length := l }
  | .req4Unassigned t v i l => some { requestType := t, request := 4, value := v, index := i, length := l }
  | .setAddress t v i l => some { requestType := t, request := 5, value := v, index := i, length := l }
  | .getDescriptor t v i l => some { requestType := t, request := 6, value := v, index := i, length := l }
  | .setDescriptor t v i l => some { requestType := t, request := 7, value := v, index := i, length := l }
  | .getConfiguration t v i l => some { requestType := t, request := 8, value := v, index := i, length := l }
  | .setConfiguration t v i l => some { requestType := t, request := 9, value := v, index := i, length := l }
  | .getInterface t v i l => some { requestType := t, request := 10, value := v, index := i, length := l }
  | .setInterface t v i l => some { requestType := t, request := 11, value := v, index := i, length := l }
  | .synchFrame t v i l => some { requestType := t, request := 12, value := v, index := i, length := l }
  | .req13To255Unassigned t r v i l => some { requestType := t, request := r, value := v, index := i, length := l }
  | .getDescriptorDevice t s i l => some (descriptorPacket t 0x01 s i l)
  | .getDescriptorConfiguration t s i l => some (descriptorPacket t 0x02 s i l)
  | .getDescriptorString0 t i l => some (descriptorPacket t 0x03 0 i l)
  | .getDescriptorString1 t i l => some (descriptorPacket t 0x03 1 i l)
  | .getDescriptorString2 t i l => some (descriptorPacket t 0x03 2 i l)
  | .getDescriptorString3 t i l => some (descriptorPacket t 0x03 3 i l)
  | .getDescriptorStringOther t s i l => some (descriptorPacket t 0x03 s i l)
  | .getDescriptorDeviceQualifier t s i l => some (descriptorPacket t 0x06 s i l)
  | .getDescriptorHidReport t s i l => some (descriptorPacket t 0x22 s i l)
  | .getDescriptorOther t d s i l => some (descriptorPacket t d s i l)
  | .evSetup | .evBusReset | .evEp0Out | .evEp0In | .traceAppend => none
  | .dispatch _ | .catalog _ _ _ | .sendToHost _ _ _ _ | .prepareOutBuffer _ _ _ | .sendStall _ _ => none
  | .armStatusIn | .rearmOut | .sendDescriptor _ _ | .stallEp0 => none
  | .envSetup _ | .envBusReset | .envNoBuffer _ _ | .envInDone _ _ | .envOutDone _ _ _ | .envStall _ => none

/-- The 64-bit value `P` of an operation (30_encoding.md R90). -/
def encode (i : Instr) : Option (BitVec 64) := (encodePacket i).map SetupPacket.toBits

/-- The table's `level` of a SETUP row; the other rows have none (30_encoding.md R104). -/
def Instr.level : Instr → Option Level
  | .getStatus _ _ _ _ | .clearFeature _ _ _ _ | .req2Unassigned _ _ _ _ | .setFeature _ _ _ _ => some .request
  | .req4Unassigned _ _ _ _ | .setAddress _ _ _ _ | .setDescriptor _ _ _ _ | .getConfiguration _ _ _ _ => some .request
  | .setConfiguration _ _ _ _ | .getInterface _ _ _ _ | .setInterface _ _ _ _ | .synchFrame _ _ _ _ => some .request
  | .req13To255Unassigned _ _ _ _ _ | .getDescriptor _ _ _ _ => some .request
  | .getDescriptorDevice _ _ _ _ | .getDescriptorConfiguration _ _ _ _ => some .descriptor
  | .getDescriptorDeviceQualifier _ _ _ _ | .getDescriptorHidReport _ _ _ _ => some .descriptor
  | .getDescriptorOther _ _ _ _ _ => some .descriptor
  | .getDescriptorString0 _ _ _ | .getDescriptorString1 _ _ _ | .getDescriptorString2 _ _ _ => some .string
  | .getDescriptorString3 _ _ _ | .getDescriptorStringOther _ _ _ _ => some .string
  | .evSetup | .evBusReset | .evEp0Out | .evEp0In | .traceAppend => none
  | .dispatch _ | .catalog _ _ _ | .sendToHost _ _ _ _ | .prepareOutBuffer _ _ _ | .sendStall _ _ => none
  | .armStatusIn | .rearmOut | .sendDescriptor _ _ | .stallEp0 => none
  | .envSetup _ | .envBusReset | .envNoBuffer _ _ | .envInDone _ _ | .envOutDone _ _ _ | .envStall _ => none

/-- Decoding as far as a level: the request level stops at the row GET_DESCRIPTOR, the two below it go on
(30_encoding.md R104). -/
def decodeAtLevel : Level → SetupPacket → Instr
  | .request, k => decodeRequest k
  | .descriptor, k => decode k
  | .string, k => decode k

end Sys2Proof
end

