-- ==== Sys2Proof/Config.lean ====
section
/-! DEFINITION. What an implementation fixes (00_scope.md R8, R9) and the one free value of the model. -/

namespace Sys2Proof

/-- `FLAG_SAMPLING` (40_event_adapter.md R122). -/
inductive FlagSampling where
  | atEntry
  | perBranch
deriving DecidableEq, Repr

/-- `TRACE_POLICY` (40_event_adapter.md R124). -/
inductive TracePolicy where
  | wrap
  | truncate
deriving DecidableEq, Repr

/-- `OUT_PID_CHECK` (93_implementation_defined.md U12): the spec's default is `ignore`. -/
inductive OutPidCheck where
  | ignore
  | drop
deriving DecidableEq, Repr

/-- The bytes of the device descriptor that 42_descriptor_catalog.md R161 leaves open. -/
structure DeviceFields where
  subClass  : Byte
  protocol  : Byte
  vid       : Half
  pidId     : Half
  bcdDevice : Half
deriving DecidableEq, Repr

/-- The bytes of one endpoint sub-descriptor that 42_descriptor_catalog.md R162 leaves open.
PRESUMED names (the USB standard layout, log 25); the block only copies these bytes. -/
structure EndpointFields where
  address       : Byte
  attributes    : Byte
  maxPacketSize : Half
  interval      : Byte
deriving DecidableEq, Repr

/-- The bytes of the configuration bundle that 42_descriptor_catalog.md R162 leaves open (names PRESUMED, log 25). -/
structure ConfigFields where
  numInterfaces      : Byte
  configurationValue : Byte
  configurationIndex : Byte
  attributes         : Byte
  maxPower           : Byte
  interfaceNumber    : Byte
  alternateSetting   : Byte
  numEndpoints       : Byte
  interfaceSubClass  : Byte
  interfaceProtocol  : Byte
  interfaceIndex     : Byte
  bcdHid             : Half
  countryCode        : Byte
  numDescriptors     : Byte
  endpointA          : EndpointFields
  endpointB          : EndpointFields
deriving DecidableEq, Repr

/-- The open parameters a model takes as arguments (00_scope.md R9, 92_eei_decisions.md). No step changes them, and a
statement about the machine holds for every value. The bounds the spec sets hold by construction: `WINDOW_SIZE` is
`0x900 + windowExtra` (20_memory.md R60), `HID_REPORT_LEN` is `1 + hidrTail.length` (R163), and every sequence of the ROM
has its declared length and the bytes the spec fixes (R161 to R166). -/
structure Params where
  flagSampling : FlagSampling
  traceCap     : Nat
  tracePolicy  : TracePolicy
  windowExtra  : Nat
  hasHid       : Bool
  outPidCheck  : OutPidCheck
  device       : DeviceFields
  config       : ConfigFields
  hidrHead     : Byte
  hidrTail     : List Byte
  manufacturer : Vector Half 14
  product      : Vector Half 17
  serial       : Vector Half 4
deriving DecidableEq, Repr

/-- FREE VALUE (log 10): the byte that a copy finds at index `i` beyond the declared length of a ROM sequence. The caller
guarantees that no call inside the block reads one (43_transfer_engine.md R182 f); the spec states no value. -/
opaque Config.romBeyond : RomSeq → Nat → Byte

/-- `MAX_PACKET` + 1 = `SIZE_LIMIT` (00_scope.md R8): a Transfer-Engine `size` must be below it. -/
def Config.sizeLimit : Nat := 65

/-- `N_EP` (00_scope.md R8). -/
def Config.numEndpoints : Nat := 16

/-- `SETUP_OFF` (00_scope.md R9, 92_eei_decisions.md D3). -/
def Config.setupOff : Nat := 0x00

/-- The least `WINDOW_SIZE` (20_memory.md R60). -/
def Config.windowMin : Nat := 0x900

end Sys2Proof
end

