-- ==== Sys2Proof/Machine/State.lean ====
section
/-! DEFINITION. The state of the machine as plain data, its reset value, and the reasons a step can stop. The spec's
pieces are those of 10_state.md; the model's own are `params`, `sched` and `wire` (INVENTORY.md, State). -/

namespace Sys2Proof.Machine

/-- The phase labels of 40_event_adapter.md R121. -/
inductive Phase where
  | a0
  | a1
  | a2
  | a3
  | a4
  | b0
  | b1
  | b2
  | b3
  | b4
  | c0
  | c1
  | c2
  | e0
  | e1
  | e2
  | e3
  | e4
  | e5
  | x
deriving DecidableEq, Repr

/-- What a Transfer-Engine primitive returns (43_transfer_engine.md R180). -/
inductive Indicator where
  | ok
  | fail
deriving DecidableEq, Repr

/-- One micro-step of CTRL: one register or memory access, or one internal computation (00_scope.md R15). -/
inductive Micro where
  | sampleFlags                            -- A0, 40_event_adapter.md R122
  | clearSetupRec                          -- A1
  | loadSetupByte (i : Fin 8)              -- A2, one byte load
  | appendTrace                            -- A3, R124
  | clearBusReset                          -- B1
  | zeroDeviceAddr                         -- B2
  | zeroAddresses                          -- B3
  | countReset                             -- B4
  | clearEpOut0                            -- C1
  | countEp0Out                            -- C2
  | clearEpIn0                             -- E1
  | countEp0In                             -- E2
  | applyDeviceAddr                        -- E3
  | recordAddress                          -- E4
  | storePending (a : DevAddr)             -- 41_request_dispatcher.md R147
  | checkArguments (r : Indicator)         -- 43_transfer_engine.md R181, with its verdict
  | storeByte (off : Nat) (v : Byte)       -- MemWrite(WIN, off, 1, v)
  | storeWord (off : Nat) (w : Word)       -- MemWrite32(WIN, off, w)
  | setStallArm                            -- 43_transfer_engine.md R186
deriving DecidableEq, Repr

/-- `S.seq` (10_state.md R24): idle, about to perform a phase, or inside the loop or call of a phase with the
micro-steps that are left. -/
inductive Seq where
  | idle
  | phase (p : Phase)
  | inside (p : Phase) (rest : List Micro)
deriving DecidableEq, Repr

/-- `S.snap` (10_state.md R25). -/
structure Snap where
  setup      : Bool
  busReset   : Bool
  buffStatus : Bool
  ep0Out     : Bool
  ep0In      : Bool
deriving DecidableEq, Repr

/-- What the SIE answers on the bus (44_sie_environment.md R203, R204, R206). The model's own record (log 8). -/
inductive WireAnswer where
  | data (n : Endpoint) (pid : Bool) (payload : List Byte)
  | stall (n : Endpoint)
  | nak (n : Endpoint) (d : Dir)
deriving DecidableEq, Repr

/-- A write of the boot sequence outside the block (70_reset_and_hazards.md R254, steps 3 and 4). -/
inductive BootWrite where
  | enableSetupReq
  | enableBusReset
  | enableBuffStatus
  | enableInterrupt
deriving DecidableEq, Repr

/-- Who moves next (00_scope.md R15; the model's own input, log 1): CTRL by one micro-step, the SIE by a move caused by
a token sent to `tokenAddr` (44_sie_environment.md R200), or the boot sequence. -/
inductive Turn where
  | ctrl
  | sie (tokenAddr : DevAddr) (move : Instr)
  | boot (w : BootWrite)
deriving DecidableEq, Repr

/-- Why the machine stops with a fault: for no reason. The block has no fault path (60_exceptions.md R220;
93_implementation_defined.md, head: the treatment `fault` "is never used here"). -/
inductive Fault where
deriving DecidableEq, Repr

/-- Why the machine refuses a step. -/
inductive Refusal where
  /-- Raised by an arm of `exec` whose operation has no meaning yet. Safe. -/
  | notModelled (mnemonic : String)
  /-- Raised by a 32-bit access of WIN at an offset that is no multiple of 4 (20_memory.md R67). Safe. -/
  | misalignedWord (off : Nat)
  /-- Raised by any access of WIN that does not lie below WINDOW_SIZE (20_memory.md R71: "A model refuses any other
  access"). Safe: no rule of the block forms one. -/
  | outsideWindow (off : Nat)
  /-- Raised by a move of the SIE whose guard is false: the move is not possible in that state
  (44_sie_environment.md R203 to R207). Safe. -/
  | moveNotEnabled
  /-- Raised by a token move of the SIE on a buffer-control word in which `reset`, `last` or a buffer-1 field is 1
  (30_encoding.md R100, 93_implementation_defined.md U5). Safe. -/
  | reservedFieldSet
  /-- Raised by a turn of the SIE that names an operation which is no move of 44_sie_environment.md (R207). Safe. -/
  | notAnSieMove
deriving DecidableEq, Repr

/-- The state of the machine. -/
structure State where
  params         : Params
  pkt            : SetupPacket
  pendingAddress : DevAddr
  address        : DevAddr
  seq            : Seq
  snap           : Snap
  resetCount     : Word
  ep0OutCount    : Word
  ep0InCount     : Word
  trace          : List Host.Cell
  traceIdx       : Nat
  addr           : DevAddr
  setupRec       : Bool
  busReset       : Bool
  epIn           : Vector Bool 16
  epOut          : Vector Bool 16
  inteSetupReq   : Bool
  inteBusReset   : Bool
  inteBuffStatus : Bool
  stallArmEp0    : Bool
  win            : List Host.Cell
  irqEnabled     : Bool
  indicator      : Indicator
  wire           : List WireAnswer
  sched          : List Turn
deriving DecidableEq, Repr

/-- DESIGN CHOICE (log 3): the parameter values of the reset state. No statement rests on them. -/
def Params.atReset : Params :=
  { flagSampling := .perBranch, traceCap := 8, tracePolicy := .wrap, windowExtra := 0, hasHid := true,
    outPidCheck := .ignore,
    device := { subClass := 0, protocol := 0, vid := 0, pidId := 0, bcdDevice := 0 },
    config :=
      { numInterfaces := 0, configurationValue := 0, configurationIndex := 0, attributes := 0, maxPower := 0,
        interfaceNumber := 0, alternateSetting := 0, numEndpoints := 0, interfaceSubClass := 0,
        interfaceProtocol := 0, interfaceIndex := 0, bcdHid := 0, countryCode := 0, numDescriptors := 0,
        endpointA := { address := 0, attributes := 0, maxPacketSize := 0, interval := 0 },
        endpointB := { address := 0, attributes := 0, maxPacketSize := 0, interval := 0 } },
    hidrHead := 0, hidrTail := List.replicate 33 0,
    manufacturer := Vector.replicate 14 0, product := Vector.replicate 17 0, serial := Vector.replicate 4 0 }

/-- Right after power-on reset (10_state.md R41, 70_reset_and_hazards.md R250). `pkt`, `snap` and the bytes of `trace`
and of `win` outside the buffer-control words are unspecified there: DESIGN CHOICE 0 (log 4, 5). DESIGN CHOICE also
`irqEnabled` before boot, `indicator`, `wire`, `sched` and `params` (log 1, 3, 6, 7, 8). -/
def State.reset : State :=
  { params := Params.atReset,
    pkt := { requestType := 0, request := 0, value := 0, index := 0, length := 0 },
    pendingAddress := 0, address := 0, seq := .idle,
    snap := { setup := false, busReset := false, buffStatus := false, ep0Out := false, ep0In := false },
    resetCount := 0, ep0OutCount := 0, ep0InCount := 0, trace := [], traceIdx := 0, addr := 0,
    setupRec := false, busReset := false,
    epIn := Vector.replicate 16 false, epOut := Vector.replicate 16 false,
    inteSetupReq := false, inteBusReset := false, inteBuffStatus := false,
    stallArmEp0 := false, win := [], irqEnabled := false, indicator := .ok, wire := [], sched := [] }

end Sys2Proof.Machine
end

