-- ==== Sys2Proof/Machine/Ops.lean ====
section
/-! DEFINITION. The named operations over memory and registers: byte memories in canonical form, the layout of the window,
its checked accesses, sequencing of outcomes, and the start and the end of an entry. -/

namespace Sys2Proof.Machine

/-- The outcome type of a meaning. -/
abbrev Result := Host.Outcome State Fault Refusal

/-- Go on with `f` after a next state; a stop stays a stop. -/
def Result.andThen (r : Result) (f : State → Result) : Result :=
  match r with
  | .next s => f s
  | .fault e => .fault e
  | .refused e => .refused e

/-- Map the next state. -/
def Result.mapNext (r : Result) (f : State → State) : Result :=
  match r with
  | .next s => .next (f s)
  | .fault e => .fault e
  | .refused e => .refused e

/-! ### Byte memories (20_memory.md R60, R65) -/

/-- What an address that is not listed reads as: 0. That is the reset value of the buffer-control words (10_state.md R41);
for the other bytes, unspecified there, a DESIGN CHOICE (log 5). -/
def Memory.unlisted : Byte := 0

/-- Read one byte. -/
def Memory.read : List Host.Cell → Nat → Byte
  | [], _ => Memory.unlisted
  | (k, v) :: rest, a => if k = a then v else Memory.read rest a

/-- Put a cell in front of the first higher address. -/
def Memory.insert (c : Host.Cell) : List Host.Cell → List Host.Cell
  | [] => [c]
  | d :: rest => if c.1 < d.1 then c :: d :: rest else d :: Memory.insert c rest

/-- Drop every entry of an address. -/
def Memory.erase (a : Nat) : List Host.Cell → List Host.Cell
  | [] => []
  | d :: rest => if d.1 = a then Memory.erase a rest else d :: Memory.erase a rest

/-- Write one byte, keeping the canonical form: writing what an unlisted address reads as drops the entry. -/
def Memory.write (m : List Host.Cell) (a : Nat) (v : Byte) : List Host.Cell :=
  if v = Memory.unlisted then Memory.erase a m else Memory.insert (a, v) (Memory.erase a m)

/-- Every address of a memory is above `lo`, rising, and no entry is equal to what an unlisted address reads as. -/
def Memory.wfAbove : Option Nat → List Host.Cell → Bool
  | _, [] => true
  | lo, (k, v) :: rest => lo.all (· < k) && decide (v ≠ Memory.unlisted) && Memory.wfAbove (some k) rest

/-- The canonical form: addresses strictly rising, no default entry. -/
def Memory.wf (m : List Host.Cell) : Bool := Memory.wfAbove none m

/-- Every listed address is below a bound. -/
def Memory.below (bound : Nat) (m : List Host.Cell) : Prop := ∀ c ∈ m, c.1 < bound

/-- Write bytes at rising addresses (00_scope.md R12 `MemWrite`). -/
def Memory.writeBytes (m : List Host.Cell) (a : Nat) : List Byte → List Host.Cell
  | [] => m
  | b :: bs => Memory.writeBytes (Memory.write m a b) (a + 1) bs

/-- Read `n` bytes at rising addresses (00_scope.md R12 `MemRead`). -/
def Memory.readBytes (m : List Host.Cell) (a : Nat) : Nat → List Byte
  | 0 => []
  | n + 1 => Memory.read m a :: Memory.readBytes m (a + 1) n

/-- Byte `i` of a word: little-endian (20_memory.md R66 a). -/
def wordByte (w : Word) (i : Nat) : Byte := w.extractLsb' (8 * i) 8

/-- The word of four bytes, the first in bits 7 to 0 (20_memory.md R66 a). -/
def wordOfBytes (b0 b1 b2 b3 : Byte) : Word := b3 ++ b2 ++ b1 ++ b0

/-- The 32-bit word at an offset (00_scope.md R12 `MemRead32`). -/
def Memory.read32 (m : List Host.Cell) (a : Nat) : Word :=
  wordOfBytes (Memory.read m a) (Memory.read m (a + 1)) (Memory.read m (a + 2)) (Memory.read m (a + 3))

/-- Store a 32-bit word (00_scope.md R12 `MemWrite32`). -/
def Memory.write32 (m : List Host.Cell) (a : Nat) (w : Word) : List Host.Cell :=
  Memory.writeBytes m a [wordByte w 0, wordByte w 1, wordByte w 2, wordByte w 3]

/-! ### The window (20_memory.md R60 to R63, R67, R71) -/

/-- `WINDOW_SIZE`. -/
def windowSize (p : Params) : Nat := Config.windowMin + p.windowExtra

/-- Offset of `BC[n][d]` (20_memory.md R62; 00_scope.md R8 `BC_IN_OFF`, `BC_OUT_OFF`). -/
def bcOff (n : Nat) (d : Dir) : Nat :=
  match d with
  | .inn => 0x80 + 8 * n
  | .out => 0x84 + 8 * n

/-- Offset of the data buffer of endpoint `n` (20_memory.md R63; 00_scope.md R8 `BUF_OFF`). -/
def bufOff (n : Nat) : Nat := 0x100 + 0x80 * n

/-- The word `BC[n][d]` (10_state.md R36). -/
def State.bc (s : State) (n : Nat) (d : Dir) : Word := Memory.read32 s.win (bcOff n d)

/-- One byte of the window, as a debugger or the SIE sees it (20_memory.md R66, R69: a read has no side effect). -/
def State.winByte (s : State) (off : Nat) : Byte := Memory.read s.win off

/-- Whether `n` bytes from `off` lie in the window; an empty access touches nothing. -/
def inWindow (p : Params) (off n : Nat) : Bool := decide (n = 0) || decide (off + n ≤ windowSize p)

/-- `MemWrite(WIN, off, _, bytes)`, refused outside the window (20_memory.md R71). -/
def State.storeBytes (s : State) (off : Nat) (bs : List Byte) : Result :=
  if inWindow s.params off bs.length then .next { s with win := Memory.writeBytes s.win off bs }
  else .refused (.outsideWindow off)

/-- `MemWrite32(WIN, off, w)`: refused at an offset that is no multiple of 4 (20_memory.md R67) and outside the window
(R71). -/
def State.storeWord (s : State) (off : Nat) (w : Word) : Result :=
  if off % 4 = 0 then
    if inWindow s.params off 4 then .next { s with win := Memory.write32 s.win off w }
    else .refused (.outsideWindow off)
  else .refused (.misalignedWord off)

/-- `MemRead(WIN, off, 1)` into byte `i` of the SETUP latch (40_event_adapter.md R123; log 15), refused outside the
window (20_memory.md R71). -/
def State.loadIntoLatch (s : State) (i : Fin 8) (off : Nat) : Result :=
  if inWindow s.params off 1 then .next { s with pkt := s.pkt.setByte i (Memory.read s.win off) }
  else .refused (.outsideWindow off)

/-! ### The trace (40_event_adapter.md R124) -/

/-- Append the 8 raw bytes of the latch: where there is room at the index; when full, at the start under `wrap` (if there is
any capacity), else not at all. -/
def State.appendTrace (s : State) : State :=
  if s.traceIdx < s.params.traceCap then
    { s with trace := Memory.writeBytes s.trace (8 * s.traceIdx) s.pkt.toBytes, traceIdx := s.traceIdx + 1 }
  else
    match s.params.tracePolicy with
    | .wrap =>
      if 0 < s.params.traceCap then { s with trace := Memory.writeBytes s.trace 0 s.pkt.toBytes, traceIdx := 1 } else s
    | .truncate => s

/-! ### Named updates of the sequencer and the schedule -/

/-- Set the sequencer. -/
def State.setSeq (s : State) (q : Seq) : State := { s with seq := q }

/-- Set the turns to come. -/
def State.setSched (s : State) (l : List Turn) : State := { s with sched := l }

/-! ### The controller interrupt: start and end of an entry (60_exceptions.md R228, R230) -/

/-- Starting an entry saves nothing, changes no mode, masks nothing: the only change is `S.seq <- A0` (R228). -/
def State.enterInterrupt (s : State) : State := s.setSeq (.phase .a0)

/-- There is no return operation; phase X sets `S.seq <- IDLE` and restores nothing (R230). -/
def State.leaveEntry (s : State) : State := s.setSeq .idle

/-- One write of the boot sequence (70_reset_and_hazards.md R254, steps 3 and 4). -/
def State.bootWrite (s : State) (w : BootWrite) : State :=
  match w with
  | .enableSetupReq => { s with inteSetupReq := true }
  | .enableBusReset => { s with inteBusReset := true }
  | .enableBuffStatus => { s with inteBuffStatus := true }
  | .enableInterrupt => { s with irqEnabled := true }

/-- The state a claim starts from: after step 4 of the boot sequence (70_reset_and_hazards.md R254). -/
def State.boot : State :=
  (((State.reset.bootWrite .enableSetupReq).bootWrite .enableBusReset).bootWrite .enableBuffStatus).bootWrite
    .enableInterrupt

end Sys2Proof.Machine
end

