-- ==== Sys2Proof/Machine/Flags.lean ====
section
/-! DEFINITION. Every flag computation: the fields of a buffer-control word (30_encoding.md R95, R96, R100), the interrupt
status and the request line (10_state.md R33, 60_exceptions.md R222), and the flags an entry tests (40_event_adapter.md
R122). -/

namespace Sys2Proof.Machine

/-! ### The buffer-control word (30_encoding.md R95) -/

def bcLength (w : Word) : Nat := (w.extractLsb' 0 10).toNat
def bcAvailable (w : Word) : Bool := w.getLsbD 10
def bcStall (w : Word) : Bool := w.getLsbD 11
def bcReset (w : Word) : Bool := w.getLsbD 12
def bcPid (w : Word) : Bool := w.getLsbD 13
def bcLast (w : Word) : Bool := w.getLsbD 14
def bcFull (w : Word) : Bool := w.getLsbD 15

/-- The buffer-1 half of the word. -/
def bcBuffer1 (w : Word) : BitVec 16 := w.extractLsb' 16 16

/-- A reserved field is 1: `reset`, `last`, or a field of buffer 1 (30_encoding.md R100). -/
def bcReserved (w : Word) : Bool := bcReset w || bcLast w || decide (bcBuffer1 w ≠ 0)

/-- A word composed whole from its fields, `reset`, `last` and buffer 1 written 0 (30_encoding.md R96). -/
def bcWord (length : Nat) (available stall pid full : Bool) : Word :=
  0#16 ++ BitVec.ofBool full ++ 0#1 ++ BitVec.ofBool pid ++ 0#1 ++ BitVec.ofBool stall ++ BitVec.ofBool available ++
    BitVec.ofNat 10 length

/-- A word with bit `i` set to `b`, the others unchanged (20_memory.md R68 e). -/
def setBit (w : Word) (i : Nat) (b : Bool) : Word :=
  if b then w ||| (1#32 <<< i) else w &&& ~~~(1#32 <<< i)

def bcSetAvailable (w : Word) (b : Bool) : Word := setBit w 10 b
def bcSetFull (w : Word) (b : Bool) : Word := setBit w 15 b

/-- A word with `length` replaced, the others unchanged. -/
def bcSetLength (w : Word) (n : Nat) : Word := w.extractLsb' 10 22 ++ BitVec.ofNat 10 n

/-! ### Interrupt status and request (10_state.md R33, 60_exceptions.md R222) -/

/-- `BUFF_STATUS != 0`. -/
def State.anyBuffStatus (s : State) : Bool := s.epIn.toList.any id || s.epOut.toList.any id

def State.intsSetupReq (s : State) : Bool := s.setupRec && s.inteSetupReq
def State.intsBusReset (s : State) : Bool := s.busReset && s.inteBusReset
def State.intsBuffStatus (s : State) : Bool := s.anyBuffStatus && s.inteBuffStatus

/-- The request line. -/
def State.irq (s : State) : Bool := s.intsSetupReq || s.intsBusReset || s.intsBuffStatus

/-- The entry condition: the request, the idle sequencer, and the interrupt controller's enable. -/
def State.entryCondition (s : State) : Bool := s.irq && s.irqEnabled && decide (s.seq = .idle)

/-! ### The flags an entry tests (40_event_adapter.md R122) -/

/-- The snapshot of phase A0 (10_state.md R25, 40_event_adapter.md R122); `buffStatus` after R25 (log 19). -/
def State.sample (s : State) : Snap :=
  { setup := s.intsSetupReq, busReset := s.intsBusReset, buffStatus := s.intsBuffStatus,
    ep0Out := s.epOut[0], ep0In := s.epIn[0] }

def State.fSetup (s : State) : Bool :=
  match s.params.flagSampling with
  | .atEntry => s.snap.setup
  | .perBranch => s.intsSetupReq

def State.fReset (s : State) : Bool :=
  match s.params.flagSampling with
  | .atEntry => s.snap.busReset
  | .perBranch => s.intsBusReset

def State.fOut (s : State) : Bool :=
  match s.params.flagSampling with
  | .atEntry => s.snap.ep0Out
  | .perBranch => s.epOut[0]

def State.fIn (s : State) : Bool :=
  match s.params.flagSampling with
  | .atEntry => s.snap.ep0In
  | .perBranch => s.epIn[0]

end Sys2Proof.Machine
end

