-- ==== Sys2Proof/Machine/Operands.lean ====
section
/-! DEFINITION. Operand assembly (30_encoding.md R92), the bytes of the descriptor ROM (42_descriptor_catalog.md R161 to
R166), and the argument check of the Transfer Engine (43_transfer_engine.md R181). -/

namespace Sys2Proof.Machine

/-- The new device address: `value[6:0]` (30_encoding.md R92 d; the truncation is 92_eei_decisions.md D11, log 16). -/
def newAddress (value : Half) : DevAddr := value.extractLsb' 0 7

/-- Transmitted length of a clipped descriptor: `min(declaredLength, L)` on unsigned values (30_encoding.md R92 f,
43_transfer_engine.md R190 b). -/
def clip (declared : Nat) (length : Half) : Nat := min declared length.toNat

/-- A 16-bit value, low byte first (20_memory.md R66 c). -/
def leBytes (h : Half) : List Byte := [lowByte h, highByte h]

/-- The device descriptor (42_descriptor_catalog.md R161). -/
def deviceDescriptor (d : DeviceFields) : List Byte :=
  [0x12, 0x01, 0x00, 0x02, 0x00, d.subClass, d.protocol, 0x40] ++ leBytes d.vid ++ leBytes d.pidId ++
    leBytes d.bcdDevice ++ [1, 2, 3, 1]

/-- One endpoint sub-descriptor (42_descriptor_catalog.md R162). -/
def endpointDescriptor (e : EndpointFields) : List Byte :=
  [0x07, 0x05, e.address, e.attributes] ++ leBytes e.maxPacketSize ++ [e.interval]

/-- `HID_REPORT_LEN` (00_scope.md R9): at least 1. -/
def hidReportLen (p : Params) : Nat := 1 + p.hidrTail.length

/-- The configuration bundle: configuration, interface, HID class, two endpoints (42_descriptor_catalog.md R162). -/
def configurationDescriptor (p : Params) : List Byte :=
  [0x09, 0x02, 0x29, 0x00, p.config.numInterfaces, p.config.configurationValue, p.config.configurationIndex,
    p.config.attributes, p.config.maxPower] ++
  [0x09, 0x04, p.config.interfaceNumber, p.config.alternateSetting, p.config.numEndpoints, 0x03,
    p.config.interfaceSubClass, p.config.interfaceProtocol, p.config.interfaceIndex] ++
  ([0x09, 0x21] ++ leBytes p.config.bcdHid ++ [p.config.countryCode, p.config.numDescriptors, 0x22] ++
    leBytes (BitVec.ofNat 16 (hidReportLen p))) ++
  endpointDescriptor p.config.endpointA ++ endpointDescriptor p.config.endpointB

/-- A string descriptor: its length, the type 0x03, the characters low byte first (42_descriptor_catalog.md R165). -/
def stringDescriptor (chars : List Half) : List Byte :=
  BitVec.ofNat 8 (2 + 2 * chars.length) :: 0x03 :: chars.flatMap leBytes

/-- The bytes of a ROM sequence (20_memory.md R64, 42_descriptor_catalog.md R161 to R165). -/
def romBytes (p : Params) : RomSeq → List Byte
  | .dev => deviceDescriptor p.device
  | .cfg => configurationDescriptor p
  | .hidr => p.hidrHead :: p.hidrTail
  | .str0 => [0x04, 0x03, 0x09, 0x04]
  | .str1 => stringDescriptor p.manufacturer.toList
  | .str2 => stringDescriptor p.product.toList
  | .str3 => stringDescriptor p.serial.toList

/-- The declared length of a ROM sequence (00_scope.md R8 `DEV_LEN`, `CFG_LEN`, `STR_LEN`; R9 `HID_REPORT_LEN`). -/
def declaredLen (p : Params) : RomSeq → Nat
  | .dev => 18
  | .cfg => 41
  | .hidr => hidReportLen p
  | .str0 => 4
  | .str1 => 30
  | .str2 => 36
  | .str3 => 10

/-- `buffer[i]`: beyond the declared length a free value (43_transfer_engine.md R182 f, log 10). -/
def romByte (p : Params) (q : RomSeq) (i : Nat) : Byte := ((romBytes p q)[i]?).getD (Config.romBeyond q i)

/-- `buffer[i]`, …, `n` bytes of a ROM sequence from index `i`. -/
def romSlice (p : Params) (q : RomSeq) (i : Nat) : Nat → List Byte
  | 0 => []
  | n + 1 => romByte p q i :: romSlice p q (i + 1) n

/-- The argument check of a primitive with a `size` (43_transfer_engine.md R181), on unbounded unsigned values (R190 a). -/
def checkSized (endpoint pid size : Nat) : Indicator :=
  if Config.numEndpoints ≤ endpoint ∨ 2 ≤ pid ∨ Config.sizeLimit ≤ size then .fail else .ok

/-- The argument check of `sendStall`, which has no `size` (43_transfer_engine.md R181). -/
def checkUnsized (endpoint pid : Nat) : Indicator :=
  if Config.numEndpoints ≤ endpoint ∨ 2 ≤ pid then .fail else .ok

end Sys2Proof.Machine
end

