-- ==== Sys2Proof/Machine/Micro.lean ====
section
/-! DEFINITION. What one micro-step of CTRL does (00_scope.md R15, 40_event_adapter.md R121), and a run of several with no
move of the SIE in between. -/

namespace Sys2Proof.Machine

/-- One micro-step: it is indivisible. -/
def microExec (m : Micro) (s : State) : Result :=
  match m with
  | .sampleFlags =>
    match s.params.flagSampling with
    | .atEntry => .next { s with snap := s.sample }
    | .perBranch => .next s
  | .clearSetupRec => .next { s with setupRec := false }
  | .loadSetupByte i => s.loadIntoLatch i (Config.setupOff + i.val)
  | .appendTrace => .next s.appendTrace
  | .clearBusReset => .next { s with busReset := false }
  | .zeroDeviceAddr => .next { s with addr := 0 }
  | .zeroAddresses => .next { s with pendingAddress := 0, address := 0 }
  | .countReset => .next { s with resetCount := s.resetCount + 1 }
  | .clearEpOut0 => .next { s with epOut := s.epOut.set 0 false }
  | .countEp0Out => .next { s with ep0OutCount := s.ep0OutCount + 1 }
  | .clearEpIn0 => .next { s with epIn := s.epIn.set 0 false }
  | .countEp0In => .next { s with ep0InCount := s.ep0InCount + 1 }
  | .applyDeviceAddr => .next { s with addr := if s.pendingAddress = 0 then s.addr else s.pendingAddress }
  | .recordAddress =>
    .next { s with address := if s.pendingAddress = 0 then s.address else s.pendingAddress, pendingAddress := 0 }
  | .storePending a => .next { s with pendingAddress := a }
  | .checkArguments r => .next { s with indicator := r }
  | .storeByte off v => s.storeBytes off [v]
  | .storeWord off w => s.storeWord off w
  | .setStallArm => .next { s with stallArmEp0 := true }

/-- The micro-steps of an operation one after the other, with no move of the SIE in between. -/
def runMicros : List Micro → State → Result
  | [], s => .next s
  | m :: rest, s => (microExec m s).andThen (runMicros rest)

end Sys2Proof.Machine
end

