-- ==== Sys2Proof/Machine/Env.lean ====
section
/-! DEFINITION. The moves of the SIE (44_sie_environment.md R201 to R206). Each is one indivisible step. A move whose guard
is false is not possible, and the model refuses it (log 11); so it refuses a token move on a word with a reserved field
set (30_encoding.md R100, log 12). -/

namespace Sys2Proof.Machine

/-- ENV_SETUP: the packet, the flag, and the stall arm cleared (44_sie_environment.md R201). Always possible. -/
def execEnvSetup (bytes : Vector Byte 8) (s : State) : Result :=
  (s.storeBytes Config.setupOff bytes.toList).mapNext fun t => { t with setupRec := true, stallArmEp0 := false }

/-- ENV_BUS_RESET: the flag and nothing else (44_sie_environment.md R202). Always possible. -/
def execEnvBusReset (s : State) : Result := .next { s with busReset := true }

/-- No buffer answers the token: none is armed (44_sie_environment.md R203), or it is the stall word of endpoint 0 without
the arm bit (R206 case b). -/
def noBufferGuard (s : State) (n : Endpoint) (d : Dir) : Bool :=
  !bcAvailable (s.bc n d) || (decide (d = .inn) && decide (n = 0) && bcStall (s.bc n d) && !s.stallArmEp0)

/-- ENV_NO_BUFFER: nothing changes but the record of the NAK (44_sie_environment.md R203). -/
def execEnvNoBuffer (n : Endpoint) (d : Dir) (s : State) : Result :=
  if bcReserved (s.bc n d) then .refused .reservedFieldSet
  else if noBufferGuard s n d then .next { s with wire := .nak n d :: s.wire }
  else .refused .moveNotEnabled

/-- Guard of ENV_IN_DONE (44_sie_environment.md R204). -/
def inDoneGuard (s : State) (n : Endpoint) : Bool :=
  bcAvailable (s.bc n .inn) && !bcStall (s.bc n .inn) && bcFull (s.bc n .inn)

/-- The word an IN completion leaves: `available` 0, `full` the draw (44_sie_environment.md R204). -/
def inDoneWord (w : Word) (fullDraw : Bool) : Word := bcSetFull (bcSetAvailable w false) fullDraw

/-- The packet the host receives (44_sie_environment.md R204). -/
def inPayload (s : State) (n : Endpoint) : List Byte :=
  Memory.readBytes s.win (bufOff n) (bcLength (s.bc n .inn))

/-- ENV_IN_DONE: the host has taken the IN packet (44_sie_environment.md R204). -/
def execEnvInDone (n : Endpoint) (fullDraw : Bool) (s : State) : Result :=
  if bcReserved (s.bc n .inn) then .refused .reservedFieldSet
  else if inDoneGuard s n then
    if inWindow s.params (bufOff n) (bcLength (s.bc n .inn)) then
      (s.storeWord (bcOff n .inn) (inDoneWord (s.bc n .inn) fullDraw)).mapNext fun t =>
        { t with epIn := s.epIn.set n.val true n.isLt,
                 wire := .data n (bcPid (s.bc n .inn)) (inPayload s n) :: s.wire }
    else .refused (.outsideWindow (bufOff n))
  else .refused .moveNotEnabled

/-- Guard of ENV_OUT_DONE (44_sie_environment.md R205), with the check of the data PID where the parameter asks for it
(93_implementation_defined.md U12). -/
def outDoneGuard (s : State) (n : Endpoint) (packetPid : Bool) (k : Nat) : Bool :=
  bcAvailable (s.bc n .out) && !bcStall (s.bc n .out) && decide (k ≤ bcLength (s.bc n .out)) &&
    (match s.params.outPidCheck with
     | .ignore => true
     | .drop => packetPid == bcPid (s.bc n .out))

/-- The word an OUT completion leaves: `available` 0, `full` 1, `length` the received count (44_sie_environment.md R205). -/
def outDoneWord (w : Word) (k : Nat) : Word := bcSetLength (bcSetFull (bcSetAvailable w false) true) k

/-- ENV_OUT_DONE: the SIE has accepted an OUT packet (44_sie_environment.md R205). -/
def execEnvOutDone (n : Endpoint) (packetPid : Bool) (data : List Byte) (s : State) : Result :=
  if bcReserved (s.bc n .out) then .refused .reservedFieldSet
  else if outDoneGuard s n packetPid data.length then
    (s.storeBytes (bufOff n) data).andThen fun t =>
      (t.storeWord (bcOff n .out) (outDoneWord (s.bc n .out) data.length)).mapNext fun u =>
        { u with epOut := s.epOut.set n.val true n.isLt }
  else .refused .moveNotEnabled

/-- Guard of ENV_STALL (44_sie_environment.md R206). -/
def stallGuard (s : State) (n : Endpoint) : Bool :=
  bcAvailable (s.bc n .inn) && bcStall (s.bc n .inn) && (decide (n ≠ 0) || s.stallArmEp0)

/-- ENV_STALL: a STALL handshake, which uses up the arm bit of endpoint 0 (44_sie_environment.md R206). -/
def execEnvStall (n : Endpoint) (s : State) : Result :=
  if bcReserved (s.bc n .inn) then .refused .reservedFieldSet
  else if stallGuard s n then
    .next { s with stallArmEp0 := if n = 0 then false else s.stallArmEp0, wire := .stall n :: s.wire }
  else .refused .moveNotEnabled

end Sys2Proof.Machine
end

