-- ==== Sys2Proof/Machine/Engine.lean ====
section
/-! DEFINITION. The Transfer Engine (43_transfer_engine.md) and its pseudo-operations (30_encoding.md R103): each
operation as its list of micro-steps, and its meaning, which is their run. -/

namespace Sys2Proof.Machine

/-- Single byte stores at rising offsets (20_memory.md R68 b). -/
def copyMicros (off : Nat) : List Byte → List Micro
  | [] => []
  | b :: bs => .storeByte off b :: copyMicros (off + 1) bs

/-- The word `sendToHost` writes (30_encoding.md R96). -/
def inWord (size pid : Nat) : Word := bcWord size true false (decide (pid = 1)) true

/-- The word `prepareOutBuffer` writes: `full` stays 0 (30_encoding.md R96, 43_transfer_engine.md R185). -/
def outWord (size pid : Nat) : Word := bcWord size true false (decide (pid = 1)) false

/-- The word `sendStall` writes: length 0 (30_encoding.md R96). -/
def stallWord (pid : Nat) : Word := bcWord 0 true true (decide (pid = 1)) true

/-- What `sendToHost` copies: `size` bytes of a ROM sequence, nothing for `null` (43_transfer_engine.md R182,
92_eei_decisions.md D26). -/
def sourceBytes (p : Params) (buffer : Option RomSeq) (size : Nat) : List Byte :=
  match buffer with
  | none => []
  | some q => romSlice p q 0 size

/-- `sendToHost(endpoint, pid, buffer, size)`: the check, the copy if `buffer` is not null, then one word store
(43_transfer_engine.md R182, R183). -/
def sendToHostMicros (p : Params) (endpoint pid : Nat) (buffer : Option RomSeq) (size : Nat) : List Micro :=
  match checkSized endpoint pid size with
  | .fail => [.checkArguments .fail]
  | .ok =>
    .checkArguments .ok ::
      (copyMicros (bufOff endpoint) (sourceBytes p buffer size) ++
        [.storeWord (bcOff endpoint .inn) (inWord size pid)])

/-- `prepareOutBuffer(endpoint, pid, size)` (43_transfer_engine.md R184). -/
def prepareOutBufferMicros (endpoint pid size : Nat) : List Micro :=
  match checkSized endpoint pid size with
  | .fail => [.checkArguments .fail]
  | .ok => [.checkArguments .ok, .storeWord (bcOff endpoint .out) (outWord size pid)]

/-- `sendStall(endpoint, pid)`: the word first, then for endpoint 0 the arm bit (43_transfer_engine.md R186). -/
def sendStallMicros (endpoint pid : Nat) : List Micro :=
  match checkUnsized endpoint pid with
  | .fail => [.checkArguments .fail]
  | .ok =>
    .checkArguments .ok :: .storeWord (bcOff endpoint .inn) (stallWord pid) ::
      (if endpoint = 0 then [.setStallArm] else [])

/-- The pseudo-operations of 30_encoding.md R103. -/
def armStatusInMicros (p : Params) : List Micro := sendToHostMicros p 0 1 none 0
def rearmOutMicros : List Micro := prepareOutBufferMicros 0 1 0
def sendDescriptorMicros (p : Params) (q : RomSeq) (n : Nat) : List Micro := sendToHostMicros p 0 1 (some q) n
def stallEp0Micros : List Micro := sendStallMicros 0 1

def execSendToHost (endpoint pid : Nat) (buffer : Option RomSeq) (size : Nat) (s : State) : Result :=
  runMicros (sendToHostMicros s.params endpoint pid buffer size) s

def execPrepareOutBuffer (endpoint pid size : Nat) (s : State) : Result :=
  runMicros (prepareOutBufferMicros endpoint pid size) s

def execSendStall (endpoint pid : Nat) (s : State) : Result := runMicros (sendStallMicros endpoint pid) s

def execArmStatusIn (s : State) : Result := runMicros (armStatusInMicros s.params) s

def execRearmOut (s : State) : Result := runMicros rearmOutMicros s

def execSendDescriptor (q : RomSeq) (n : Nat) (s : State) : Result := runMicros (sendDescriptorMicros s.params q n) s

def execStallEp0 (s : State) : Result := runMicros stallEp0Micros s

end Sys2Proof.Machine
end

