-- ==== Sys2Proof/Machine/Catalog.lean ====
section
/-! DEFINITION. The Descriptor Catalog (42_descriptor_catalog.md R160, R167 to R173): the pure selection, the case of each
descriptor row, and the call `catalog`. -/

namespace Sys2Proof.Machine

/-- The three outcomes of the catalog (42_descriptor_catalog.md R160). -/
inductive CatalogResult where
  | payload (q : RomSeq) (n : Nat)
  | stall
  | nothing
deriving DecidableEq, Repr

/-- The caller turns a result into micro-steps (42_descriptor_catalog.md R160). -/
def catalogResultMicros (p : Params) (r : CatalogResult) : List Micro :=
  match r with
  | .payload q n => sendDescriptorMicros p q n
  | .stall => stallEp0Micros
  | .nothing => []

/-- DEVICE: always in full (42_descriptor_catalog.md R167). -/
def deviceCase : CatalogResult := .payload .dev 18

/-- CONFIGURATION: clipped (R168). -/
def configurationCase (length : Half) : CatalogResult := .payload .cfg (clip 41 length)

/-- STRING 0 to 3: always in full (R170). -/
def string0Case : CatalogResult := .payload .str0 4
def string1Case : CatalogResult := .payload .str1 30
def string2Case : CatalogResult := .payload .str2 36
def string3Case : CatalogResult := .payload .str3 10

/-- STRING 4 to 255: a stall (R171). -/
def stringOtherCase : CatalogResult := .stall

/-- DEVICE_QUALIFIER: a stall (R169). -/
def deviceQualifierCase : CatalogResult := .stall

/-- HID_REPORT: clipped, where the configuration declares it (R172). -/
def hidReportCase (p : Params) (length : Half) : CatalogResult :=
  if p.hasHid then .payload .hidr (clip (hidReportLen p) length) else .nothing

/-- Any other type: nothing (R173). -/
def otherCase : CatalogResult := .nothing

/-- `catalog(dtype, sidx, L)`: a pure function of its operands and the ROM (42_descriptor_catalog.md R160). -/
def catalogResult (p : Params) (dtype sidx : Byte) (length : Half) : CatalogResult :=
  match dtype.toNat with
  | 0x01 => deviceCase
  | 0x02 => configurationCase length
  | 0x06 => deviceQualifierCase
  | 0x03 =>
    match sidx.toNat with
    | 0 => string0Case
    | 1 => string1Case
    | 2 => string2Case
    | 3 => string3Case
    | _ => stringOtherCase
  | 0x22 => hidReportCase p length
  | _ => otherCase

/-- The call of the catalog with its caller (42_descriptor_catalog.md R160). -/
def catalogMicros (p : Params) (dtype sidx : Byte) (length : Half) : List Micro :=
  catalogResultMicros p (catalogResult p dtype sidx length)

def execCatalog (dtype sidx : Byte) (length : Half) (s : State) : Result :=
  runMicros (catalogMicros s.params dtype sidx length) s

def execGetDescriptorDevice (s : State) : Result := runMicros (catalogResultMicros s.params deviceCase) s

def execGetDescriptorConfiguration (length : Half) (s : State) : Result :=
  runMicros (catalogResultMicros s.params (configurationCase length)) s

def execGetDescriptorString0 (s : State) : Result := runMicros (catalogResultMicros s.params string0Case) s

def execGetDescriptorString1 (s : State) : Result := runMicros (catalogResultMicros s.params string1Case) s

def execGetDescriptorString2 (s : State) : Result := runMicros (catalogResultMicros s.params string2Case) s

def execGetDescriptorString3 (s : State) : Result := runMicros (catalogResultMicros s.params string3Case) s

def execGetDescriptorStringOther (s : State) : Result := runMicros (catalogResultMicros s.params stringOtherCase) s

def execGetDescriptorDeviceQualifier (s : State) : Result :=
  runMicros (catalogResultMicros s.params deviceQualifierCase) s

def execGetDescriptorHidReport (length : Half) (s : State) : Result :=
  runMicros (catalogResultMicros s.params (hidReportCase s.params length)) s

def execGetDescriptorOther (s : State) : Result := runMicros (catalogResultMicros s.params otherCase) s

end Sys2Proof.Machine
end

