-- ==== Sys2Proof/Machine/Requests.lean ====
section
/-! DEFINITION. The request rows (41_request_dispatcher.md R142 to R154), the micro-steps a decoded packet stands for, and
the call `dispatch` (R140). -/

namespace Sys2Proof.Machine

/-- A no-op handler or an empty table entry reads nothing and writes nothing (41_request_dispatcher.md R142, R154). -/
def skipMicros : List Micro := []

/-- `set_address`: store the pending address, then arm the status IN (41_request_dispatcher.md R147). -/
def setAddressMicros (p : Params) (value : Half) : List Micro :=
  .storePending (newAddress value) :: armStatusInMicros p

/-- `set_configuration`: arm the status IN, whatever the value (41_request_dispatcher.md R148). -/
def setConfigurationMicros (p : Params) : List Micro := armStatusInMicros p

/-- `get_descriptor`: branch into the catalog with the operands of 30_encoding.md R92 (41_request_dispatcher.md R149). -/
def getDescriptorMicros (p : Params) (value length : Half) : List Micro :=
  catalogMicros p (highByte value) (lowByte value) length

def execGetStatus (s : State) : Result := runMicros skipMicros s

def execClearFeature (s : State) : Result := runMicros skipMicros s

def execReq2Unassigned (s : State) : Result := runMicros skipMicros s

def execSetFeature (s : State) : Result := runMicros skipMicros s

def execReq4Unassigned (s : State) : Result := runMicros skipMicros s

def execSetAddress (value : Half) (s : State) : Result := runMicros (setAddressMicros s.params value) s

def execSetDescriptor (s : State) : Result := runMicros skipMicros s

def execGetConfiguration (s : State) : Result := runMicros skipMicros s

def execSetConfiguration (s : State) : Result := runMicros (setConfigurationMicros s.params) s

def execGetInterface (s : State) : Result := runMicros skipMicros s

def execSetInterface (s : State) : Result := runMicros skipMicros s

def execSynchFrame (s : State) : Result := runMicros skipMicros s

def execReq13To255Unassigned (s : State) : Result := runMicros skipMicros s

def execGetDescriptor (value length : Half) (s : State) : Result :=
  runMicros (getDescriptorMicros s.params value length) s

/-- The handler a packet's row stands for, as its micro-steps: the fixed table of 30_encoding.md R93 and R94. An operation
that no packet selects has none here. -/
def handlerMicros (p : Params) : Instr → List Micro
  | .getStatus _ _ _ _ => skipMicros
  | .clearFeature _ _ _ _ => skipMicros
  | .req2Unassigned _ _ _ _ => skipMicros
  | .setFeature _ _ _ _ => skipMicros
  | .req4Unassigned _ _ _ _ => skipMicros
  | .setAddress _ value _ _ => setAddressMicros p value
  | .setDescriptor _ _ _ _ => skipMicros
  | .getConfiguration _ _ _ _ => skipMicros
  | .setConfiguration _ _ _ _ => setConfigurationMicros p
  | .getInterface _ _ _ _ => skipMicros
  | .setInterface _ _ _ _ => skipMicros
  | .synchFrame _ _ _ _ => skipMicros
  | .req13To255Unassigned _ _ _ _ _ => skipMicros
  | .getDescriptor _ value _ length => getDescriptorMicros p value length
  | .getDescriptorDevice _ _ _ _ => catalogResultMicros p deviceCase
  | .getDescriptorConfiguration _ _ _ length => catalogResultMicros p (configurationCase length)
  | .getDescriptorString0 _ _ _ => catalogResultMicros p string0Case
  | .getDescriptorString1 _ _ _ => catalogResultMicros p string1Case
  | .getDescriptorString2 _ _ _ => catalogResultMicros p string2Case
  | .getDescriptorString3 _ _ _ => catalogResultMicros p string3Case
  | .getDescriptorStringOther _ _ _ _ => catalogResultMicros p stringOtherCase
  | .getDescriptorDeviceQualifier _ _ _ _ => catalogResultMicros p deviceQualifierCase
  | .getDescriptorHidReport _ _ _ length => catalogResultMicros p (hidReportCase p length)
  | .getDescriptorOther _ _ _ _ _ => catalogResultMicros p otherCase
  | .evSetup | .evBusReset | .evEp0Out | .evEp0In | .traceAppend => []
  | .dispatch _ | .catalog _ _ _ | .sendToHost _ _ _ _ | .prepareOutBuffer _ _ _ | .sendStall _ _ => []
  | .armStatusIn | .rearmOut | .sendDescriptor _ _ | .stallEp0 => []
  | .envSetup _ | .envBusReset | .envNoBuffer _ _ | .envInDone _ _ | .envOutDone _ _ _ | .envStall _ => []

/-- `dispatch(pkt)`: at most one handler, selected by the request code alone (41_request_dispatcher.md R140, R141, R155). -/
def dispatchMicros (p : Params) (k : SetupPacket) : List Micro := handlerMicros p (decode k)

def execDispatch (k : SetupPacket) (s : State) : Result := runMicros (dispatchMicros s.params k) s

end Sys2Proof.Machine
end

