-- ==== Sys2Proof/Machine/Events.lean ====
section
/-! DEFINITION. The Event Adapter: the micro-steps of each phase (40_event_adapter.md R121), the phase that follows, and the
meanings of the event rows, which are the phases of their branch one after the other. -/

namespace Sys2Proof.Machine

/-- The eight byte loads of phase A2, in rising offset order (40_event_adapter.md R123, 20_memory.md R68 c). -/
def loadSetupMicros : List Micro :=
  [.loadSetupByte 0, .loadSetupByte 1, .loadSetupByte 2, .loadSetupByte 3,
   .loadSetupByte 4, .loadSetupByte 5, .loadSetupByte 6, .loadSetupByte 7]

/-- The micro-steps of a phase; an empty list is one micro-step that changes only `S.seq` (40_event_adapter.md R121). -/
def phaseMicros (p : Phase) (s : State) : List Micro :=
  match p with
  | .a0 => [.sampleFlags]
  | .a1 => [.clearSetupRec]
  | .a2 => loadSetupMicros
  | .a3 => [.appendTrace]
  | .a4 => dispatchMicros s.params s.pkt
  | .b0 => []
  | .b1 => [.clearBusReset]
  | .b2 => [.zeroDeviceAddr]
  | .b3 => [.zeroAddresses]
  | .b4 => [.countReset]
  | .c0 => []
  | .c1 => [.clearEpOut0]
  | .c2 => [.countEp0Out]
  | .e0 => []
  | .e1 => [.clearEpIn0]
  | .e2 => [.countEp0In]
  | .e3 => [.applyDeviceAddr]
  | .e4 => [.recordAddress]
  | .e5 => rearmOutMicros
  | .x => []

/-- Where the sequencer goes after a phase: on in the order of 40_event_adapter.md R121, skipping a branch whose flag reads
0, and after X to IDLE. -/
def nextSeq (p : Phase) (s : State) : Seq :=
  match p with
  | .a0 => if s.fSetup then .phase .a1 else .phase .b0
  | .a1 => .phase .a2
  | .a2 => .phase .a3
  | .a3 => .phase .a4
  | .a4 => .phase .b0
  | .b0 => if s.fReset then .phase .b1 else .phase .c0
  | .b1 => .phase .b2
  | .b2 => .phase .b3
  | .b3 => .phase .b4
  | .b4 => .phase .c0
  | .c0 => if s.fOut then .phase .c1 else .phase .e0
  | .c1 => .phase .c2
  | .c2 => .phase .e0
  | .e0 => if s.fIn then .phase .e1 else .phase .x
  | .e1 => .phase .e2
  | .e2 => .phase .e3
  | .e3 => .phase .e4
  | .e4 => .phase .e5
  | .e5 => .phase .x
  | .x => .idle

/-- Move the sequencer on after phase `p`; phase X leaves the entry. -/
def State.advance (p : Phase) (s : State) : State :=
  match nextSeq p s with
  | .idle => s.leaveEntry
  | q => s.setSeq q

/-- The micro-steps of phase `p` in the state it starts from. -/
def runPhase (p : Phase) (s : State) : Result := runMicros (phaseMicros p s) s

/-- Phases one after the other, each from the state the one before it leaves; `S.seq` is not touched. -/
def runPhases : List Phase → State → Result
  | [], s => .next s
  | p :: rest, s => (runPhase p s).andThen (runPhases rest)

/-- EV_SETUP: clear, read, append to the trace, dispatch (40_event_adapter.md R123 to R125). -/
def execEvSetup (s : State) : Result := runPhases [.a1, .a2, .a3, .a4] s

/-- EV_BUS_RESET (40_event_adapter.md R126). -/
def execEvBusReset (s : State) : Result := runPhases [.b1, .b2, .b3, .b4] s

/-- EV_EP0_OUT (40_event_adapter.md R128). -/
def execEvEp0Out (s : State) : Result := runPhases [.c1, .c2] s

/-- EV_EP0_IN (40_event_adapter.md R130). -/
def execEvEp0In (s : State) : Result := runPhases [.e1, .e2, .e3, .e4, .e5] s

/-- The trace append of phase A3 (40_event_adapter.md R124). -/
def execTraceAppend (s : State) : Result := runPhases [.a3] s

end Sys2Proof.Machine
end

