-- ==== Sys2Proof/Machine/Dispatch.lean ====
section
/-! DEFINITION. exec: one arm per operation, one direct call of its meaning. -/

namespace Sys2Proof.Machine

def exec (i : Instr) (s : State) : Host.Outcome State Fault Refusal :=
  match i with
  | .getStatus _ _ _ _ => Sys2Proof.Machine.execGetStatus s
  | .clearFeature _ _ _ _ => Sys2Proof.Machine.execClearFeature s
  | .req2Unassigned _ _ _ _ => Sys2Proof.Machine.execReq2Unassigned s
  | .setFeature _ _ _ _ => Sys2Proof.Machine.execSetFeature s
  | .req4Unassigned _ _ _ _ => Sys2Proof.Machine.execReq4Unassigned s
  | .setAddress _ value _ _ => Sys2Proof.Machine.execSetAddress value s
  | .setDescriptor _ _ _ _ => Sys2Proof.Machine.execSetDescriptor s
  | .getConfiguration _ _ _ _ => Sys2Proof.Machine.execGetConfiguration s
  | .setConfiguration _ _ _ _ => Sys2Proof.Machine.execSetConfiguration s
  | .getInterface _ _ _ _ => Sys2Proof.Machine.execGetInterface s
  | .setInterface _ _ _ _ => Sys2Proof.Machine.execSetInterface s
  | .synchFrame _ _ _ _ => Sys2Proof.Machine.execSynchFrame s
  | .req13To255Unassigned _ _ _ _ _ => Sys2Proof.Machine.execReq13To255Unassigned s
  | .getDescriptor _ value _ length => Sys2Proof.Machine.execGetDescriptor value length s
  | .getDescriptorDevice _ _ _ _ => Sys2Proof.Machine.execGetDescriptorDevice s
  | .getDescriptorConfiguration _ _ _ length => Sys2Proof.Machine.execGetDescriptorConfiguration length s
  | .getDescriptorString0 _ _ _ => Sys2Proof.Machine.execGetDescriptorString0 s
  | .getDescriptorString1 _ _ _ => Sys2Proof.Machine.execGetDescriptorString1 s
  | .getDescriptorString2 _ _ _ => Sys2Proof.Machine.execGetDescriptorString2 s
  | .getDescriptorString3 _ _ _ => Sys2Proof.Machine.execGetDescriptorString3 s
  | .getDescriptorStringOther _ _ _ _ => Sys2Proof.Machine.execGetDescriptorStringOther s
  | .getDescriptorDeviceQualifier _ _ _ _ => Sys2Proof.Machine.execGetDescriptorDeviceQualifier s
  | .getDescriptorHidReport _ _ _ length => Sys2Proof.Machine.execGetDescriptorHidReport length s
  | .getDescriptorOther _ _ _ _ _ => Sys2Proof.Machine.execGetDescriptorOther s
  | .evSetup => Sys2Proof.Machine.execEvSetup s
  | .evBusReset => Sys2Proof.Machine.execEvBusReset s
  | .evEp0Out => Sys2Proof.Machine.execEvEp0Out s
  | .evEp0In => Sys2Proof.Machine.execEvEp0In s
  | .traceAppend => Sys2Proof.Machine.execTraceAppend s
  | .dispatch pkt => Sys2Proof.Machine.execDispatch pkt s
  | .catalog dtype sidx length => Sys2Proof.Machine.execCatalog dtype sidx length s
  | .sendToHost endpoint pid buffer size => Sys2Proof.Machine.execSendToHost endpoint pid buffer size s
  | .prepareOutBuffer endpoint pid size => Sys2Proof.Machine.execPrepareOutBuffer endpoint pid size s
  | .sendStall endpoint pid => Sys2Proof.Machine.execSendStall endpoint pid s
  | .armStatusIn => Sys2Proof.Machine.execArmStatusIn s
  | .rearmOut => Sys2Proof.Machine.execRearmOut s
  | .sendDescriptor buffer size => Sys2Proof.Machine.execSendDescriptor buffer size s
  | .stallEp0 => Sys2Proof.Machine.execStallEp0 s
  | .envSetup bytes => Sys2Proof.Machine.execEnvSetup bytes s
  | .envBusReset => Sys2Proof.Machine.execEnvBusReset s
  | .envNoBuffer endpoint dir => Sys2Proof.Machine.execEnvNoBuffer endpoint dir s
  | .envInDone endpoint fullDraw => Sys2Proof.Machine.execEnvInDone endpoint fullDraw s
  | .envOutDone endpoint packetPid data => Sys2Proof.Machine.execEnvOutDone endpoint packetPid data s
  | .envStall endpoint => Sys2Proof.Machine.execEnvStall endpoint s

end Sys2Proof.Machine
end

