-- ==== Sys2Proof/Machine/Sequencer.lean ====
section
/-! DEFINITION. The sequencer of CTRL, the moves of the SIE as turns, and fetching: what Step.lean calls. -/

namespace Sys2Proof.Machine

/-- At IDLE an entry starts when its condition holds (60_exceptions.md R222, R228); else the block waits (log 27). -/
def idleTurn (s : State) : State := if s.entryCondition then s.enterInterrupt else s

/-- A whole phase with no move of the SIE inside it: phase A4 runs the operation the latch decodes to, phase E5 the
re-arming (40_event_adapter.md R121, R125, R130). -/
def wholePhase (p : Phase) (s : State) : Result :=
  match p with
  | .a4 => exec (decode s.pkt) s
  | .e5 => exec .rearmOut s
  | p => runPhase p s

/-- CTRL goes on alone: what is left of the current phase, or the whole of it, and on to the next phase (log 2). -/
def ctrlWhole (s : State) : Result :=
  match s.seq with
  | .idle => .next (idleTurn s)
  | .phase p => (wholePhase p s).mapNext (State.advance p)
  | .inside p rest => (runMicros rest s).mapNext (State.advance p)

/-- The first of the micro-steps that are left of phase `p`; after the last the sequencer moves on. -/
def firstMicro (p : Phase) (todo : List Micro) (s : State) : Result :=
  match todo with
  | [] => .next (s.advance p)
  | [m] => (microExec m s).mapNext (State.advance p)
  | m :: rest => (microExec m s).mapNext fun t => t.setSeq (.inside p rest)

/-- One micro-step of CTRL (00_scope.md R15, 10_state.md R24). -/
def ctrlMicro (s : State) : Result :=
  match s.seq with
  | .idle => .next (idleTurn s)
  | .phase p => firstMicro p (phaseMicros p s) s
  | .inside p rest => firstMicro p rest s

/-- Whether a move needs a token: all but the bus reset (44_sie_environment.md R200). -/
def needsToken (i : Instr) : Bool := decide (i ≠ .envBusReset)

/-- A turn of the SIE: a token for another address than `ADDR.address` causes no move (44_sie_environment.md R200,
92_eei_decisions.md D36; log 14). -/
def sieTurn (tokenAddr : DevAddr) (i : Instr) (s : State) : Result :=
  match i.format with
  | .env => if needsToken i && decide (tokenAddr ≠ s.addr) then .next s else exec i s
  | .setup => .refused .notAnSieMove
  | .event => .refused .notAnSieMove
  | .call => .refused .notAnSieMove

/-- The packet of a table word in the latch, the sequencer at the dispatch, no turn pending (log 22). -/
def placeFetchWord (s : State) (nbits w : Nat) : State :=
  { s with pkt := packetOfTableWord nbits w, seq := .phase .a4, sched := [] }

end Sys2Proof.Machine
end

