-- ==== Sys2Proof/Machine/Step.lean ====
section
/-! DEFINITION. One step of the machine, and the placing of a table word where the next step decodes it. -/

namespace Sys2Proof.Machine

/-- The next turn moves; with no turn to come the block goes on alone (00_scope.md R15; log 1, 2). -/
def step (s : State) : Host.Outcome State Fault Refusal :=
  match s.sched with
  | [] => ctrlWhole s
  | .ctrl :: rest => ctrlMicro (s.setSched rest)
  | .sie tokenAddr move :: rest => sieTurn tokenAddr move (s.setSched rest)
  | .boot w :: rest => .next ((s.setSched rest).bootWrite w)

/-- The state whose next step decodes the table word and runs the operation it stands for (log 22). -/
def State.withFetchWord (s : State) (nbits w : Nat) : State := placeFetchWord s nbits w

end Sys2Proof.Machine
end

