-- ==== Sys2Proof/Safety.lean ====
section
/-! DEFINITION. What counts as a safe run: the invariant a state keeps, and the words claims are stated in. -/

namespace Sys2Proof.Machine

/-- The two memories have their canonical form and list no address outside their space (20_memory.md R60, R65). -/
def State.memoryOk (s : State) : Prop :=
  Memory.wf s.win = true ∧ Memory.below (windowSize s.params) s.win ∧
  Memory.wf s.trace = true ∧ Memory.below (8 * s.params.traceCap) s.trace

/-- `S.traceIdx` never exceeds `TRACE_CAP` (10_state.md R27, 43_transfer_engine.md R190 d). -/
def State.traceIdxOk (s : State) : Prop := s.traceIdx ≤ s.params.traceCap

/-- A position inside a phase is a position inside the micro-steps of that phase: some are done and some are left
(10_state.md R24). -/
def State.seqOk (s : State) : Prop :=
  match s.seq with
  | .idle => True
  | .phase _ => True
  | .inside p rest => rest ≠ [] ∧ ∃ done, done ≠ [] ∧ done ++ rest = phaseMicros p s

/-- `S.address = ADDR.address` outside the micro-steps of rules R126 and R130 (10_state.md R23), and what holds between
B2 and B3 and between E3 and E4. -/
def State.addressOk (s : State) : Prop :=
  match s.seq with
  | .phase .b3 => s.addr = 0
  | .phase .e4 => s.addr = if s.pendingAddress = 0 then s.address else s.pendingAddress
  | _ => s.address = s.addr

/-- In all 32 buffer-control words `reset`, `last` and the buffer-1 fields are 0 and `length` is one the Transfer Engine can
produce (30_encoding.md R95, R100). -/
def State.wordsOk (s : State) : Prop :=
  ∀ (n : Endpoint) (d : Dir), bcReserved (s.bc n d) = false ∧ bcLength (s.bc n d) < Config.sizeLimit

/-- The invariant of a safe run. -/
structure State.Inv (s : State) : Prop where
  memory   : s.memoryOk
  traceIdx : s.traceIdxOk
  seq      : s.seqOk
  address  : s.addressOk
  words    : s.wordsOk

/-- A turn that is not the SIE's. -/
def Turn.isSie : Turn → Bool
  | .ctrl => false
  | .sie _ _ => true
  | .boot _ => false

/-- The next turn is not the SIE's. -/
def State.sieWaits (s : State) : Prop := ∀ t rest, s.sched = t :: rest → t.isSie = false

/-- Address `a` is none of the `n` bytes from `lo`. -/
def Outside (lo n a : Nat) : Prop := a < lo ∨ lo + n ≤ a

/-- `t` is `s` after a transfer was armed on `BC[n][IN]`: `bytes` lie in the data buffer from its start, the word is the one
of 30_encoding.md R96 for `pid` and `size`, and nothing else differs but the indicator, which is `OK`. -/
def SendsIn (n pid : Nat) (bytes : List Byte) (size : Nat) (s t : State) : Prop :=
  t = { s with win := t.win, indicator := .ok } ∧
  t.bc n .inn = BitVec.ofNat 32 (0x8400 + 0x2000 * pid + size) ∧
  (∀ i, i < bytes.length → t.winByte (bufOff n + i) = bytes.getD i 0) ∧
  ∀ a, Outside (bcOff n .inn) 4 a → Outside (bufOff n) bytes.length a → t.winByte a = s.winByte a

/-- `t` is `s` after `BC[n][OUT]` was armed: only that word and the indicator differ. -/
def ArmsOut (n pid size : Nat) (s t : State) : Prop :=
  t = { s with win := t.win, indicator := .ok } ∧
  t.bc n .out = BitVec.ofNat 32 (0x0400 + 0x2000 * pid + size) ∧
  ∀ a, Outside (bcOff n .out) 4 a → t.winByte a = s.winByte a

/-- `t` is `s` after a stall was armed on `BC[n][IN]`: only that word, the indicator and, for endpoint 0, the arm bit differ. -/
def StallsIn (n pid : Nat) (s t : State) : Prop :=
  t = { s with win := t.win, indicator := .ok, stallArmEp0 := if n = 0 then true else s.stallArmEp0 } ∧
  t.bc n .inn = BitVec.ofNat 32 (0x8C00 + 0x2000 * pid) ∧
  ∀ a, Outside (bcOff n .inn) 4 a → t.winByte a = s.winByte a

/-- `k` steps of the machine, stopping at the first fault or refusal. -/
def runSteps : Nat → State → Result
  | 0, s => .next s
  | k + 1, s => Result.andThen (step s) (runSteps k)

/-- An operation answers a next state. -/
def Completes (i : Instr) (s : State) : Prop := ∃ t, exec i s = .next t

end Sys2Proof.Machine
end

