-- ==== Sys2Proof/Certificates/Slice0/Obligations.lean ====
section
/-! DEFINITION. The statements about the machine, one `def Obligations.<Name> : Prop` each, in the order of
OBLIGATIONS.json. -/

open Sys2Proof Sys2Proof.Machine

/-! ### Formats (30_encoding.md) -/

/-- Every well-formed SETUP row has a packet, and decoding that packet at the row's level gives the row back with every
operand; a row of another format has none (30_encoding.md R90, R93, R94, R104). -/
def Obligations.EncodeThenDecodeReturnsTheOperation : Prop :=
  ∀ i : Instr, i.wf = true →
    (i.format = .setup → ∃ p l, encode i = some p ∧ i.level = some l ∧ decodeAtLevel l (.ofBits p) = i) ∧
    (i.format ≠ .setup → encode i = none)

/-- Every 64-bit packet decodes, to the end and at the request level, to a well-formed SETUP row whose packet it is: no two
packets share an operation with its operands. -/
def Obligations.DecodeThenEncodeReturnsThePacket : Prop :=
  ∀ p : BitVec 64,
    (decode (.ofBits p)).wf = true ∧ (decode (.ofBits p)).format = .setup ∧ encode (decode (.ofBits p)) = some p ∧
    (decodeRequest (.ofBits p)).wf = true ∧ (decodeRequest (.ofBits p)).level = some .request ∧
    encode (decodeRequest (.ofBits p)) = some p

/-- A packet is always 8 bytes: a list of 8 bytes is the packet of its fields, low byte first, and in the value `P` of R90 byte
`i` is bits `8*i+7` to `8*i`; any other length is rejected by name. -/
def Obligations.DecodeBytesReadsExactlyEightBytes : Prop :=
  ∀ bs : List Byte,
    (bs.length = 8 → ∃ k, decodeBytes bs = .ok (decode k) ∧ k.toBytes = bs ∧ k = .ofBits k.toBits ∧
      (∀ j, j < 8 → k.toBits.extractLsb' (8 * j) 8 = bs.getD j 0) ∧
      k.requestType = bs.getD 0 0 ∧ k.request = bs.getD 1 0 ∧
      k.value.toNat = (bs.getD 2 0).toNat + 256 * (bs.getD 3 0).toNat ∧
      k.index.toNat = (bs.getD 4 0).toNat + 256 * (bs.getD 5 0).toNat ∧
      k.length.toNat = (bs.getD 6 0).toNat + 256 * (bs.getD 7 0).toNat) ∧
    (bs.length ≠ 8 → decodeBytes bs = .error (.notEightBytes bs.length))

/-- A few packets written out byte by byte (95_test_vectors.md S1, S8, V25, V34, V60). -/
def Obligations.WrittenOutPacketsDecode : Prop :=
  decodeBytes [0x00, 0x05, 0x05, 0x00, 0x00, 0x00, 0x00, 0x00] = .ok (.setAddress 0x00 0x0005 0 0) ∧
  decodeBytes [0x21, 0xFF, 0x00, 0x00, 0x00, 0x00, 0x00, 0x00] = .ok (.req13To255Unassigned 0x21 0xFF 0 0 0) ∧
  decodeBytes [0x80, 0x06, 0x00, 0x02, 0x00, 0x00, 0x1C, 0x00] = .ok (.getDescriptorConfiguration 0x80 0x00 0 28) ∧
  decodeBytes [0x80, 0x06, 0x02, 0x03, 0x09, 0x04, 0xFF, 0x00] = .ok (.getDescriptorString2 0x80 0x0409 255) ∧
  decodeBytes [0x80, 0x06, 0x00, 0x06, 0x00, 0x00, 0x0A, 0x00] =
    .ok (.getDescriptorDeviceQualifier 0x80 0x00 0 10) ∧
  decodeTableWord 64 0x0040000022000681 = some (.getDescriptorHidReport 0x81 0x00 0 64)

/-- Packets that differ only in ignored fields run the same operation: only `request` selects; `value` counts for
GET_DESCRIPTOR and its low 7 bits for SET_ADDRESS; `length` counts for GET_DESCRIPTOR. That SET_ADDRESS with a value above 127
is admitted, and runs as its low 7 bits, is the model's choice (log 16, U7). -/
def Obligations.IgnoredFieldsDoNotMatter : Prop :=
  ∀ (k k' : SetupPacket) (s : State), k.request = k'.request →
    (k.request = 6 → k.value = k'.value ∧ k.length = k'.length) →
    (k.request = 5 → k.value.toNat % 128 = k'.value.toNat % 128) →
    exec (decode k) s = exec (decode k') s

/-- The fields of the three words the Transfer Engine writes, given by their hexadecimal form (30_encoding.md R95, R96). -/
def Obligations.EngineWordsHaveTheirFields : Prop :=
  ∀ p size : Nat, p < 2 → size < 65 →
    (let w := BitVec.ofNat 32 (0x8400 + 0x2000 * p + size)
     bcLength w = size ∧ bcAvailable w = true ∧ bcStall w = false ∧ bcPid w = decide (p = 1) ∧ bcFull w = true ∧
     bcReserved w = false) ∧
    (let w := BitVec.ofNat 32 (0x0400 + 0x2000 * p + size)
     bcLength w = size ∧ bcAvailable w = true ∧ bcStall w = false ∧ bcPid w = decide (p = 1) ∧ bcFull w = false ∧
     bcReserved w = false) ∧
    (let w := BitVec.ofNat 32 (0x8C00 + 0x2000 * p)
     bcLength w = 0 ∧ bcAvailable w = true ∧ bcStall w = true ∧ bcPid w = decide (p = 1) ∧ bcFull w = true ∧
     bcReserved w = false)

/-- The words and the data buffers lie at the offsets of the layout, aligned, inside the smallest window, and no two of them
overlap (20_memory.md R61 to R63). -/
def Obligations.WindowLayoutHasNoOverlap : Prop :=
  ∀ n m : Endpoint, ∀ d e : Dir,
    bcOff n .inn = 0x80 + 8 * n.val ∧ bcOff n .out = 0x84 + 8 * n.val ∧ bufOff n = 0x100 + 0x80 * n.val ∧
    bcOff n d % 4 = 0 ∧ Config.setupOff + 8 ≤ bcOff n d ∧ bcOff n d + 4 ≤ bufOff m ∧ bufOff n + 64 ≤ 0x900 ∧
    (¬ (n = m ∧ d = e) → bcOff n d + 4 ≤ bcOff m e ∨ bcOff m e + 4 ≤ bcOff n d) ∧
    (n ≠ m → bufOff n + 64 ≤ bufOff m ∨ bufOff m + 64 ≤ bufOff n)

/-! ### Reset (10_state.md R41, 70_reset_and_hazards.md R250, R254) -/

/-- The values the spec gives for power-on reset. -/
def Obligations.ResetHoldsTheSpecifiedValues : Prop :=
  let s := State.reset
  s.pendingAddress = 0 ∧ s.address = 0 ∧ s.seq = .idle ∧ s.resetCount = 0 ∧ s.ep0OutCount = 0 ∧ s.ep0InCount = 0 ∧
  s.traceIdx = 0 ∧ s.addr = 0 ∧ s.setupRec = false ∧ s.busReset = false ∧
  (∀ n : Endpoint, s.epIn[n] = false ∧ s.epOut[n] = false) ∧
  s.inteSetupReq = false ∧ s.inteBusReset = false ∧ s.inteBuffStatus = false ∧ s.stallArmEp0 = false ∧
  ∀ (n : Endpoint) (d : Dir), s.bc n d = 0

/-- The boot sequence, as four turns of the platform (log 1, 6) from any state, sets the three enables and the controller interrupt and
nothing else; from reset it leaves the launch state. -/
def Obligations.BootSequenceSetsOnlyTheEnables : Prop :=
  (∀ s : State, s.sched = [.boot .enableSetupReq, .boot .enableBusReset, .boot .enableBuffStatus, .boot .enableInterrupt] →
    runSteps 4 s = .next { s with
      inteSetupReq := true, inteBusReset := true, inteBuffStatus := true, irqEnabled := true, sched := [] }) ∧
  State.boot = { State.reset with
    inteSetupReq := true, inteBusReset := true, inteBuffStatus := true, irqEnabled := true }

/-- The reset state and the launch state are safe. That no byte is listed in the two memories then is the model's choice
(log 5). -/
def Obligations.ResetAndBootAreSafe : Prop := State.reset.Inv ∧ State.boot.Inv

/-! ### Event branches (40_event_adapter.md) -/

/-- EV_BUS_RESET, whole: flag, address register, both address fields, counter; nothing else (R126). -/
def Obligations.BusResetBranchClearsTheAddress : Prop :=
  ∀ s : State, exec .evBusReset s = .next { s with
    busReset := false, addr := 0, pendingAddress := 0, address := 0, resetCount := s.resetCount + 1 }

/-- A second bus-reset branch changes only the counter (R127). -/
def Obligations.SecondBusResetOnlyCounts : Prop :=
  ∀ s : State, ∃ t u, exec .evBusReset s = .next t ∧ exec .evBusReset t = .next u ∧ u.address = 0 ∧
    u.resetCount = s.resetCount + 2 ∧ u = { t with resetCount := t.resetCount + 1 }

/-- EV_EP0_OUT, whole: flag and counter; no word and no byte of the window (R128). -/
def Obligations.Ep0OutBranchOnlyCounts : Prop :=
  ∀ s : State, exec .evEp0Out s = .next { s with epOut := s.epOut.set 0 false, ep0OutCount := s.ep0OutCount + 1 }

/-- EV_EP0_IN, whole: flag, counter, the pending address applied if there is one, and BC[0][OUT] re-armed (R130). -/
def Obligations.Ep0InBranchAppliesThePendingAddress : Prop :=
  ∀ s : State, ∃ t, exec .evEp0In s = .next t ∧
    t = { s with
      epIn := s.epIn.set 0 false
      ep0InCount := s.ep0InCount + 1
      addr := if s.pendingAddress = 0 then s.addr else s.pendingAddress
      address := if s.pendingAddress = 0 then s.address else s.pendingAddress
      pendingAddress := 0
      win := t.win
      indicator := .ok } ∧
    t.bc 0 .out = 0x00002400 ∧ ∀ a, Outside (bcOff 0 .out) 4 a → t.winByte a = s.winByte a

/-- EV_SETUP: the flag cleared, the latch loaded with the 8 window bytes, the trace append, the dispatch of what was read
(R123 to R125). -/
def Obligations.SetupBranchReadsAppendsAndDispatches : Prop :=
  ∀ s : State, ∃ k u t, k.toBytes = Memory.readBytes s.win Config.setupOff 8 ∧
    exec .traceAppend { s with setupRec := false, pkt := k } = .next u ∧ exec (.dispatch k) u = .next t ∧
    exec .evSetup s = .next t

/-- What the SETUP branch may write: flag, latch, trace, pending address, arm bit, indicator, and in the window only
BC[0][IN] and the data buffer of endpoint 0. -/
def Obligations.SetupBranchFrame : Prop :=
  ∀ s : State, ∃ t, exec .evSetup s = .next t ∧
    t = { s with
      setupRec := false, pkt := t.pkt, trace := t.trace, traceIdx := t.traceIdx, pendingAddress := t.pendingAddress
      stallArmEp0 := t.stallArmEp0, win := t.win, indicator := t.indicator } ∧
    ∀ a, Outside (bcOff 0 .inn) 4 a → Outside (bufOff 0) 64 a → t.winByte a = s.winByte a

/-- The trace append: with room, at the index; full under `wrap`, at the start; else not at all (R124). -/
def Obligations.TraceAppendFollowsThePolicy : Prop :=
  ∀ s : State,
    (s.traceIdx < s.params.traceCap → ∃ t, exec .traceAppend s = .next t ∧
      t = { s with trace := t.trace, traceIdx := s.traceIdx + 1 } ∧
      ∀ a, Memory.read t.trace a =
        if 8 * s.traceIdx ≤ a ∧ a < 8 * s.traceIdx + 8 then s.pkt.toBytes.getD (a - 8 * s.traceIdx) 0
        else Memory.read s.trace a) ∧
    (s.params.traceCap ≤ s.traceIdx → s.params.tracePolicy = .wrap → 0 < s.params.traceCap →
      ∃ t, exec .traceAppend s = .next t ∧ t = { s with trace := t.trace, traceIdx := 1 } ∧
        ∀ a, Memory.read t.trace a = if a < 8 then s.pkt.toBytes.getD a 0 else Memory.read s.trace a) ∧
    (s.params.traceCap ≤ s.traceIdx → s.params.tracePolicy = .truncate ∨ s.params.traceCap = 0 →
      exec .traceAppend s = .next s)

/-! ### Requests (41_request_dispatcher.md) -/

/-- `dispatch` runs the one operation the packet decodes to, the same at the request level and to the end; it completes and
writes only what R125 names. -/
def Obligations.DispatchRunsOneOperation : Prop :=
  ∀ (k : SetupPacket) (s : State), ∃ t, exec (.dispatch k) s = .next t ∧ exec (decode k) s = .next t ∧
    exec (decodeRequest k) s = .next t ∧
    t = { s with
      pendingAddress := t.pendingAddress, stallArmEp0 := t.stallArmEp0, win := t.win, indicator := t.indicator } ∧
    (s.stallArmEp0 = true → t.stallArmEp0 = true) ∧
    ∀ a, Outside (bcOff 0 .inn) 4 a → Outside (bufOff 0) 64 a → t.winByte a = s.winByte a

/-- The request codes that no handler answers change nothing: only 5, 6 and 9 do anything (R142, R154, R157). -/
def Obligations.UnansweredRequestsChangeNothing : Prop :=
  ∀ (k : SetupPacket) (s : State), k.request ≠ 5 → k.request ≠ 6 → k.request ≠ 9 →
    exec (.dispatch k) s = .next s ∧ exec (decode k) s = .next s

/-- Each no-op handler and each empty entry completes and changes nothing (R142 to R146, R150 to R154), and so does a
descriptor type outside the catalog (42_descriptor_catalog.md R173). -/
def Obligations.NoOpOperationsLeaveTheState : Prop :=
  ∀ (t r d x : Byte) (v i l : Half) (s : State),
    exec (.getStatus t v i l) s = .next s ∧ exec (.clearFeature t v i l) s = .next s ∧
    exec (.req2Unassigned t v i l) s = .next s ∧ exec (.setFeature t v i l) s = .next s ∧
    exec (.req4Unassigned t v i l) s = .next s ∧ exec (.setDescriptor t v i l) s = .next s ∧
    exec (.getConfiguration t v i l) s = .next s ∧ exec (.getInterface t v i l) s = .next s ∧
    exec (.setInterface t v i l) s = .next s ∧ exec (.synchFrame t v i l) s = .next s ∧
    exec (.req13To255Unassigned t r v i l) s = .next s ∧ exec (.getDescriptorOther t d x i l) s = .next s

/-- SET_ADDRESS stores `value[6:0]` as pending and arms a zero-length status IN; the address register, the applied address and
the data buffer stay (R147). For a value above 127, which U7 lets a model refuse, this is the model's choice (log 16). -/
def Obligations.SetAddressDefersTheAddress : Prop :=
  ∀ (t : Byte) (v i l : Half) (s : State), ∃ u, exec (.setAddress t v i l) s = .next u ∧
    SendsIn 0 1 [] 0 { s with pendingAddress := BitVec.ofNat 7 (v.toNat % 128) } u

/-- SET_CONFIGURATION arms a zero-length status IN for every value, and changes nothing else (R148). -/
def Obligations.SetConfigurationAcknowledgesAnyValue : Prop :=
  ∀ (t : Byte) (v i l : Half) (s : State), ∃ u, exec (.setConfiguration t v i l) s = .next u ∧ SendsIn 0 1 [] 0 s u

/-! ### Descriptors (42_descriptor_catalog.md) -/

/-- GET_DESCRIPTOR is the catalog on the high and low byte of `value` and on `length` (R149), and it completes. -/
def Obligations.GetDescriptorIsTheCatalog : Prop :=
  ∀ (t : Byte) (v i l : Half) (s : State), ∃ u,
    exec (.getDescriptor t v i l) s = .next u ∧
    exec (.catalog (BitVec.ofNat 8 (v.toNat / 256)) (BitVec.ofNat 8 (v.toNat % 256)) l) s = .next u ∧
    exec (decode { requestType := t, request := 6, value := v, index := i, length := l }) s = .next u

/-- The catalog selects its case by the type, and for strings by the index (R160), and it completes. -/
def Obligations.CatalogSelectsByTypeAndIndex : Prop :=
  ∀ (t d x : Byte) (i l : Half) (s : State), ∃ u, exec (.catalog d x l) s = .next u ∧
    (d = 0x01 → exec (.getDescriptorDevice t x i l) s = .next u) ∧
    (d = 0x02 → exec (.getDescriptorConfiguration t x i l) s = .next u) ∧
    (d = 0x06 → exec (.getDescriptorDeviceQualifier t x i l) s = .next u) ∧
    (d = 0x03 → x = 0 → exec (.getDescriptorString0 t i l) s = .next u) ∧
    (d = 0x03 → x = 1 → exec (.getDescriptorString1 t i l) s = .next u) ∧
    (d = 0x03 → x = 2 → exec (.getDescriptorString2 t i l) s = .next u) ∧
    (d = 0x03 → x = 3 → exec (.getDescriptorString3 t i l) s = .next u) ∧
    (d = 0x03 → 4 ≤ x.toNat → exec (.getDescriptorStringOther t x i l) s = .next u) ∧
    (d = 0x22 → exec (.getDescriptorHidReport t x i l) s = .next u) ∧
    (d ∉ [0x01, 0x02, 0x03, 0x06, 0x22] → exec (.getDescriptorOther t d x i l) s = .next u)

/-- DEVICE and the four strings are sent in full, whatever length was asked for (R167, R170). -/
def Obligations.DeviceAndStringsAreSentInFull : Prop :=
  ∀ (t x : Byte) (i l : Half) (s : State),
    (∃ u, exec (.getDescriptorDevice t x i l) s = .next u ∧ SendsIn 0 1 (romBytes s.params .dev) 18 s u) ∧
    (∃ u, exec (.getDescriptorString0 t i l) s = .next u ∧ SendsIn 0 1 (romBytes s.params .str0) 4 s u) ∧
    (∃ u, exec (.getDescriptorString1 t i l) s = .next u ∧ SendsIn 0 1 (romBytes s.params .str1) 30 s u) ∧
    (∃ u, exec (.getDescriptorString2 t i l) s = .next u ∧ SendsIn 0 1 (romBytes s.params .str2) 36 s u) ∧
    (∃ u, exec (.getDescriptorString3 t i l) s = .next u ∧ SendsIn 0 1 (romBytes s.params .str3) 10 s u)

/-- CONFIGURATION is clipped to the requested length: the first `min(41, L)` bytes of the fixed table (R168, R174). -/
def Obligations.ConfigurationIsClipped : Prop :=
  ∀ (t x : Byte) (i l : Half) (s : State), ∃ u, exec (.getDescriptorConfiguration t x i l) s = .next u ∧
    SendsIn 0 1 ((romBytes s.params .cfg).take (min 41 l.toNat)) (min 41 l.toNat) s u

/-- DEVICE_QUALIFIER and the string indices from 4 on are always answered with a stall (R169, R171). -/
def Obligations.QualifierAndOtherStringsStall : Prop :=
  ∀ (t x : Byte) (i l : Half) (s : State),
    (∃ u, exec (.getDescriptorDeviceQualifier t x i l) s = .next u ∧ StallsIn 0 1 s u) ∧
    (∃ u, exec (.getDescriptorStringOther t x i l) s = .next u ∧ StallsIn 0 1 s u)

/-- HID_REPORT: clipped and sent where it fits one packet; refused with nothing armed from 65 bytes on; nothing where the
configuration declares no HID interface (R172, R175). That the declaration is a parameter is the model's choice (log 3). -/
def Obligations.HidReportIsClippedOrRefused : Prop :=
  ∀ (t x : Byte) (i l : Half) (s : State),
    (s.params.hasHid = true → min (hidReportLen s.params) l.toNat < 65 →
      ∃ u, exec (.getDescriptorHidReport t x i l) s = .next u ∧
        SendsIn 0 1 ((romBytes s.params .hidr).take (min (hidReportLen s.params) l.toNat))
          (min (hidReportLen s.params) l.toNat) s u) ∧
    (s.params.hasHid = true → 65 ≤ min (hidReportLen s.params) l.toNat →
      exec (.getDescriptorHidReport t x i l) s = .next { s with indicator := .fail }) ∧
    (s.params.hasHid = false → exec (.getDescriptorHidReport t x i l) s = .next s)

/-- Lengths and fixed bytes of the seven sequences of the ROM, for every choice of the open bytes (R161 to R166). That a
HID_REPORT_LEN above 65535 is admitted, and its field in CFG holds it modulo 65536, is the model's choice (log 3). -/
def Obligations.RomHoldsTheFixedBytes : Prop :=
  ∀ p : Params,
    (∀ q, (romBytes p q).length = declaredLen p q) ∧ 1 ≤ hidReportLen p ∧
    (romBytes p .dev).take 5 = [0x12, 0x01, 0x00, 0x02, 0x00] ∧ (romBytes p .dev).getD 7 0 = 0x40 ∧
    (romBytes p .dev).drop 14 = [1, 2, 3, 1] ∧
    ((romBytes p .dev).getD 8 0).toNat + 256 * ((romBytes p .dev).getD 9 0).toNat = p.device.vid.toNat ∧
    ((romBytes p .dev).getD 10 0).toNat + 256 * ((romBytes p .dev).getD 11 0).toNat = p.device.pidId.toNat ∧
    (romBytes p .cfg).take 4 = [0x09, 0x02, 0x29, 0x00] ∧ (romBytes p .cfg).getD 9 0 = 0x09 ∧
    (romBytes p .cfg).getD 10 0 = 0x04 ∧ (romBytes p .cfg).getD 14 0 = 0x03 ∧ (romBytes p .cfg).getD 18 0 = 0x09 ∧
    (romBytes p .cfg).getD 19 0 = 0x21 ∧ (romBytes p .cfg).getD 24 0 = 0x22 ∧
    ((romBytes p .cfg).getD 25 0).toNat + 256 * ((romBytes p .cfg).getD 26 0).toNat = hidReportLen p % 65536 ∧
    (romBytes p .cfg).getD 27 0 = 0x07 ∧ (romBytes p .cfg).getD 28 0 = 0x05 ∧
    (romBytes p .cfg).getD 34 0 = 0x07 ∧ (romBytes p .cfg).getD 35 0 = 0x05 ∧
    romBytes p .str0 = [0x04, 0x03, 0x09, 0x04] ∧
    (romBytes p .str1).take 2 = [0x1E, 0x03] ∧ (romBytes p .str2).take 2 = [0x24, 0x03] ∧
    (romBytes p .str3).take 2 = [0x0A, 0x03]

/-! ### Transfer Engine (43_transfer_engine.md) -/

/-- A call with an argument out of range returns FAIL and changes nothing else (R181, R227). -/
def Obligations.RefusedArgumentsChangeNothing : Prop :=
  ∀ (n p size : Nat) (b : Option RomSeq) (s : State),
    ((16 ≤ n ∨ 2 ≤ p ∨ 65 ≤ size) →
      exec (.sendToHost n p b size) s = .next { s with indicator := .fail } ∧
      exec (.prepareOutBuffer n p size) s = .next { s with indicator := .fail }) ∧
    ((16 ≤ n ∨ 2 ≤ p) → exec (.sendStall n p) s = .next { s with indicator := .fail })

/-- `sendToHost` with valid arguments: `null` copies nothing; else `size` bytes of the sequence, then the word (R182). R182 (f)
leaves it to the caller that `size` is at most the declared length: that a call beyond it completes, with any bytes there, is the
model's choice (log 10). -/
def Obligations.SendToHostCopiesAndArms : Prop :=
  ∀ (n p size : Nat) (s : State), n < 16 → p < 2 → size < 65 →
    (∃ t, exec (.sendToHost n p none size) s = .next t ∧ SendsIn n p [] size s t) ∧
    ∀ q : RomSeq, ∃ t bytes, exec (.sendToHost n p (some q) size) s = .next t ∧ SendsIn n p bytes size s t ∧
      bytes.length = size ∧ bytes.take (declaredLen s.params q) = (romBytes s.params q).take size

/-- `prepareOutBuffer` with valid arguments writes only `BC[endpoint][OUT]`, with `full = 0` (R184). -/
def Obligations.PrepareOutBufferArmsTheOutWord : Prop :=
  ∀ (n p size : Nat) (s : State), n < 16 → p < 2 → size < 65 →
    ∃ t, exec (.prepareOutBuffer n p size) s = .next t ∧ ArmsOut n p size s t

/-- `sendStall` with valid arguments writes `BC[endpoint][IN]`, and the arm bit only for endpoint 0 (R186). -/
def Obligations.SendStallArmsOnlyEndpointZero : Prop :=
  ∀ (n p : Nat) (s : State), n < 16 → p < 2 → ∃ t, exec (.sendStall n p) s = .next t ∧ StallsIn n p s t

/-- The pseudo-operations are their fixed calls (30_encoding.md R103), and they complete. -/
def Obligations.PseudoOperationsAreFixedCalls : Prop :=
  ∀ (q : RomSeq) (size : Nat) (s : State),
    exec .armStatusIn s = exec (.sendToHost 0 1 none 0) s ∧ exec .rearmOut s = exec (.prepareOutBuffer 0 1 0) s ∧
    exec (.sendDescriptor q size) s = exec (.sendToHost 0 1 (some q) size) s ∧
    exec .stallEp0 s = exec (.sendStall 0 1) s ∧
    (∃ t, exec .armStatusIn s = .next t ∧ SendsIn 0 1 [] 0 s t) ∧
    (∃ t, exec .rearmOut s = .next t ∧ ArmsOut 0 1 0 s t) ∧
    (∃ t, exec .stallEp0 s = .next t ∧ StallsIn 0 1 s t) ∧
    (size < 65 → size ≤ declaredLen s.params q →
      ∃ t, exec (.sendDescriptor q size) s = .next t ∧ SendsIn 0 1 ((romBytes s.params q).take size) size s t) ∧
    (65 ≤ size → exec (.sendDescriptor q size) s = .next { s with indicator := .fail })

/-- Data before control: after any part of the micro-steps of `sendToHost` that is not all of them, every buffer-control word is
still the old one; after all, the data bytes of every earlier micro-step lie in the buffer and the new word stands (R183,
20_memory.md R68, R73). -/
def Obligations.SendToHostStoresItsWordLast : Prop :=
  ∀ (n p size : Nat) (b : Option RomSeq) (s : State) (front back : List Micro), n < 16 → p < 2 → size < 65 →
    front ++ back = sendToHostMicros s.params n p b size →
    ∃ t, runMicros front s = .next t ∧
      (back ≠ [] → ∀ (m : Endpoint) (d : Dir), t.bc m d = s.bc m d) ∧
      (back.length ≤ 1 → ∀ i, i < (sourceBytes s.params b size).length →
        t.winByte (bufOff n + i) = (sourceBytes s.params b size).getD i 0) ∧
      (back = [] → t.bc n .inn = BitVec.ofNat 32 (0x8400 + 0x2000 * p + size))

/-! ### Moves of the SIE (44_sie_environment.md) -/

/-- ENV_SETUP: the 8 bytes, the flag, the arm bit cleared; every other byte of the window stays (R201). -/
def Obligations.SetupArrivalWritesThePacket : Prop :=
  ∀ (bytes : Vector Byte 8) (s : State), ∃ t, exec (.envSetup bytes) s = .next t ∧
    t = { s with win := t.win, setupRec := true, stallArmEp0 := false } ∧
    Memory.readBytes t.win Config.setupOff 8 = bytes.toList ∧
    (∀ a, Outside Config.setupOff 8 a → t.winByte a = s.winByte a) ∧ ∀ (n : Endpoint) (d : Dir), t.bc n d = s.bc n d

/-- ENV_BUS_RESET sets its flag and nothing else (R202). -/
def Obligations.BusResetArrivalSetsOnlyTheFlag : Prop :=
  ∀ s : State, exec .envBusReset s = .next { s with busReset := true }

/-- ENV_NO_BUFFER is possible where no buffer is armed, and where endpoint 0 holds a stall word without the arm bit; nothing
changes but the record of the NAK (R203, R206 case b, read together in log 29). The record (log 8) and the refusal where neither
holds (log 11) are the model's choice. -/
def Obligations.NoBufferChangesNothing : Prop :=
  ∀ (n : Endpoint) (d : Dir) (s : State), bcReserved (s.bc n d) = false →
    (bcAvailable (s.bc n d) = false → exec (.envNoBuffer n d) s = .next { s with wire := .nak n d :: s.wire }) ∧
    (d = .inn → n = 0 → bcStall (s.bc n d) = true → s.stallArmEp0 = false →
      exec (.envNoBuffer n d) s = .next { s with wire := .nak n d :: s.wire }) ∧
    (bcAvailable (s.bc n d) = true → (d = .out ∨ n ≠ 0 ∨ bcStall (s.bc n d) = false ∨ s.stallArmEp0 = true) →
      exec (.envNoBuffer n d) s = .refused .moveNotEnabled)

/-- ENV_IN_DONE: the host receives `length` bytes of the data buffer with the word's PID; `available` becomes 0, `full` the
draw (log 9), the rest of the word stays, and the completion flag is set (R204). The record of the packet is the model's choice
(log 8), and so is that a length above 64 is taken literally (log 26); that R71, by which a model refuses an access outside the
window, holds for a packet that would leave it is an inference (log 13). -/
def Obligations.InDoneCompletesTheTransfer : Prop :=
  ∀ (n : Endpoint) (draw : Bool) (s : State), bcReserved (s.bc n .inn) = false → bcAvailable (s.bc n .inn) = true →
    bcStall (s.bc n .inn) = false → bcFull (s.bc n .inn) = true →
    ((bcLength (s.bc n .inn) = 0 ∨ bufOff n + bcLength (s.bc n .inn) ≤ windowSize s.params) →
      ∃ t, exec (.envInDone n draw) s = .next t ∧
        t = { s with
          win := t.win, epIn := s.epIn.set n.val true n.isLt
          wire := .data n (bcPid (s.bc n .inn)) (Memory.readBytes s.win (bufOff n) (bcLength (s.bc n .inn))) :: s.wire } ∧
        bcAvailable (t.bc n .inn) = false ∧ bcFull (t.bc n .inn) = draw ∧
        bcLength (t.bc n .inn) = bcLength (s.bc n .inn) ∧ bcPid (t.bc n .inn) = bcPid (s.bc n .inn) ∧
        bcStall (t.bc n .inn) = false ∧ bcReserved (t.bc n .inn) = false ∧
        ∀ a, Outside (bcOff n .inn) 4 a → t.winByte a = s.winByte a) ∧
    (bcLength (s.bc n .inn) ≠ 0 → windowSize s.params < bufOff n + bcLength (s.bc n .inn) →
      exec (.envInDone n draw) s = .refused (.outsideWindow (bufOff n)))

/-- ENV_OUT_DONE: the data into the buffer, `available` 0, `full` 1, `length` the received count, the completion flag set (R205).
The data PID counts only where the parameter OUT_PID_CHECK says `drop` (93 U12; log 17). That a length above 64 is taken literally
is the model's choice (log 26); that R71, by which a model refuses an access outside the window, holds for data that would leave
it is an inference (log 13). -/
def Obligations.OutDoneCompletesTheTransfer : Prop :=
  ∀ (n : Endpoint) (pid : Bool) (data : List Byte) (s : State), bcReserved (s.bc n .out) = false →
    bcAvailable (s.bc n .out) = true → bcStall (s.bc n .out) = false → data.length ≤ bcLength (s.bc n .out) →
    (s.params.outPidCheck = .ignore ∨ pid = bcPid (s.bc n .out)) →
    ((data = [] ∨ bufOff n + data.length ≤ windowSize s.params) →
      ∃ t, exec (.envOutDone n pid data) s = .next t ∧
        t = { s with win := t.win, epOut := s.epOut.set n.val true n.isLt } ∧
        bcAvailable (t.bc n .out) = false ∧ bcFull (t.bc n .out) = true ∧ bcLength (t.bc n .out) = data.length ∧
        bcPid (t.bc n .out) = bcPid (s.bc n .out) ∧ bcStall (t.bc n .out) = false ∧ bcReserved (t.bc n .out) = false ∧
        (∀ i, i < data.length → t.winByte (bufOff n + i) = data.getD i 0) ∧
        ∀ a, Outside (bcOff n .out) 4 a → Outside (bufOff n) data.length a → t.winByte a = s.winByte a) ∧
    (data ≠ [] → windowSize s.params < bufOff n + data.length →
      exec (.envOutDone n pid data) s = .refused (.outsideWindow (bufOff n)))

/-- ENV_STALL: a STALL handshake, no completion flag, `available` stays 1; for endpoint 0 the arm bit is needed and used up
(R206). The record of the handshake (log 8) and the refusal without the arm bit, where R206 (b) only says that no move is
possible (log 11), are the model's choice. -/
def Obligations.StallAnswerUsesTheArmBit : Prop :=
  ∀ (n : Endpoint) (s : State), bcReserved (s.bc n .inn) = false → bcAvailable (s.bc n .inn) = true →
    bcStall (s.bc n .inn) = true →
    (n = 0 → s.stallArmEp0 = true →
      exec (.envStall n) s = .next { s with stallArmEp0 := false, wire := .stall n :: s.wire }) ∧
    (n ≠ 0 → exec (.envStall n) s = .next { s with wire := .stall n :: s.wire }) ∧
    (n = 0 → s.stallArmEp0 = false → exec (.envStall n) s = .refused .moveNotEnabled)

/-- A token move on a word with a reserved field set is refused (log 12), and so are ENV_IN_DONE and ENV_OUT_DONE where their guard
is false and ENV_STALL on a word that holds no armed stall (log 11). That such a move, which is not possible, is refused is the
model's choice. R205 has no test of the data PID: that a wrong one makes the guard false where the parameter OUT_PID_CHECK says
`drop` is 93 U12 (log 17). ENV_NO_BUFFER where a buffer is armed is in NoBufferChangesNothing, ENV_STALL on endpoint 0 without the
arm bit in StallAnswerUsesTheArmBit. -/
def Obligations.DisabledMovesAreRefused : Prop :=
  ∀ (n : Endpoint) (d : Dir) (b : Bool) (data : List Byte) (s : State),
    (bcReserved (s.bc n d) = true → exec (.envNoBuffer n d) s = .refused .reservedFieldSet) ∧
    (bcReserved (s.bc n .inn) = true → exec (.envInDone n b) s = .refused .reservedFieldSet ∧
      exec (.envStall n) s = .refused .reservedFieldSet) ∧
    (bcReserved (s.bc n .out) = true → exec (.envOutDone n b data) s = .refused .reservedFieldSet) ∧
    (bcReserved (s.bc n .inn) = false →
      (bcAvailable (s.bc n .inn) = false ∨ bcStall (s.bc n .inn) = true ∨ bcFull (s.bc n .inn) = false) →
      exec (.envInDone n b) s = .refused .moveNotEnabled) ∧
    (bcReserved (s.bc n .out) = false →
      (bcAvailable (s.bc n .out) = false ∨ bcStall (s.bc n .out) = true ∨ bcLength (s.bc n .out) < data.length ∨
        (s.params.outPidCheck = .drop ∧ b ≠ bcPid (s.bc n .out))) →
      exec (.envOutDone n b data) s = .refused .moveNotEnabled) ∧
    (bcReserved (s.bc n .inn) = false → (bcAvailable (s.bc n .inn) = false ∨ bcStall (s.bc n .inn) = false) →
      exec (.envStall n) s = .refused .moveNotEnabled)

/-- No move without ownership: a move of the SIE changes no register of CTRL, no enable and not the address register; it clears
no flag, sets no `available`, and leaves alone every word with `available = 0` and every byte of the data buffer of an endpoint
whose OUT word has `available = 0`. In a safe state (R207). -/
def Obligations.SieMovesNeedOwnership : Prop :=
  ∀ (i : Instr) (s t : State), i.format = .env → s.wordsOk → exec i s = .next t →
    t = { s with
      win := t.win, setupRec := t.setupRec, busReset := t.busReset, epIn := t.epIn, epOut := t.epOut
      stallArmEp0 := t.stallArmEp0, wire := t.wire } ∧
    (s.setupRec = true → t.setupRec = true) ∧ (s.busReset = true → t.busReset = true) ∧
    (∀ n : Endpoint, (s.epIn[n] = true → t.epIn[n] = true) ∧ (s.epOut[n] = true → t.epOut[n] = true)) ∧
    (t.stallArmEp0 = true → s.stallArmEp0 = true) ∧
    (∀ (n : Endpoint) (d : Dir), bcAvailable (s.bc n d) = false → t.bc n d = s.bc n d) ∧
    ∀ (n : Endpoint) (a : Nat), bufOff n ≤ a → a < bufOff n + 64 → bcAvailable (s.bc n .out) = false →
      t.winByte a = s.winByte a

/-! ### The machine (00_scope.md R15, 60_exceptions.md, 70_reset_and_hazards.md) -/

/-- A step at the dispatch runs the operation the latch decodes to and moves the sequencer on to B0; placing a table word puts
its operation there (log 22). That one step, with no turn to come, runs all the micro-steps of A4 is the model's choice
(log 2). -/
def Obligations.StepRunsTheDecodedOperation : Prop :=
  (∀ s : State, s.sched = [] → s.seq = .phase .a4 → ∃ t, exec (decode s.pkt) s = .next t ∧
    step s = .next { t with seq := .phase .b0 }) ∧
  ∀ (s : State) (nbits w : Nat) (i : Instr), decodeTableWord nbits w = some i →
    ∃ t, exec i (s.withFetchWord nbits w) = .next t ∧
      step (s.withFetchWord nbits w) = .next { t with seq := .phase .b0 }

/-- A turn of the SIE runs its move on the state without that turn, if its token is for the current address or it needs none; a
token for another address causes no move (R200). An operation that is no move is refused (log 31). -/
def Obligations.StepRunsTheScheduledMove : Prop :=
  ∀ (s : State) (a : DevAddr) (i : Instr) (rest : List Turn), s.sched = .sie a i :: rest →
    (i.format = .env → (i = .envBusReset ∨ a = s.addr) → step s = exec i { s with sched := rest }) ∧
    (i.format = .env → i ≠ .envBusReset → a ≠ s.addr → step s = .next { s with sched := rest }) ∧
    (i.format ≠ .env → step s = .refused .notAnSieMove)

/-- An entry starts exactly on its condition, and starting it changes only the sequencer; without the condition the block waits
(60_exceptions.md R222, R228). With no turn to come and on a turn of CTRL, which is then used up (log 1). -/
def Obligations.EntryStartsExactlyOnItsCondition : Prop :=
  ∀ (s : State) (rest : List Turn), s.seq = .idle → (s.sched = [] ∧ rest = [] ∨ s.sched = .ctrl :: rest) →
    (s.irqEnabled = true ∧
      ((s.setupRec = true ∧ s.inteSetupReq = true) ∨ (s.busReset = true ∧ s.inteBusReset = true) ∨
        ((∃ n : Endpoint, s.epIn[n] = true ∨ s.epOut[n] = true) ∧ s.inteBuffStatus = true)) →
      step s = .next { s with seq := .phase .a0, sched := rest }) ∧
    (¬ (s.irqEnabled = true ∧
      ((s.setupRec = true ∧ s.inteSetupReq = true) ∨ (s.busReset = true ∧ s.inteBusReset = true) ∨
        ((∃ n : Endpoint, s.epIn[n] = true ∨ s.epOut[n] = true) ∧ s.inteBuffStatus = true))) →
      step s = .next { s with sched := rest })

/-- The phases follow each other in the fixed order; a branch whose flag reads 0 is skipped, under either way of sampling
(40_event_adapter.md R121, R122). R122 lists four bits of the snapshot: that `buffStatus` is sampled too, and that under
`perBranch` the snapshot stays as it is, is the model's choice (log 19). So is that one step, with no turn to come, is a whole
phase, of which A2, A4 and E5 have several micro-steps (log 2). -/
def Obligations.PhasesFollowTheFixedOrder : Prop :=
  ∀ (s t : State) (p : Phase), s.sched = [] → s.seq = .phase p → step s = .next t →
    (s.params.flagSampling = .atEntry → p = .a0 →
      t.snap = { setup := s.setupRec && s.inteSetupReq, busReset := s.busReset && s.inteBusReset
                 buffStatus := s.intsBuffStatus, ep0Out := s.epOut[0], ep0In := s.epIn[0] }) ∧
    (s.params.flagSampling = .perBranch ∨ p ≠ .a0 → t.snap = s.snap) ∧
    (p = .a0 → t.seq = .phase (if (s.setupRec && s.inteSetupReq) = true then .a1 else .b0)) ∧
    (p = .b0 → t.seq = .phase
      (if (match s.params.flagSampling with
           | .atEntry => s.snap.busReset
           | .perBranch => s.busReset && s.inteBusReset) = true then .b1 else .c0)) ∧
    (p = .c0 → t.seq = .phase
      (if (match s.params.flagSampling with
           | .atEntry => s.snap.ep0Out
           | .perBranch => s.epOut[0]) = true then .c1 else .e0)) ∧
    (p = .e0 → t.seq = .phase
      (if (match s.params.flagSampling with
           | .atEntry => s.snap.ep0In
           | .perBranch => s.epIn[0]) = true then .e1 else .x)) ∧
    (p = .x → t = { s with seq := .idle }) ∧
    (∀ q, (p, q) ∈ [(Phase.a1, Phase.a2), (.a2, .a3), (.a3, .a4), (.a4, .b0), (.b1, .b2), (.b2, .b3), (.b3, .b4),
        (.b4, .c0), (.c1, .c2), (.c2, .e0), (.e1, .e2), (.e2, .e3), (.e3, .e4), (.e4, .e5), (.e5, .x)] →
      t.seq = .phase q)

/-- The whole-phase step, a choice of the model (log 2), is the composition of the micro-steps: with as many turns of CTRL as the
phase has micro-steps (one, if it has none), whatever turns come after them, the machine reaches the state the whole-phase step
gives, with those turns still to come. -/
def Obligations.MicroStepsComposeToThePhase : Prop :=
  ∀ (s : State) (p : Phase) (rest : List Turn), s.seq = .phase p →
    ∃ t, step { s with sched := [] } = .next t ∧ t.sched = [] ∧
      runSteps (max 1 (phaseMicros p s).length)
        { s with sched := List.replicate (max 1 (phaseMicros p s).length) .ctrl ++ rest } = .next { t with sched := rest }

/-- Every step, of whichever agent, keeps the invariant of a safe run. -/
def Obligations.EveryStepKeepsTheInvariant : Prop :=
  ∀ s t : State, s.Inv → step s = .next t → t.Inv

/-- The block never stops: in a safe state a step that is not the SIE's answers a next state (00_scope.md R13, 60_exceptions.md
R220). -/
def Obligations.BlockNeverStops : Prop :=
  ∀ s : State, s.Inv → s.sieWaits → ∃ t, step s = .next t

/-- A started entry reaches IDLE: with no move in between, in at most 20 steps (60_exceptions.md R223). A step is then a whole
phase, or the rest of one, which is the model's choice (log 2): the number counts those, not micro-steps. -/
def Obligations.EveryEntryEnds : Prop :=
  ∀ s : State, s.Inv → s.sched = [] → ∃ k t, k ≤ 20 ∧ runSteps k s = .next t ∧ t.seq = .idle

/-- The address register changes only at B2, to 0, and at E3, to the pending address that is not 0 (R131). In a safe state,
whichever agent moves. -/
def Obligations.AddressChangesOnlyAtItsPhases : Prop :=
  ∀ s t : State, s.Inv → step s = .next t → t.addr ≠ s.addr →
    (s.seq = .phase .b2 ∧ t.addr = 0) ∨
    (s.seq = .phase .e3 ∧ s.pendingAddress ≠ 0 ∧ t.addr = s.pendingAddress)

/-- A bus reset in the same entry drops the pending address: from B1 on, with no move in between, the entry reaches X with
address 0 and nothing pending (R132). The steps are whole phases (log 2). -/
def Obligations.ResetInTheSameEntryDropsThePendingAddress : Prop :=
  ∀ s : State, s.sched = [] → s.seq = .phase .b1 →
    ∃ k t, runSteps k s = .next t ∧ t.seq = .phase .x ∧ t.addr = 0 ∧ t.address = 0 ∧ t.pendingAddress = 0

/-- The early-address hazard: a SET_ADDRESS dispatched in an entry that also serves a stale IN completion is applied before its
status stage, which is still armed (70_reset_and_hazards.md R258). For a value above 127, which U7 lets a model refuse, that its low
7 bits are applied is the model's choice (log 16); the steps are whole phases (log 2). -/
def Obligations.StaleCompletionAppliesTheAddressEarly : Prop :=
  ∀ s : State, s.sched = [] → s.seq = .phase .a4 → s.pkt.request = 5 → s.pkt.value.toNat % 128 ≠ 0 →
    s.busReset = false → s.snap.busReset = false → s.epIn[0] = true → s.snap.ep0In = true →
    ∃ k t, runSteps k s = .next t ∧ t.seq = .phase .x ∧ t.addr.toNat = s.pkt.value.toNat % 128 ∧
      bcAvailable (t.bc 0 .inn) = true ∧ t.pendingAddress = 0

/-- A completion flag of an endpoint 1 to 15 is served by no branch: the entry runs, changes at most the snapshot, and the block
is at IDLE again with the entry condition still holding (R129, 70_reset_and_hazards.md R262). -/
def Obligations.UnservedFlagsReenterWithoutEnd : Prop :=
  ∀ s : State, s.seq = .idle → s.sched = [] → s.irqEnabled = true → s.inteBuffStatus = true → s.setupRec = false →
    s.busReset = false → s.epIn[0] = false → s.epOut[0] = false →
    (∃ n : Endpoint, s.epIn[n] = true ∨ s.epOut[n] = true) →
    ∃ t, runSteps 6 s = .next t ∧ t = { s with snap := t.snap } ∧ t.entryCondition = true

/-- No step changes a parameter; the enables change only by a write of the boot sequence (10_state.md R34, R40). -/
def Obligations.OnlyTheBootSequenceWritesTheEnables : Prop :=
  ∀ s t : State, step s = .next t → t.params = s.params ∧
    ((∀ w rest, s.sched ≠ .boot w :: rest) → t.inteSetupReq = s.inteSetupReq ∧ t.inteBusReset = s.inteBusReset ∧
      t.inteBuffStatus = s.inteBuffStatus ∧ t.irqEnabled = s.irqEnabled)

/-- Each counter changes only in its phase, by 1 modulo 2^32, whichever agent moves (10_state.md R26). In a safe state. -/
def Obligations.CountersChangeOnlyInTheirPhase : Prop :=
  ∀ s t : State, s.Inv → step s = .next t →
    (t.resetCount ≠ s.resetCount → s.seq = .phase .b4 ∧ t.resetCount.toNat = (s.resetCount.toNat + 1) % 2 ^ 32) ∧
    (t.ep0OutCount ≠ s.ep0OutCount → s.seq = .phase .c2 ∧ t.ep0OutCount.toNat = (s.ep0OutCount.toNat + 1) % 2 ^ 32) ∧
    (t.ep0InCount ≠ s.ep0InCount → s.seq = .phase .e2 ∧ t.ep0InCount.toNat = (s.ep0InCount.toNat + 1) % 2 ^ 32)

/-- The block never touches endpoints 1 to 15: a step that is not the SIE's changes no word, no data buffer and no completion flag
of theirs, and no packet byte (00_scope.md R2, 43_transfer_engine.md R189). Of endpoint 0 it changes the IN word and the data
buffer only at A4, in the SETUP branch, and the OUT word only at E5, in the EP0-IN branch (R188, 40_event_adapter.md R128). In a
safe state. -/
def Obligations.BlockLeavesOtherEndpointsAlone : Prop :=
  ∀ s t : State, s.Inv → s.sieWaits → step s = .next t →
    (∀ (n : Endpoint) (d : Dir), n ≠ 0 → t.bc n d = s.bc n d ∧ t.epIn[n] = s.epIn[n] ∧ t.epOut[n] = s.epOut[n]) ∧
    (∀ a, Outside (bcOff 0 .inn) 8 a → Outside (bufOff 0) 64 a → t.winByte a = s.winByte a) ∧
    (t.bc 0 .inn ≠ s.bc 0 .inn → s.seq = .phase .a4 ∨ ∃ left, s.seq = .inside .a4 left) ∧
    ((∃ i, i < 64 ∧ t.winByte (bufOff 0 + i) ≠ s.winByte (bufOff 0 + i)) →
      s.seq = .phase .a4 ∨ ∃ left, s.seq = .inside .a4 left) ∧
    (t.bc 0 .out ≠ s.bc 0 .out → s.seq = .phase .e5 ∨ ∃ left, s.seq = .inside .e5 left)

/-- The torn read: a SETUP packet that arrives between two of the byte loads, whichever two, leaves a latch with the first bytes of
the old packet and the last bytes of the new one, and the flag set again (70_reset_and_hazards.md R263). -/
def Obligations.SetupReadCanBeTorn : Prop :=
  ∀ (s : State) (bytes : Vector Byte 8) (i : Nat) (rest : List Turn), 1 ≤ i → i ≤ 7 → s.seq = .phase .a2 →
    s.sched = List.replicate i .ctrl ++ .sie s.addr (.envSetup bytes) :: (List.replicate (8 - i) .ctrl ++ rest) →
    ∃ t, runSteps 9 s = .next t ∧ t.seq = .phase .a3 ∧ t.setupRec = true ∧ t.sched = rest ∧
      t.pkt.toBytes = Memory.readBytes s.win Config.setupOff i ++ bytes.toList.drop i

/-- The sequencer runs the event rows: from the first phase of a branch, with no move in between, it reaches the state `exec` of the
branch's row gives, but for `S.seq`, which stands after the branch (40_event_adapter.md R121, R123 to R126, R128, R130); that the
row is its phases in one is the model's choice (log 33), and so is that a step is a whole phase (log 2). The first step of a branch
clears its flag and does nothing else, on a turn of CTRL too (20_memory.md R74). -/
def Obligations.SequencerRunsTheEventRows : Prop :=
  ∀ s : State,
    (s.sched = [] →
      (s.seq = .phase .a1 → ∃ t, exec .evSetup s = .next t ∧ runSteps 4 s = .next { t with seq := .phase .b0 }) ∧
      (s.seq = .phase .a3 → ∃ t, exec .traceAppend s = .next t ∧ step s = .next { t with seq := .phase .a4 }) ∧
      (s.seq = .phase .b1 → ∃ t, exec .evBusReset s = .next t ∧ runSteps 4 s = .next { t with seq := .phase .c0 }) ∧
      (s.seq = .phase .c1 → ∃ t, exec .evEp0Out s = .next t ∧ runSteps 2 s = .next { t with seq := .phase .e0 }) ∧
      (s.seq = .phase .e1 → ∃ t, exec .evEp0In s = .next t ∧ runSteps 5 s = .next { t with seq := .phase .x })) ∧
    ∀ rest, (s.sched = [] ∧ rest = [] ∨ s.sched = .ctrl :: rest) →
      (s.seq = .phase .a1 → step s = .next { s with setupRec := false, seq := .phase .a2, sched := rest }) ∧
      (s.seq = .phase .b1 → step s = .next { s with busReset := false, seq := .phase .b2, sched := rest }) ∧
      (s.seq = .phase .c1 → step s = .next { s with epOut := s.epOut.set 0 false, seq := .phase .c2, sched := rest }) ∧
      (s.seq = .phase .e1 → step s = .next { s with epIn := s.epIn.set 0 false, seq := .phase .e2, sched := rest })
end

