-- ==== Sys2Proof/Laws/Decode.lean ====
section
/-! SUPPORT. The packet format: the two byte halves of a 16-bit field, and a packet as 64 bits and as 8 bytes. -/

namespace Sys2Proof

@[simp] theorem lowByte_le16 (b0 b1 : Byte) : lowByte (le16 b0 b1) = b0 := by
  apply BitVec.eq_of_getLsbD_eq
  intro i hi
  simp only [lowByte, le16, BitVec.getLsbD_extractLsb', BitVec.getLsbD_append]
  simp [hi]

@[simp] theorem highByte_le16 (b0 b1 : Byte) : highByte (le16 b0 b1) = b1 := by
  apply BitVec.eq_of_getLsbD_eq
  intro i hi
  simp only [highByte, le16, BitVec.getLsbD_extractLsb', BitVec.getLsbD_append]
  simp [hi]

@[simp] theorem le16_lowByte_highByte (h : Half) : le16 (lowByte h) (highByte h) = h := by
  apply BitVec.eq_of_getLsbD_eq
  intro i hi
  simp only [lowByte, highByte, le16, BitVec.getLsbD_append, BitVec.getLsbD_extractLsb']
  by_cases low : i < 8
  · simp [low]
  · simp [low, show i - 8 < 8 by omega, show 8 + (i - 8) = i by omega]

theorem toNat_lowByte (h : Half) : (lowByte h).toNat = h.toNat % 256 := by
  simp [lowByte, BitVec.extractLsb'_toNat]

theorem toNat_highByte (h : Half) : (highByte h).toNat = h.toNat / 256 := by
  have := h.isLt
  simp [highByte, BitVec.extractLsb'_toNat, Nat.shiftRight_eq_div_pow]
  omega

theorem toNat_le16 (b0 b1 : Byte) : (le16 b0 b1).toNat = b0.toNat + 256 * b1.toNat := by
  have low := toNat_lowByte (le16 b0 b1)
  have high := toNat_highByte (le16 b0 b1)
  rw [lowByte_le16] at low
  rw [highByte_le16] at high
  omega

/-- A packet is its 64 bits (30_encoding.md R90). -/
@[simp] theorem SetupPacket.toBits_ofBits (p : BitVec 64) : (SetupPacket.ofBits p).toBits = p := by
  apply BitVec.eq_of_getLsbD_eq
  intro i hi
  simp only [SetupPacket.toBits, SetupPacket.ofBits, BitVec.getLsbD_append, BitVec.getLsbD_extractLsb']
  by_cases h0 : i < 8
  · simp [h0]
  by_cases h1 : i < 16
  · simp [h0, show i - 8 < 8 by omega, show 8 + (i - 8) = i by omega]
  by_cases h2 : i < 32
  · simp [h0, show ¬ i - 8 < 8 by omega, show i - 8 - 8 < 16 by omega, show 16 + (i - 8 - 8) = i by omega]
  by_cases h3 : i < 48
  · simp [h0, show ¬ i - 8 < 8 by omega, show ¬ i - 8 - 8 < 16 by omega, show i - 8 - 8 - 16 < 16 by omega,
      show 32 + (i - 8 - 8 - 16) = i by omega]
  · simp [h0, show ¬ i - 8 < 8 by omega, show ¬ i - 8 - 8 < 16 by omega, show ¬ i - 8 - 8 - 16 < 16 by omega,
      show i - 8 - 8 - 16 - 16 < 16 by omega, show 48 + (i - 8 - 8 - 16 - 16) = i by omega]

@[simp] theorem SetupPacket.ofBits_toBits (k : SetupPacket) : SetupPacket.ofBits k.toBits = k := by
  obtain ⟨t, r, v, x, l⟩ := k
  simp only [SetupPacket.ofBits, SetupPacket.toBits, SetupPacket.mk.injEq]
  refine ⟨?_, ?_, ?_, ?_, ?_⟩ <;> apply BitVec.eq_of_getLsbD_eq <;> intro i hi <;>
    simp only [BitVec.getLsbD_extractLsb', BitVec.getLsbD_append, hi, decide_true, Bool.true_and, Nat.zero_add,
      if_true]
  · simp [show ¬ 8 + i < 8 by omega, show 8 + i - 8 = i by omega, hi]
  · simp [show ¬ 16 + i < 8 by omega, show ¬ 16 + i - 8 < 8 by omega, show 16 + i - 8 - 8 = i by omega, hi]
  · simp [show ¬ 32 + i < 8 by omega, show ¬ 32 + i - 8 < 8 by omega, show ¬ 32 + i - 8 - 8 < 16 by omega,
      show 32 + i - 8 - 8 - 16 = i by omega, hi]
  · simp [show ¬ 48 + i < 8 by omega, show ¬ 48 + i - 8 < 8 by omega, show ¬ 48 + i - 8 - 8 < 16 by omega,
      show ¬ 48 + i - 8 - 8 - 16 < 16 by omega, show 48 + i - 8 - 8 - 16 - 16 = i by omega, hi]

@[simp] theorem SetupPacket.toBytes_ofBytes (b0 b1 b2 b3 b4 b5 b6 b7 : Byte) :
    (SetupPacket.ofBytes b0 b1 b2 b3 b4 b5 b6 b7).toBytes = [b0, b1, b2, b3, b4, b5, b6, b7] := by
  simp [SetupPacket.ofBytes, SetupPacket.toBytes]

@[simp] theorem SetupPacket.length_toBytes (k : SetupPacket) : k.toBytes.length = 8 := rfl

/-- The eight byte loads of phase A2, whatever the latch held (40_event_adapter.md R123). -/
theorem SetupPacket.setByte_all (k : SetupPacket) (b0 b1 b2 b3 b4 b5 b6 b7 : Byte) :
    (((((((k.setByte 0 b0).setByte 1 b1).setByte 2 b2).setByte 3 b3).setByte 4 b4).setByte 5 b5).setByte 6 b6).setByte 7
      b7 = SetupPacket.ofBytes b0 b1 b2 b3 b4 b5 b6 b7 := by
  simp [SetupPacket.setByte, SetupPacket.ofBytes]

/-- Each level of the decoder loses no field: the packet of a decoded operation is the packet. -/
theorem encodePacket_decodeRequest (k : SetupPacket) : encodePacket (decodeRequest k) = some k := by
  obtain ⟨t, r, v, x, l⟩ := k
  have code {n : Nat} (h : r.toNat = n) : r = BitVec.ofNat 8 n := by rw [← h]; simp
  rw [decodeRequest]
  split <;> first | rfl | (rename_i h; rw [code h]; rfl)

theorem encodePacket_decodeString (t s : Byte) (i l : Half) :
    encodePacket (decodeString t s i l) = some (descriptorPacket t 0x03 s i l) := by
  have code {n : Nat} (h : s.toNat = n) : s = BitVec.ofNat 8 n := by rw [← h]; simp
  rw [decodeString]
  split <;> first | rfl | (rename_i h; rw [code h]; rfl)

theorem encodePacket_decodeDescriptor (t d s : Byte) (i l : Half) :
    encodePacket (decodeDescriptor t d s i l) = some (descriptorPacket t d s i l) := by
  have code {n : Nat} (h : d.toNat = n) : d = BitVec.ofNat 8 n := by rw [← h]; simp
  rw [decodeDescriptor]
  split <;> first
    | rfl
    | (rename_i h; rw [code h]; exact encodePacket_decodeString t s i l)
    | (rename_i h; rw [code h]; rfl)

theorem encodePacket_decode (k : SetupPacket) : encodePacket (decode k) = some k := by
  rw [decode]
  split
  · rename_i h
    have six : k.request = 6 := BitVec.eq_of_toNat_eq h
    rw [encodePacket_decodeDescriptor, descriptorPacket, le16_lowByte_highByte, ← six]
  · exact encodePacket_decodeRequest k

end Sys2Proof
end

