-- ==== Sys2Proof/Laws/Memory.lean ====
section
/-! SUPPORT. The laws of byte memories: a read after a write, what a write leaves alone, and the canonical form. -/

namespace Sys2Proof.Machine

@[simp] theorem Memory.read_nil (a : Nat) : Memory.read [] a = 0 := rfl

theorem Memory.read_insert (c : Host.Cell) (m : List Host.Cell) (a : Nat)
    (absent : c.1 = a → ∀ d ∈ m, d.1 ≠ a) :
    Memory.read (Memory.insert c m) a = if c.1 = a then c.2 else Memory.read m a := by
  induction m with
  | nil => rfl
  | cons d rest ih =>
    have tail : c.1 = a → ∀ d ∈ rest, d.1 ≠ a := fun h e he => absent h e (List.mem_cons_of_mem _ he)
    by_cases before : c.1 < d.1
    · simp [Memory.insert, before, Memory.read]
    · simp only [Memory.insert, before, if_false, Memory.read]
      by_cases at_c : c.1 = a
      · have other : d.1 ≠ a := absent at_c d List.mem_cons_self
        simp [other, ih tail, at_c]
      · by_cases at_d : d.1 = a
        · simp [at_d, at_c]
        · simp [at_d, ih tail, at_c]

theorem Memory.read_erase (a b : Nat) (m : List Host.Cell) :
    Memory.read (Memory.erase a m) b = if b = a then 0 else Memory.read m b := by
  induction m with
  | nil => simp [Memory.erase]
  | cons d rest ih =>
    by_cases at_a : d.1 = a
    · rw [Memory.erase, if_pos at_a, ih]
      by_cases h : b = a
      · rw [if_pos h, if_pos h]
      · rw [if_neg h, if_neg h, Memory.read, if_neg (fun e => h (e.symm.trans at_a))]
    · by_cases at_b : d.1 = b
      · have : ¬ b = a := fun e => at_a (at_b.trans e)
        simp [Memory.erase, Memory.read, at_b, this]
      · simp [Memory.erase, at_a, Memory.read, at_b, ih]

theorem Memory.absent_erase (a : Nat) (m : List Host.Cell) : ∀ d ∈ Memory.erase a m, d.1 ≠ a := by
  induction m with
  | nil => simp [Memory.erase]
  | cons e rest ih =>
    by_cases h : e.1 = a
    · simpa [Memory.erase, h] using ih
    · simpa [Memory.erase, h] using ih

/-- A read after a write: the written byte at its address, every other address as before. -/
theorem Memory.read_write (m : List Host.Cell) (a : Nat) (v : Byte) (b : Nat) :
    Memory.read (Memory.write m a v) b = if b = a then v else Memory.read m b := by
  by_cases dflt : v = Memory.unlisted
  · have : v = 0 := dflt
    simp [Memory.write, dflt, Memory.read_erase, Memory.unlisted]
  · rw [Memory.write, if_neg dflt, Memory.read_insert]
    · by_cases h : b = a
      · simp [h]
      · have : ¬ a = b := fun e => h e.symm
        simp [h, this, Memory.read_erase]
    · rintro rfl
      exact Memory.absent_erase _ _

@[simp] theorem Memory.read_write_same (m : List Host.Cell) (a : Nat) (v : Byte) :
    Memory.read (Memory.write m a v) a = v := by simp [Memory.read_write]

theorem Memory.read_write_other {m : List Host.Cell} {a b : Nat} (v : Byte) (h : b ≠ a) :
    Memory.read (Memory.write m a v) b = Memory.read m b := by simp [Memory.read_write, h]

/-- A write of several bytes: byte `b - a` of the list inside, every other address as before. -/
theorem Memory.read_writeBytes (bs : List Byte) (m : List Host.Cell) (a b : Nat) :
    Memory.read (Memory.writeBytes m a bs) b =
      if a ≤ b ∧ b < a + bs.length then bs.getD (b - a) 0 else Memory.read m b := by
  induction bs generalizing m a with
  | nil =>
    have : ¬ (a ≤ b ∧ b < a + ([] : List Byte).length) := by simp
    simp only [Memory.writeBytes, if_neg this]
  | cons x xs ih =>
    rw [Memory.writeBytes, ih, Memory.read_write]
    by_cases h : b = a
    · have no : ¬ (a + 1 ≤ b ∧ b < a + 1 + xs.length) := by omega
      have yes : a ≤ b ∧ b < a + (x :: xs).length := by simp; omega
      rw [if_neg no, if_pos yes, if_pos h]
      simp [h]
    · by_cases inside : a + 1 ≤ b ∧ b < a + 1 + xs.length
      · have yes : a ≤ b ∧ b < a + (x :: xs).length := by simp; omega
        have shift : b - a = (b - (a + 1)) + 1 := by omega
        rw [if_pos inside, if_pos yes, shift, List.getD_cons_succ]
      · have no : ¬ (a ≤ b ∧ b < a + (x :: xs).length) := by simp; omega
        rw [if_neg inside, if_neg no, if_neg h]

theorem Memory.read_writeBytes_outside {m : List Host.Cell} {a b : Nat} (bs : List Byte)
    (h : b < a ∨ a + bs.length ≤ b) : Memory.read (Memory.writeBytes m a bs) b = Memory.read m b := by
  rw [Memory.read_writeBytes, if_neg (by omega)]

theorem Memory.writeBytes_append (bs cs : List Byte) (m : List Host.Cell) (a : Nat) :
    Memory.writeBytes m a (bs ++ cs) = Memory.writeBytes (Memory.writeBytes m a bs) (a + bs.length) cs := by
  induction bs generalizing m a with
  | nil => rfl
  | cons b bs ih => simp [Memory.writeBytes, ih, Nat.add_assoc, Nat.add_comm 1]

theorem Memory.length_readBytes (m : List Host.Cell) (a n : Nat) : (Memory.readBytes m a n).length = n := by
  induction n generalizing a with
  | zero => rfl
  | succ n ih => simp [Memory.readBytes, ih]

theorem Memory.getD_readBytes {m : List Host.Cell} {n : Nat} (a i : Nat) (h : i < n) :
    (Memory.readBytes m a n).getD i 0 = Memory.read m (a + i) := by
  induction n generalizing a i with
  | zero => omega
  | succ n ih =>
    cases i with
    | zero => simp [Memory.readBytes]
    | succ i =>
      rw [Memory.readBytes, List.getD_cons_succ, ih (a + 1) i (by omega)]
      congr 1
      omega

theorem wordOfBytes_wordByte (w : Word) :
    wordOfBytes (wordByte w 0) (wordByte w 1) (wordByte w 2) (wordByte w 3) = w := by
  apply BitVec.eq_of_getLsbD_eq
  intro i hi
  simp only [wordOfBytes, wordByte, BitVec.getLsbD_append, BitVec.getLsbD_extractLsb']
  by_cases h0 : i < 8
  · simp [h0]
  · by_cases h1 : i < 16
    · simp [h0, show i - 8 < 8 by omega, show 8 + (i - 8) = i by omega]
    · by_cases h2 : i < 24
      · simp [h0, show ¬ (i - 8 < 8) by omega, show i - 8 - 8 < 8 by omega, show 16 + (i - 8 - 8) = i by omega]
      · simp [h0, show ¬ (i - 8 < 8) by omega, show ¬ (i - 8 - 8 < 8) by omega, show i - 8 - 8 - 8 < 8 by omega,
          show 24 + (i - 8 - 8 - 8) = i by omega]

/-- A word read where it was stored (20_memory.md R66 a, R68 a). -/
@[simp] theorem Memory.read32_write32 (m : List Host.Cell) (a : Nat) (w : Word) :
    Memory.read32 (Memory.write32 m a w) a = w := by
  conv_rhs => rw [← wordOfBytes_wordByte w]
  simp [Memory.read32, Memory.write32, Memory.read_writeBytes]

theorem Memory.read_write32_outside {m : List Host.Cell} {a b : Nat} (w : Word) (h : b < a ∨ a + 4 ≤ b) :
    Memory.read (Memory.write32 m a w) b = Memory.read m b :=
  Memory.read_writeBytes_outside _ (by simpa using h)

/-- A word is unchanged when its four bytes are. -/
theorem Memory.read32_congr {m m' : List Host.Cell} {a : Nat}
    (h : ∀ b, a ≤ b → b < a + 4 → Memory.read m' b = Memory.read m b) : Memory.read32 m' a = Memory.read32 m a := by
  simp only [Memory.read32]
  rw [h a (by omega) (by omega), h (a + 1) (by omega) (by omega), h (a + 2) (by omega) (by omega),
    h (a + 3) (by omega) (by omega)]

theorem Memory.read32_write32_other {m : List Host.Cell} {a b : Nat} (w : Word) (h : b + 4 ≤ a ∨ a + 4 ≤ b) :
    Memory.read32 (Memory.write32 m a w) b = Memory.read32 m b :=
  Memory.read32_congr fun c _ _ => Memory.read_write32_outside w (by omega)

theorem Memory.read32_writeBytes_other {m : List Host.Cell} {a b : Nat} (bs : List Byte)
    (h : b + 4 ≤ a ∨ a + bs.length ≤ b) :
    Memory.read32 (Memory.writeBytes m a bs) b = Memory.read32 m b :=
  Memory.read32_congr fun c _ _ => Memory.read_writeBytes_outside bs (by omega)

/-! ### The canonical form -/

theorem Memory.wfAbove_cons (lo : Option Nat) (c : Host.Cell) (m : List Host.Cell) :
    Memory.wfAbove lo (c :: m) = true ↔
      (∀ l, lo = some l → l < c.1) ∧ c.2 ≠ Memory.unlisted ∧ Memory.wfAbove (some c.1) m = true := by
  obtain ⟨k, v⟩ := c
  cases lo <;> simp [Memory.wfAbove, and_assoc]

theorem Memory.wfAbove_weaken {lo lo' : Option Nat} {m : List Host.Cell}
    (le : ∀ l, lo' = some l → ∃ k, lo = some k ∧ l ≤ k) (h : Memory.wfAbove lo m = true) :
    Memory.wfAbove lo' m = true := by
  cases m with
  | nil => rfl
  | cons c rest =>
    rw [Memory.wfAbove_cons] at h ⊢
    refine ⟨fun l hl => ?_, h.2⟩
    obtain ⟨k, hk, hle⟩ := le l hl
    exact Nat.lt_of_le_of_lt hle (h.1 k hk)

theorem Memory.wfAbove_erase (a : Nat) {lo : Option Nat} {m : List Host.Cell} (h : Memory.wfAbove lo m = true) :
    Memory.wfAbove lo (Memory.erase a m) = true := by
  induction m generalizing lo with
  | nil => rfl
  | cons c rest ih =>
    rw [Memory.wfAbove_cons] at h
    by_cases at_a : c.1 = a
    · rw [Memory.erase, if_pos at_a]
      exact ih (Memory.wfAbove_weaken (fun l hl => ⟨c.1, rfl, (h.1 l hl).le⟩) h.2.2)
    · rw [Memory.erase, if_neg at_a, Memory.wfAbove_cons]
      exact ⟨h.1, h.2.1, ih h.2.2⟩

theorem Memory.wfAbove_insert (c : Host.Cell) {lo : Option Nat} {m : List Host.Cell}
    (absent : ∀ d ∈ m, d.1 ≠ c.1) (above : ∀ l, lo = some l → l < c.1) (value : c.2 ≠ Memory.unlisted)
    (h : Memory.wfAbove lo m = true) : Memory.wfAbove lo (Memory.insert c m) = true := by
  induction m generalizing lo with
  | nil => rw [Memory.insert, Memory.wfAbove_cons]; exact ⟨above, value, rfl⟩
  | cons d rest ih =>
    rw [Memory.wfAbove_cons] at h
    by_cases before : c.1 < d.1
    · rw [Memory.insert, if_pos before, Memory.wfAbove_cons, Memory.wfAbove_cons]
      exact ⟨above, value, by rintro _ ⟨⟩; exact before, h.2.1, h.2.2⟩
    · rw [Memory.insert, if_neg before, Memory.wfAbove_cons]
      refine ⟨h.1, h.2.1, ih (fun e he => absent e (List.mem_cons_of_mem _ he)) ?_ h.2.2⟩
      rintro _ ⟨⟩
      have : d.1 ≠ c.1 := absent d List.mem_cons_self
      omega

/-- A write keeps the canonical form. -/
theorem Memory.wf_write {m : List Host.Cell} (a : Nat) (v : Byte) (h : Memory.wf m = true) :
    Memory.wf (Memory.write m a v) = true := by
  by_cases dflt : v = Memory.unlisted
  · rw [Memory.write, if_pos dflt]
    exact Memory.wfAbove_erase a h
  · rw [Memory.write, if_neg dflt]
    exact Memory.wfAbove_insert (a, v) (Memory.absent_erase a m) (by rintro _ ⟨⟩) dflt (Memory.wfAbove_erase a h)

/-- A write of several bytes keeps the canonical form. -/
theorem Memory.wf_writeBytes {m : List Host.Cell} (a : Nat) (bs : List Byte) (h : Memory.wf m = true) :
    Memory.wf (Memory.writeBytes m a bs) = true := by
  induction bs generalizing m a with
  | nil => exact h
  | cons b bs ih => exact ih _ (Memory.wf_write a b h)

/-- A word store keeps the canonical form. -/
theorem Memory.wf_write32 {m : List Host.Cell} (a : Nat) (w : Word) (h : Memory.wf m = true) :
    Memory.wf (Memory.write32 m a w) = true := Memory.wf_writeBytes a _ h

/-! ### Which addresses are listed -/

theorem Memory.below_erase {bound : Nat} (a : Nat) {m : List Host.Cell} (h : Memory.below bound m) :
    Memory.below bound (Memory.erase a m) := by
  induction m with
  | nil => exact h
  | cons d rest ih =>
    have tail := ih fun c hc => h c (List.mem_cons_of_mem _ hc)
    by_cases at_a : d.1 = a
    · simpa [Memory.erase, at_a] using tail
    · rw [Memory.erase, if_neg at_a]
      intro c hc
      rcases List.mem_cons.mp hc with rfl | hc
      · exact h _ List.mem_cons_self
      · exact tail c hc

theorem Memory.below_insert {bound : Nat} {c : Host.Cell} {m : List Host.Cell} (hc : c.1 < bound)
    (h : Memory.below bound m) : Memory.below bound (Memory.insert c m) := by
  induction m with
  | nil => simpa [Memory.insert, Memory.below] using hc
  | cons d rest ih =>
    by_cases before : c.1 < d.1
    · rw [Memory.insert, if_pos before]
      intro e he
      rcases List.mem_cons.mp he with rfl | he
      · exact hc
      · exact h e he
    · rw [Memory.insert, if_neg before]
      intro e he
      rcases List.mem_cons.mp he with rfl | he
      · exact h _ List.mem_cons_self
      · exact ih (fun c hc => h c (List.mem_cons_of_mem _ hc)) e he

theorem Memory.below_write {bound a : Nat} {m : List Host.Cell} (v : Byte) (ha : a < bound)
    (h : Memory.below bound m) : Memory.below bound (Memory.write m a v) := by
  by_cases dflt : v = Memory.unlisted
  · rw [Memory.write, if_pos dflt]; exact Memory.below_erase a h
  · rw [Memory.write, if_neg dflt]; exact Memory.below_insert ha (Memory.below_erase a h)

theorem Memory.below_writeBytes {bound a : Nat} {m : List Host.Cell} (bs : List Byte)
    (ha : bs = [] ∨ a + bs.length ≤ bound) (h : Memory.below bound m) :
    Memory.below bound (Memory.writeBytes m a bs) := by
  induction bs generalizing m a with
  | nil => exact h
  | cons b bs ih =>
    have len : a + (bs.length + 1) ≤ bound := by simpa using ha
    refine ih ?_ (Memory.below_write b (by omega) h)
    right; omega

end Sys2Proof.Machine
end

