-- ==== Sys2Proof/Laws/State.lean ====
section
/-! SUPPORT. The small lemmas of the named updates and of the sequencing of outcomes, so that no later proof unfolds
them. -/

namespace Sys2Proof.Machine

/-! ### Outcomes -/

@[simp] theorem Result.andThen_next (s : State) (f : State → Result) : Result.andThen (.next s) f = f s := rfl
@[simp] theorem Result.andThen_fault (e : Fault) (f : State → Result) : Result.andThen (.fault e) f = .fault e := rfl
@[simp] theorem Result.andThen_refused (e : Refusal) (f : State → Result) :
    Result.andThen (.refused e) f = .refused e := rfl
@[simp] theorem Result.mapNext_next (s : State) (f : State → State) : Result.mapNext (.next s) f = .next (f s) := rfl
@[simp] theorem Result.mapNext_fault (e : Fault) (f : State → State) : Result.mapNext (.fault e) f = .fault e := rfl
@[simp] theorem Result.mapNext_refused (e : Refusal) (f : State → State) :
    Result.mapNext (.refused e) f = .refused e := rfl

/-- What `andThen` can do when it answers a next state. -/
theorem Result.andThen_eq_next {r : Result} {f : State → Result} {t : State} :
    r.andThen f = .next t ↔ ∃ u, r = .next u ∧ f u = .next t := by
  cases r <;> simp [Result.andThen]

/-- What `mapNext` can do when it answers a next state. -/
theorem Result.mapNext_eq_next {r : Result} {f : State → State} {t : State} :
    r.mapNext f = .next t ↔ ∃ u, r = .next u ∧ f u = t := by
  cases r <;> simp [Result.mapNext]

theorem Result.andThen_assoc (r : Result) (f g : State → Result) :
    (r.andThen f).andThen g = r.andThen fun s => (f s).andThen g := by cases r <;> rfl

theorem Result.mapNext_mapNext (r : Result) (f g : State → State) :
    (r.mapNext f).mapNext g = r.mapNext fun s => g (f s) := by cases r <;> rfl

theorem Result.mapNext_andThen (r : Result) (f : State → State) (g : State → Result) :
    (r.mapNext f).andThen g = r.andThen fun s => g (f s) := by cases r <;> rfl

theorem Result.andThen_mapNext (r : Result) (f : State → Result) (g : State → State) :
    (r.andThen f).mapNext g = r.andThen fun s => (f s).mapNext g := by cases r <;> rfl

theorem Result.mapNext_ite {c : Prop} [Decidable c] (a b : Result) (f : State → State) :
    (if c then a else b).mapNext f = if c then a.mapNext f else b.mapNext f := by split <;> rfl

/-! ### The sequencer and the schedule -/

section
variable (s : State) (q q' : Seq) (l l' : List Turn)

@[simp] theorem State.params_setSeq : (s.setSeq q).params = s.params := rfl
@[simp] theorem State.params_setSched : (s.setSched l).params = s.params := rfl
@[simp] theorem State.pkt_setSeq : (s.setSeq q).pkt = s.pkt := rfl
@[simp] theorem State.pkt_setSched : (s.setSched l).pkt = s.pkt := rfl
@[simp] theorem State.pendingAddress_setSeq : (s.setSeq q).pendingAddress = s.pendingAddress := rfl
@[simp] theorem State.pendingAddress_setSched : (s.setSched l).pendingAddress = s.pendingAddress := rfl
@[simp] theorem State.address_setSeq : (s.setSeq q).address = s.address := rfl
@[simp] theorem State.address_setSched : (s.setSched l).address = s.address := rfl
@[simp] theorem State.seq_setSeq : (s.setSeq q).seq = q := rfl
@[simp] theorem State.seq_setSched : (s.setSched l).seq = s.seq := rfl
@[simp] theorem State.snap_setSeq : (s.setSeq q).snap = s.snap := rfl
@[simp] theorem State.snap_setSched : (s.setSched l).snap = s.snap := rfl
@[simp] theorem State.resetCount_setSeq : (s.setSeq q).resetCount = s.resetCount := rfl
@[simp] theorem State.resetCount_setSched : (s.setSched l).resetCount = s.resetCount := rfl
@[simp] theorem State.ep0OutCount_setSeq : (s.setSeq q).ep0OutCount = s.ep0OutCount := rfl
@[simp] theorem State.ep0OutCount_setSched : (s.setSched l).ep0OutCount = s.ep0OutCount := rfl
@[simp] theorem State.ep0InCount_setSeq : (s.setSeq q).ep0InCount = s.ep0InCount := rfl
@[simp] theorem State.ep0InCount_setSched : (s.setSched l).ep0InCount = s.ep0InCount := rfl
@[simp] theorem State.trace_setSeq : (s.setSeq q).trace = s.trace := rfl
@[simp] theorem State.trace_setSched : (s.setSched l).trace = s.trace := rfl
@[simp] theorem State.traceIdx_setSeq : (s.setSeq q).traceIdx = s.traceIdx := rfl
@[simp] theorem State.traceIdx_setSched : (s.setSched l).traceIdx = s.traceIdx := rfl
@[simp] theorem State.addr_setSeq : (s.setSeq q).addr = s.addr := rfl
@[simp] theorem State.addr_setSched : (s.setSched l).addr = s.addr := rfl
@[simp] theorem State.setupRec_setSeq : (s.setSeq q).setupRec = s.setupRec := rfl
@[simp] theorem State.setupRec_setSched : (s.setSched l).setupRec = s.setupRec := rfl
@[simp] theorem State.busReset_setSeq : (s.setSeq q).busReset = s.busReset := rfl
@[simp] theorem State.busReset_setSched : (s.setSched l).busReset = s.busReset := rfl
@[simp] theorem State.epIn_setSeq : (s.setSeq q).epIn = s.epIn := rfl
@[simp] theorem State.epIn_setSched : (s.setSched l).epIn = s.epIn := rfl
@[simp] theorem State.epOut_setSeq : (s.setSeq q).epOut = s.epOut := rfl
@[simp] theorem State.epOut_setSched : (s.setSched l).epOut = s.epOut := rfl
@[simp] theorem State.inteSetupReq_setSeq : (s.setSeq q).inteSetupReq = s.inteSetupReq := rfl
@[simp] theorem State.inteSetupReq_setSched : (s.setSched l).inteSetupReq = s.inteSetupReq := rfl
@[simp] theorem State.inteBusReset_setSeq : (s.setSeq q).inteBusReset = s.inteBusReset := rfl
@[simp] theorem State.inteBusReset_setSched : (s.setSched l).inteBusReset = s.inteBusReset := rfl
@[simp] theorem State.inteBuffStatus_setSeq : (s.setSeq q).inteBuffStatus = s.inteBuffStatus := rfl
@[simp] theorem State.inteBuffStatus_setSched : (s.setSched l).inteBuffStatus = s.inteBuffStatus := rfl
@[simp] theorem State.stallArmEp0_setSeq : (s.setSeq q).stallArmEp0 = s.stallArmEp0 := rfl
@[simp] theorem State.stallArmEp0_setSched : (s.setSched l).stallArmEp0 = s.stallArmEp0 := rfl
@[simp] theorem State.win_setSeq : (s.setSeq q).win = s.win := rfl
@[simp] theorem State.win_setSched : (s.setSched l).win = s.win := rfl
@[simp] theorem State.irqEnabled_setSeq : (s.setSeq q).irqEnabled = s.irqEnabled := rfl
@[simp] theorem State.irqEnabled_setSched : (s.setSched l).irqEnabled = s.irqEnabled := rfl
@[simp] theorem State.indicator_setSeq : (s.setSeq q).indicator = s.indicator := rfl
@[simp] theorem State.indicator_setSched : (s.setSched l).indicator = s.indicator := rfl
@[simp] theorem State.wire_setSeq : (s.setSeq q).wire = s.wire := rfl
@[simp] theorem State.wire_setSched : (s.setSched l).wire = s.wire := rfl
@[simp] theorem State.sched_setSeq : (s.setSeq q).sched = s.sched := rfl
@[simp] theorem State.sched_setSched : (s.setSched l).sched = l := rfl
@[simp] theorem State.setSeq_setSeq : (s.setSeq q).setSeq q' = s.setSeq q' := rfl
@[simp] theorem State.setSched_setSched : (s.setSched l).setSched l' = s.setSched l' := rfl
theorem State.setSched_setSeq : (s.setSeq q).setSched l = (s.setSched l).setSeq q := rfl
@[simp] theorem State.setSeq_self : s.setSeq s.seq = s := rfl
@[simp] theorem State.setSched_self : s.setSched s.sched = s := rfl
@[simp] theorem State.bc_setSeq (n : Nat) (d : Dir) : (s.setSeq q).bc n d = s.bc n d := rfl
@[simp] theorem State.bc_setSched (n : Nat) (d : Dir) : (s.setSched l).bc n d = s.bc n d := rfl
@[simp] theorem State.winByte_setSeq (a : Nat) : (s.setSeq q).winByte a = s.winByte a := rfl
@[simp] theorem State.winByte_setSched (a : Nat) : (s.setSched l).winByte a = s.winByte a := rfl

end

end Sys2Proof.Machine
end

