-- ==== Sys2Proof/Laws/Words.lean ====
section
/-! SUPPORT. The fields of a buffer-control word: of a composed word, and after the update of one field. -/

namespace Sys2Proof.Machine

theorem getLsbD_bcWord (length : Nat) (a st p f : Bool) (i : Nat) :
    (bcWord length a st p f).getLsbD i =
      (if i < 10 then length.testBit i else
       if i = 10 then a else if i = 11 then st else if i = 12 then false else if i = 13 then p else
       if i = 14 then false else if i = 15 then f else false) := by
  simp only [bcWord, BitVec.getLsbD_append, BitVec.getLsbD_ofNat, BitVec.getLsbD_ofBool]
  by_cases h10 : i < 10
  · simp [h10]
  · rcases Nat.lt_or_ge i 16 with h | h
    · interval_cases i <;> simp
    · simp [show ¬ i < 10 by omega, show ¬ i - 10 < 1 by omega, show ¬ i - 10 - 1 < 1 by omega,
        show ¬ i - 10 - 1 - 1 < 1 by omega, show ¬ i - 10 - 1 - 1 - 1 < 1 by omega,
        show ¬ i - 10 - 1 - 1 - 1 - 1 < 1 by omega, show ¬ i - 10 - 1 - 1 - 1 - 1 - 1 < 1 by omega,
        show i ≠ 10 by omega, show i ≠ 11 by omega, show i ≠ 12 by omega, show i ≠ 13 by omega,
        show i ≠ 14 by omega, show i ≠ 15 by omega]

@[simp] theorem bcAvailable_bcWord (n : Nat) (a st p f : Bool) : bcAvailable (bcWord n a st p f) = a := by
  rw [bcAvailable, getLsbD_bcWord]; rfl

@[simp] theorem bcStall_bcWord (n : Nat) (a st p f : Bool) : bcStall (bcWord n a st p f) = st := by
  rw [bcStall, getLsbD_bcWord]; rfl

@[simp] theorem bcReset_bcWord (n : Nat) (a st p f : Bool) : bcReset (bcWord n a st p f) = false := by
  rw [bcReset, getLsbD_bcWord]; rfl

@[simp] theorem bcPid_bcWord (n : Nat) (a st p f : Bool) : bcPid (bcWord n a st p f) = p := by
  rw [bcPid, getLsbD_bcWord]; rfl

@[simp] theorem bcLast_bcWord (n : Nat) (a st p f : Bool) : bcLast (bcWord n a st p f) = false := by
  rw [bcLast, getLsbD_bcWord]; rfl

@[simp] theorem bcFull_bcWord (n : Nat) (a st p f : Bool) : bcFull (bcWord n a st p f) = f := by
  rw [bcFull, getLsbD_bcWord]; rfl

@[simp] theorem bcBuffer1_bcWord (n : Nat) (a st p f : Bool) : bcBuffer1 (bcWord n a st p f) = 0 := by
  apply BitVec.eq_of_getLsbD_eq
  intro i _
  simp only [bcBuffer1, BitVec.getLsbD_extractLsb', getLsbD_bcWord]
  simp [show ¬ 16 + i < 10 by omega, show 16 + i ≠ 10 by omega, show 16 + i ≠ 11 by omega,
    show 16 + i ≠ 13 by omega, show 16 + i ≠ 15 by omega]

@[simp] theorem bcReserved_bcWord (n : Nat) (a st p f : Bool) : bcReserved (bcWord n a st p f) = false := by
  simp [bcReserved]

theorem bcLength_bcWord {n : Nat} (a st p f : Bool) (h : n < 1024) : bcLength (bcWord n a st p f) = n := by
  have : (bcWord n a st p f).extractLsb' 0 10 = BitVec.ofNat 10 n := by
    apply BitVec.eq_of_getLsbD_eq
    intro i hi
    rw [BitVec.getLsbD_extractLsb', Nat.zero_add, getLsbD_bcWord, BitVec.getLsbD_ofNat, if_pos hi]
  rw [bcLength, this, BitVec.toNat_ofNat]
  omega

/-! ### One bit replaced -/

theorem getLsbD_setBit (w : Word) {i : Nat} (b : Bool) (j : Nat) (hi : i < 32) :
    (setBit w i b).getLsbD j = if j = i then b else w.getLsbD j := by
  have mask : (1#32 <<< i).getLsbD j = decide (j = i) := by
    rw [BitVec.getLsbD_shiftLeft, BitVec.getLsbD_one]
    by_cases h : j = i
    · simp [h, hi]
    · by_cases h' : j < i
      · simp [h, h']
      · have : ¬ (j - i = 0) := by omega
        simp [h, this]
  cases b
  · rw [setBit, if_neg (by decide), BitVec.getLsbD_and, BitVec.getLsbD_not, mask]
    by_cases h : j = i
    · rw [if_pos h]; simp [h]
    · rw [if_neg h]
      by_cases hj : j < 32
      · simp [h, hj]
      · rw [BitVec.getLsbD_of_ge w j (by omega)]; rfl
  · rw [setBit, if_pos rfl, BitVec.getLsbD_or, mask]
    by_cases h : j = i
    · rw [if_pos h]; simp [h]
    · rw [if_neg h]; simp [h]

theorem getLsbD_bcSetLength (w : Word) (n j : Nat) :
    (bcSetLength w n).getLsbD j = if j < 10 then n.testBit j else w.getLsbD j := by
  simp only [bcSetLength, BitVec.getLsbD_append, BitVec.getLsbD_ofNat, BitVec.getLsbD_extractLsb']
  by_cases h : j < 10
  · simp [h]
  · by_cases h' : j < 32
    · simp [h, show j - 10 < 22 by omega, show 10 + (j - 10) = j by omega]
    · simp [h, show ¬ j - 10 < 22 by omega, BitVec.getLsbD_of_ge w j (by omega)]

/-- The high half-word, read bit by bit. -/
theorem bcBuffer1_eq_zero (w : Word) : bcBuffer1 w = 0 ↔ ∀ i, 16 ≤ i → w.getLsbD i = false := by
  constructor
  · intro h i hi
    by_cases hi' : i < 32
    · have := congrArg (fun v : BitVec 16 => v.getLsbD (i - 16)) h
      simpa [bcBuffer1, BitVec.getLsbD_extractLsb', show i - 16 < 16 by omega, show 16 + (i - 16) = i by omega] using this
    · exact BitVec.getLsbD_of_ge w i (by omega)
  · intro h
    apply BitVec.eq_of_getLsbD_eq
    intro i _
    simp [bcBuffer1, BitVec.getLsbD_extractLsb', h (16 + i) (by omega)]

/-- Whether a reserved field is set depends only on bits 12, 14 and 16 to 31. -/
theorem bcReserved_congr {v w : Word} (h12 : v.getLsbD 12 = w.getLsbD 12) (h14 : v.getLsbD 14 = w.getLsbD 14)
    (high : ∀ i, 16 ≤ i → v.getLsbD i = w.getLsbD i) : bcReserved v = bcReserved w := by
  have : (bcBuffer1 v = 0) ↔ (bcBuffer1 w = 0) := by
    rw [bcBuffer1_eq_zero, bcBuffer1_eq_zero]
    exact forall₂_congr fun i hi => by rw [high i hi]
  simp only [bcReserved, bcReset, bcLast, h12, h14, ne_eq, this]

theorem bcLength_eq_of_bits {v w : Word} (h : ∀ j, j < 10 → v.getLsbD j = w.getLsbD j) : bcLength v = bcLength w := by
  have : v.extractLsb' 0 10 = w.extractLsb' 0 10 := by
    apply BitVec.eq_of_getLsbD_eq
    intro i hi
    simp only [BitVec.getLsbD_extractLsb', Nat.zero_add, h i hi]
  rw [bcLength, bcLength, this]

/-! ### The words the completions leave (44_sie_environment.md R204, R205) -/

theorem getLsbD_inDoneWord (w : Word) (b : Bool) (j : Nat) :
    (inDoneWord w b).getLsbD j = if j = 15 then b else if j = 10 then false else w.getLsbD j := by
  simp [inDoneWord, bcSetFull, bcSetAvailable, getLsbD_setBit]

theorem getLsbD_outDoneWord (w : Word) (k j : Nat) :
    (outDoneWord w k).getLsbD j =
      if j < 10 then k.testBit j else if j = 15 then true else if j = 10 then false else w.getLsbD j := by
  simp [outDoneWord, bcSetFull, bcSetAvailable, getLsbD_setBit, getLsbD_bcSetLength]

@[simp] theorem bcReserved_inDoneWord (w : Word) (b : Bool) : bcReserved (inDoneWord w b) = bcReserved w := by
  refine bcReserved_congr ?_ ?_ fun i hi => ?_ <;> rw [getLsbD_inDoneWord]
  · simp
  · simp
  · simp [show i ≠ 15 by omega, show i ≠ 10 by omega]

@[simp] theorem bcReserved_outDoneWord (w : Word) (k : Nat) : bcReserved (outDoneWord w k) = bcReserved w := by
  refine bcReserved_congr ?_ ?_ fun i hi => ?_ <;> rw [getLsbD_outDoneWord]
  · simp
  · simp
  · simp [show ¬ i < 10 by omega, show i ≠ 15 by omega, show i ≠ 10 by omega]

@[simp] theorem bcLength_inDoneWord (w : Word) (b : Bool) : bcLength (inDoneWord w b) = bcLength w :=
  bcLength_eq_of_bits fun j hj => by
    rw [getLsbD_inDoneWord, if_neg (by omega), if_neg (by omega)]

theorem bcLength_outDoneWord (w : Word) {k : Nat} (h : k < 1024) : bcLength (outDoneWord w k) = k := by
  rw [bcLength_eq_of_bits (w := bcWord k false false false false), bcLength_bcWord _ _ _ _ h]
  intro j hj
  rw [getLsbD_outDoneWord, getLsbD_bcWord, if_pos hj, if_pos hj]

@[simp] theorem bcReserved_inWord (n p : Nat) : bcReserved (inWord n p) = false := by simp [inWord]

@[simp] theorem bcReserved_outWord (n p : Nat) : bcReserved (outWord n p) = false := by simp [outWord]

@[simp] theorem bcReserved_stallWord (p : Nat) : bcReserved (stallWord p) = false := by simp [stallWord]

/-! ### The hexadecimal forms (30_encoding.md R96) -/

theorem inWord_eq_ofNat {p size : Nat} (hp : p < 2) (hs : size < 65) :
    inWord size p = BitVec.ofNat 32 (0x8400 + 0x2000 * p + size) := by
  interval_cases p <;> interval_cases size <;> rfl

theorem outWord_eq_ofNat {p size : Nat} (hp : p < 2) (hs : size < 65) :
    outWord size p = BitVec.ofNat 32 (0x0400 + 0x2000 * p + size) := by
  interval_cases p <;> interval_cases size <;> rfl

theorem stallWord_eq_ofNat {p : Nat} (hp : p < 2) : stallWord p = BitVec.ofNat 32 (0x8C00 + 0x2000 * p) := by
  interval_cases p <;> rfl

end Sys2Proof.Machine
end

