-- ==== Sys2Proof/Laws/Micro.lean ====
section
/-! SUPPORT. What one micro-step can do, and a run of them: the frame every micro-step keeps, the micro-steps a handler or a
primitive is made of, and that those never stop. -/

namespace Sys2Proof.Machine

/-! ### The checked accesses of the window -/

theorem inWindow_of_le {p : Params} {off n : Nat} (h : off + n ≤ Config.windowMin) : inWindow p off n = true := by
  rw [inWindow, windowSize, Bool.or_eq_true, decide_eq_true_eq, decide_eq_true_eq]
  right
  omega

theorem State.storeBytes_eq_next {s t : State} {off : Nat} {bs : List Byte} :
    s.storeBytes off bs = .next t ↔
      inWindow s.params off bs.length = true ∧ t = { s with win := Memory.writeBytes s.win off bs } := by
  rw [State.storeBytes]
  by_cases h : inWindow s.params off bs.length = true
  · rw [if_pos h, Host.Outcome.next.injEq]
    exact ⟨fun e => ⟨h, e.symm⟩, fun e => e.2.symm⟩
  · rw [if_neg h]
    exact ⟨fun e => (nomatch e), fun e => absurd e.1 h⟩

theorem State.storeWord_eq_next {s t : State} {off : Nat} {w : Word} :
    s.storeWord off w = .next t ↔
      off % 4 = 0 ∧ inWindow s.params off 4 = true ∧ t = { s with win := Memory.write32 s.win off w } := by
  rw [State.storeWord]
  by_cases aligned : off % 4 = 0
  · by_cases h : inWindow s.params off 4 = true
    · rw [if_pos aligned, if_pos h, Host.Outcome.next.injEq]
      exact ⟨fun e => ⟨aligned, h, e.symm⟩, fun e => e.2.2.symm⟩
    · rw [if_pos aligned, if_neg h]
      exact ⟨fun e => (nomatch e), fun e => absurd e.2.1 h⟩
  · rw [if_neg aligned]
    exact ⟨fun e => (nomatch e), fun e => absurd e.1 aligned⟩

theorem State.loadIntoLatch_eq_next {s t : State} {i : Fin 8} {off : Nat} :
    s.loadIntoLatch i off = .next t ↔
      inWindow s.params off 1 = true ∧ t = { s with pkt := s.pkt.setByte i (Memory.read s.win off) } := by
  rw [State.loadIntoLatch]
  by_cases h : inWindow s.params off 1 = true
  · rw [if_pos h, Host.Outcome.next.injEq]
    exact ⟨fun e => ⟨h, e.symm⟩, fun e => e.2.symm⟩
  · rw [if_neg h]
    exact ⟨fun e => (nomatch e), fun e => absurd e.1 h⟩

/-- A store of bytes inside the smallest window goes through. -/
theorem State.storeBytes_next (s : State) {off : Nat} {bs : List Byte} (h : off + bs.length ≤ Config.windowMin) :
    s.storeBytes off bs = .next { s with win := Memory.writeBytes s.win off bs } := by
  rw [State.storeBytes, inWindow_of_le h]; rfl

/-- A word store at a multiple of 4 inside the smallest window goes through. -/
theorem State.storeWord_next (s : State) {off : Nat} (w : Word) (aligned : off % 4 = 0)
    (h : off + 4 ≤ Config.windowMin) : s.storeWord off w = .next { s with win := Memory.write32 s.win off w } := by
  rw [State.storeWord, if_pos aligned, inWindow_of_le h]; rfl

theorem bcOff_aligned (n : Nat) (d : Dir) : bcOff n d % 4 = 0 := by
  cases d <;> simp only [bcOff] <;> omega

theorem bcOff_lt {n : Nat} (d : Dir) (h : n < 16) : bcOff n d + 4 ≤ 0x100 := by
  cases d <;> simp only [bcOff] <;> omega

theorem le_bcOff (n : Nat) (d : Dir) : 0x80 ≤ bcOff n d := by
  cases d <;> simp only [bcOff] <;> omega

/-- Two buffer-control words do not overlap (20_memory.md R61, R62). -/
theorem bcOff_disjoint {n n' : Nat} {d d' : Dir} (h : ¬ (n = n' ∧ d = d')) :
    bcOff n d + 4 ≤ bcOff n' d' ∨ bcOff n' d' + 4 ≤ bcOff n d := by
  cases d <;> cases d' <;> simp only [bcOff, reduceCtorEq, and_false, and_true] at h ⊢ <;> omega

/-- A word of an endpoint is stored in one access (20_memory.md R68 a). -/
theorem State.storeWord_bc (s : State) {n : Nat} (d : Dir) (w : Word) (h : n < 16) :
    s.storeWord (bcOff n d) w = .next { s with win := Memory.write32 s.win (bcOff n d) w } :=
  s.storeWord_next w (bcOff_aligned n d) (by have := bcOff_lt d h; simp only [Config.windowMin]; omega)

/-! ### The trace -/

/-- The three cases of the trace append (40_event_adapter.md R124). -/
theorem State.appendTrace_cases (s : State) :
    (s.traceIdx < s.params.traceCap ∧ s.appendTrace =
      { s with trace := Memory.writeBytes s.trace (8 * s.traceIdx) s.pkt.toBytes, traceIdx := s.traceIdx + 1 }) ∨
    (s.params.traceCap ≤ s.traceIdx ∧ s.params.tracePolicy = .wrap ∧ 0 < s.params.traceCap ∧ s.appendTrace =
      { s with trace := Memory.writeBytes s.trace 0 s.pkt.toBytes, traceIdx := 1 }) ∨
    (s.params.traceCap ≤ s.traceIdx ∧ (s.params.tracePolicy = .truncate ∨ s.params.traceCap = 0) ∧
      s.appendTrace = s) := by
  rw [State.appendTrace]
  by_cases room : s.traceIdx < s.params.traceCap
  · exact .inl ⟨room, by rw [if_pos room]⟩
  · rw [if_neg room]
    cases policy : s.params.tracePolicy with
    | truncate => exact .inr (.inr ⟨Nat.le_of_not_lt room, .inl rfl, rfl⟩)
    | wrap =>
      by_cases cap : 0 < s.params.traceCap
      · exact .inr (.inl ⟨Nat.le_of_not_lt room, rfl, cap, if_pos cap⟩)
      · exact .inr (.inr ⟨Nat.le_of_not_lt room, .inr (by omega), if_neg cap⟩)

theorem State.appendTrace_setSeq (s : State) (q : Seq) : (s.setSeq q).appendTrace = s.appendTrace.setSeq q := by
  rcases s.appendTrace_cases with ⟨room, e⟩ | ⟨full, policy, cap, e⟩ | ⟨full, none, e⟩
  · rcases (s.setSeq q).appendTrace_cases with ⟨-, e'⟩ | ⟨full, -⟩ | ⟨full, -⟩
    · rw [e, e']; rfl
    · exact absurd full (Nat.not_le_of_lt room)
    · exact absurd full (Nat.not_le_of_lt room)
  · rcases (s.setSeq q).appendTrace_cases with ⟨room, -⟩ | ⟨-, -, -, e'⟩ | ⟨-, none | none, -⟩
    · exact absurd full (Nat.not_le_of_lt room)
    · rw [e, e']; rfl
    · exact absurd (policy.symm.trans none) (by decide)
    · exact absurd none (Nat.ne_of_gt cap)
  · rcases (s.setSeq q).appendTrace_cases with ⟨room, -⟩ | ⟨-, policy, cap, -⟩ | ⟨-, -, e'⟩
    · exact absurd full (Nat.not_le_of_lt room)
    · rcases none with none | none
      · exact absurd (policy.symm.trans none) (by decide)
      · exact absurd none (Nat.ne_of_gt cap)
    · rw [e, e']

theorem State.appendTrace_setSched (s : State) (l : List Turn) :
    (s.setSched l).appendTrace = s.appendTrace.setSched l := by
  rcases s.appendTrace_cases with ⟨room, e⟩ | ⟨full, policy, cap, e⟩ | ⟨full, none, e⟩
  · rcases (s.setSched l).appendTrace_cases with ⟨-, e'⟩ | ⟨full, -⟩ | ⟨full, -⟩
    · rw [e, e']; rfl
    · exact absurd full (Nat.not_le_of_lt room)
    · exact absurd full (Nat.not_le_of_lt room)
  · rcases (s.setSched l).appendTrace_cases with ⟨room, -⟩ | ⟨-, -, -, e'⟩ | ⟨-, none | none, -⟩
    · exact absurd full (Nat.not_le_of_lt room)
    · rw [e, e']; rfl
    · exact absurd (policy.symm.trans none) (by decide)
    · exact absurd none (Nat.ne_of_gt cap)
  · rcases (s.setSched l).appendTrace_cases with ⟨room, -⟩ | ⟨-, policy, cap, -⟩ | ⟨-, -, e'⟩
    · exact absurd full (Nat.not_le_of_lt room)
    · rcases none with none | none
      · exact absurd (policy.symm.trans none) (by decide)
      · exact absurd none (Nat.ne_of_gt cap)
    · rw [e, e']

/-! ### The frame of every micro-step -/

/-- What no micro-step of CTRL touches, whatever it is: the parameters, the enables, the sequencer, the schedule and the
record of the wire. -/
theorem microExec_frame {m : Micro} {s t : State} (h : microExec m s = .next t) :
    t.params = s.params ∧ t.inteSetupReq = s.inteSetupReq ∧ t.inteBusReset = s.inteBusReset ∧
    t.inteBuffStatus = s.inteBuffStatus ∧ t.irqEnabled = s.irqEnabled ∧ t.seq = s.seq ∧ t.sched = s.sched ∧
    t.wire = s.wire := by
  cases m with
  | sampleFlags => simp only [microExec] at h; split at h <;> cases h <;> simp
  | appendTrace =>
    cases h
    rcases s.appendTrace_cases with ⟨-, e⟩ | ⟨-, -, -, e⟩ | ⟨-, -, e⟩ <;> rw [e] <;> simp
  | loadSetupByte i => obtain ⟨-, rfl⟩ := State.loadIntoLatch_eq_next.mp h; simp
  | storeByte off v => obtain ⟨-, rfl⟩ := State.storeBytes_eq_next.mp h; simp
  | storeWord off w => obtain ⟨-, -, rfl⟩ := State.storeWord_eq_next.mp h; simp
  | _ => cases h; simp

/-- A micro-step does not read the sequencer. -/
theorem microExec_setSeq (m : Micro) (s : State) (q : Seq) :
    microExec m (s.setSeq q) = (microExec m s).mapNext (State.setSeq · q) := by
  cases m with
  | sampleFlags => simp only [microExec, State.params_setSeq]; split <;> rfl
  | appendTrace => rw [microExec, microExec, s.appendTrace_setSeq q]; rfl
  | loadSetupByte i => rw [microExec, microExec, State.loadIntoLatch, State.loadIntoLatch, Result.mapNext_ite]; rfl
  | storeByte off v => rw [microExec, microExec, State.storeBytes, State.storeBytes, Result.mapNext_ite]; rfl
  | storeWord off w =>
    rw [microExec, microExec, State.storeWord, State.storeWord, Result.mapNext_ite, Result.mapNext_ite]; rfl
  | _ => rfl

/-- A micro-step does not read the schedule. -/
theorem microExec_setSched (m : Micro) (s : State) (l : List Turn) :
    microExec m (s.setSched l) = (microExec m s).mapNext (State.setSched · l) := by
  cases m with
  | sampleFlags => simp only [microExec, State.params_setSched]; split <;> rfl
  | appendTrace => rw [microExec, microExec, s.appendTrace_setSched l]; rfl
  | loadSetupByte i => rw [microExec, microExec, State.loadIntoLatch, State.loadIntoLatch, Result.mapNext_ite]; rfl
  | storeByte off v => rw [microExec, microExec, State.storeBytes, State.storeBytes, Result.mapNext_ite]; rfl
  | storeWord off w =>
    rw [microExec, microExec, State.storeWord, State.storeWord, Result.mapNext_ite, Result.mapNext_ite]; rfl
  | _ => rfl

/-! ### Runs of micro-steps -/

@[simp] theorem runMicros_nil (s : State) : runMicros [] s = .next s := rfl

theorem runMicros_cons (m : Micro) (l : List Micro) (s : State) :
    runMicros (m :: l) s = (microExec m s).andThen (runMicros l) := rfl

@[simp] theorem runMicros_singleton (m : Micro) (s : State) : runMicros [m] s = microExec m s := by
  rw [runMicros_cons]; cases microExec m s <;> rfl

theorem runMicros_append (l l' : List Micro) (s : State) :
    runMicros (l ++ l') s = (runMicros l s).andThen (runMicros l') := by
  induction l generalizing s with
  | nil => rfl
  | cons m l ih =>
    rw [List.cons_append, runMicros_cons, runMicros_cons, Result.andThen_assoc]
    congr 1
    funext t
    exact ih t

theorem runMicros_setSched (l : List Micro) (s : State) (q : List Turn) :
    runMicros l (s.setSched q) = (runMicros l s).mapNext (State.setSched · q) := by
  induction l generalizing s with
  | nil => rfl
  | cons m l ih =>
    rw [runMicros_cons, runMicros_cons, microExec_setSched, Result.mapNext_andThen, Result.andThen_mapNext]
    congr 1
    funext t
    exact ih t

theorem runMicros_setSeq (l : List Micro) (s : State) (q : Seq) :
    runMicros l (s.setSeq q) = (runMicros l s).mapNext (State.setSeq · q) := by
  induction l generalizing s with
  | nil => rfl
  | cons m l ih =>
    rw [runMicros_cons, runMicros_cons, microExec_setSeq, Result.mapNext_andThen, Result.andThen_mapNext]
    congr 1
    funext t
    exact ih t

/-- A relation that every micro-step of a list keeps, a run of the list keeps. -/
theorem runMicros_keeps {P : State → Prop} {l : List Micro}
    (keeps : ∀ m ∈ l, ∀ s t, P s → microExec m s = .next t → P t) {s t : State} (hs : P s)
    (h : runMicros l s = .next t) : P t := by
  induction l generalizing s with
  | nil => cases h; exact hs
  | cons m l ih =>
    obtain ⟨u, hu, ht⟩ := Result.andThen_eq_next.mp h
    exact ih (fun m' hm' => keeps m' (List.mem_cons_of_mem _ hm')) (keeps m List.mem_cons_self s u hs hu) ht

/-! ### The micro-steps of a handler -/

/-- The micro-steps a handler or a primitive on endpoint 0 is made of: what it may write (40_event_adapter.md R125), and
only where the rules say. -/
def Micro.InHandler : Micro → Prop
  | .checkArguments _ => True
  | .storePending _ => True
  | .setStallArm => True
  | .storeByte off _ => bufOff 0 ≤ off ∧ off < bufOff 0 + 64
  | .storeWord off w => (∃ d, off = bcOff 0 d) ∧ bcReserved w = false ∧ bcLength w < Config.sizeLimit
  | .sampleFlags => False
  | .clearSetupRec => False
  | .loadSetupByte _ => False
  | .appendTrace => False
  | .clearBusReset => False
  | .zeroDeviceAddr => False
  | .zeroAddresses => False
  | .countReset => False
  | .clearEpOut0 => False
  | .countEp0Out => False
  | .clearEpIn0 => False
  | .countEp0In => False
  | .applyDeviceAddr => False
  | .recordAddress => False

/-- A handler writes only the pending address, the stall arm, the window and the indicator (40_event_adapter.md R125). -/
def HandlerFrame (s t : State) : Prop :=
  t = { s with pendingAddress := t.pendingAddress, stallArmEp0 := t.stallArmEp0, win := t.win, indicator := t.indicator }

theorem HandlerFrame.refl (s : State) : HandlerFrame s s := rfl

theorem HandlerFrame.trans {s t u : State} (h : HandlerFrame s t) (h' : HandlerFrame t u) : HandlerFrame s u := by
  unfold HandlerFrame at *
  rw [h'] at ⊢
  rw [h]

/-- What a micro-step of a handler writes. -/
theorem Micro.InHandler.frame {m : Micro} (hm : m.InHandler) {s t : State} (h : microExec m s = .next t) :
    HandlerFrame s t := by
  cases m with
  | storeByte off v => obtain ⟨-, rfl⟩ := State.storeBytes_eq_next.mp h; rfl
  | storeWord off w => obtain ⟨-, -, rfl⟩ := State.storeWord_eq_next.mp h; rfl
  | checkArguments | storePending | setStallArm => cases h; rfl
  | _ => exact hm.elim

/-- A micro-step of a handler does not stop. -/
theorem Micro.InHandler.completes {m : Micro} (hm : m.InHandler) (s : State) : ∃ t, microExec m s = .next t := by
  cases m with
  | storeByte off v =>
    refine ⟨_, s.storeBytes_next ?_⟩
    simp only [Micro.InHandler, bufOff] at hm
    simp only [Config.windowMin, List.length_singleton]
    omega
  | storeWord off w =>
    obtain ⟨⟨d, rfl⟩, -⟩ := hm
    exact ⟨_, s.storeWord_bc d w (by decide)⟩
  | checkArguments | storePending | setStallArm => exact ⟨_, rfl⟩
  | _ => exact hm.elim

theorem mem_copyMicros {m : Micro} {off : Nat} {bs : List Byte} (h : m ∈ copyMicros off bs) :
    ∃ i v, i < bs.length ∧ m = .storeByte (off + i) v := by
  induction bs generalizing off with
  | nil => simp [copyMicros] at h
  | cons b bs ih =>
    rcases List.mem_cons.mp h with rfl | h
    · exact ⟨0, b, by simp, rfl⟩
    · obtain ⟨i, v, hi, rfl⟩ := ih h
      exact ⟨i + 1, v, by simpa using hi, by rw [Nat.add_assoc, Nat.add_comm 1]⟩

@[simp] theorem length_romSlice (p : Params) (q : RomSeq) (i n : Nat) : (romSlice p q i n).length = n := by
  induction n generalizing i with
  | zero => rfl
  | succ n ih => simp [romSlice, ih]

theorem checkSized_eq_ok {n pid size : Nat} :
    checkSized n pid size = .ok ↔ n < Config.numEndpoints ∧ pid < 2 ∧ size < Config.sizeLimit := by
  rw [checkSized]
  split
  · exact ⟨fun e => (nomatch e), fun _ => by omega⟩
  · exact ⟨fun _ => by omega, fun _ => rfl⟩

theorem checkSized_eq_fail {n pid size : Nat} :
    checkSized n pid size = .fail ↔ Config.numEndpoints ≤ n ∨ 2 ≤ pid ∨ Config.sizeLimit ≤ size := by
  simp only [checkSized]
  split <;> simp_all

theorem checkUnsized_eq_ok {n pid : Nat} : checkUnsized n pid = .ok ↔ n < Config.numEndpoints ∧ pid < 2 := by
  rw [checkUnsized]
  split
  · exact ⟨fun e => (nomatch e), fun _ => by omega⟩
  · exact ⟨fun _ => by omega, fun _ => rfl⟩

theorem checkUnsized_eq_fail {n pid : Nat} : checkUnsized n pid = .fail ↔ Config.numEndpoints ≤ n ∨ 2 ≤ pid := by
  simp only [checkUnsized]
  split <;> simp_all

theorem bcLength_inWord {n : Nat} (p : Nat) (h : n < 1024) : bcLength (inWord n p) = n := bcLength_bcWord _ _ _ _ h
theorem bcLength_outWord {n : Nat} (p : Nat) (h : n < 1024) : bcLength (outWord n p) = n := bcLength_bcWord _ _ _ _ h
theorem bcLength_stallWord (p : Nat) : bcLength (stallWord p) = 0 := bcLength_bcWord _ _ _ _ (by decide)

theorem sendToHostMicros_ok {p : Params} {n pid size : Nat} (b : Option RomSeq) (h : checkSized n pid size = .ok) :
    sendToHostMicros p n pid b size =
      .checkArguments .ok :: (copyMicros (bufOff n) (sourceBytes p b size) ++
        [.storeWord (bcOff n .inn) (inWord size pid)]) := by
  simp only [sendToHostMicros, h]

theorem sendToHostMicros_fail {p : Params} {n pid size : Nat} (b : Option RomSeq)
    (h : checkSized n pid size = .fail) : sendToHostMicros p n pid b size = [.checkArguments .fail] := by
  simp only [sendToHostMicros, h]

theorem prepareOutBufferMicros_ok {n pid size : Nat} (h : checkSized n pid size = .ok) :
    prepareOutBufferMicros n pid size =
      [.checkArguments .ok, .storeWord (bcOff n .out) (outWord size pid)] := by
  simp only [prepareOutBufferMicros, h]

theorem prepareOutBufferMicros_fail {n pid size : Nat} (h : checkSized n pid size = .fail) :
    prepareOutBufferMicros n pid size = [.checkArguments .fail] := by
  simp only [prepareOutBufferMicros, h]

theorem sendStallMicros_ok {n pid : Nat} (h : checkUnsized n pid = .ok) :
    sendStallMicros n pid = .checkArguments .ok :: .storeWord (bcOff n .inn) (stallWord pid) ::
      (if n = 0 then [.setStallArm] else []) := by
  simp only [sendStallMicros, h]

theorem sendStallMicros_fail {n pid : Nat} (h : checkUnsized n pid = .fail) :
    sendStallMicros n pid = [.checkArguments .fail] := by
  simp only [sendStallMicros, h]

theorem length_sourceBytes_le (p : Params) (b : Option RomSeq) (size : Nat) :
    (sourceBytes p b size).length ≤ size := by
  cases b with
  | none => exact Nat.zero_le _
  | some q => exact (length_romSlice p q 0 size).le

theorem sendToHostMicros_inHandler (p : Params) (pid : Nat) (b : Option RomSeq) (size : Nat) :
    ∀ m ∈ sendToHostMicros p 0 pid b size, m.InHandler := by
  intro m hm
  cases check : checkSized 0 pid size with
  | fail => rw [sendToHostMicros_fail b check] at hm; rw [List.mem_singleton.mp hm]; trivial
  | ok =>
    have size_lt : size < 65 := (checkSized_eq_ok.mp check).2.2
    rw [sendToHostMicros_ok b check] at hm
    rcases List.mem_cons.mp hm with rfl | hm
    · trivial
    rcases List.mem_append.mp hm with hm | hm
    · obtain ⟨i, v, hi, rfl⟩ := mem_copyMicros hm
      have := length_sourceBytes_le p b size
      exact ⟨Nat.le_add_right _ _, by omega⟩
    · rw [List.mem_singleton.mp hm]
      refine ⟨⟨.inn, rfl⟩, bcReserved_inWord _ _, ?_⟩
      rw [bcLength_inWord pid (by omega)]
      exact size_lt

theorem prepareOutBufferMicros_inHandler (pid size : Nat) : ∀ m ∈ prepareOutBufferMicros 0 pid size, m.InHandler := by
  intro m hm
  cases check : checkSized 0 pid size with
  | fail => rw [prepareOutBufferMicros_fail check] at hm; rw [List.mem_singleton.mp hm]; trivial
  | ok =>
    have size_lt : size < 65 := (checkSized_eq_ok.mp check).2.2
    rw [prepareOutBufferMicros_ok check] at hm
    rcases List.mem_cons.mp hm with rfl | hm
    · trivial
    · rw [List.mem_singleton.mp hm]
      refine ⟨⟨.out, rfl⟩, bcReserved_outWord _ _, ?_⟩
      rw [bcLength_outWord pid (by omega)]
      exact size_lt

theorem sendStallMicros_inHandler (pid : Nat) : ∀ m ∈ sendStallMicros 0 pid, m.InHandler := by
  intro m hm
  cases check : checkUnsized 0 pid with
  | fail => rw [sendStallMicros_fail check] at hm; rw [List.mem_singleton.mp hm]; trivial
  | ok =>
    rw [sendStallMicros_ok check] at hm
    simp only [if_true] at hm
    rcases List.mem_cons.mp hm with rfl | hm
    · trivial
    rcases List.mem_cons.mp hm with rfl | hm
    · refine ⟨⟨.inn, rfl⟩, bcReserved_stallWord _, ?_⟩
      rw [bcLength_stallWord]
      decide
    · rw [List.mem_singleton.mp hm]; trivial

theorem catalogResultMicros_inHandler (p : Params) (r : CatalogResult) :
    ∀ m ∈ catalogResultMicros p r, m.InHandler := by
  cases r with
  | payload q n => exact sendToHostMicros_inHandler p 1 (some q) n
  | stall => exact sendStallMicros_inHandler 1
  | nothing => intro m hm; cases hm

/-- Whatever a packet decodes to, its handler is made of micro-steps of a handler. -/
theorem handlerMicros_inHandler (p : Params) (i : Instr) : ∀ m ∈ handlerMicros p i, m.InHandler := by
  cases i with
  | setAddress t v x l =>
    intro m hm
    rcases List.mem_cons.mp hm with rfl | hm
    · trivial
    · exact sendToHostMicros_inHandler p 1 none 0 m hm
  | setConfiguration t v x l => exact sendToHostMicros_inHandler p 1 none 0
  | getDescriptor t v x l => exact catalogResultMicros_inHandler p _
  | getDescriptorDevice | getDescriptorConfiguration | getDescriptorString0 | getDescriptorString1
  | getDescriptorString2 | getDescriptorString3 | getDescriptorStringOther | getDescriptorDeviceQualifier
  | getDescriptorHidReport | getDescriptorOther =>
    simp only [handlerMicros]
    exact catalogResultMicros_inHandler p _
  | _ => intro m hm; cases hm

/-- A run of handler micro-steps does not stop. -/
theorem runMicros_completes {l : List Micro} (hl : ∀ m ∈ l, m.InHandler) (s : State) :
    ∃ t, runMicros l s = .next t := by
  induction l generalizing s with
  | nil => exact ⟨s, rfl⟩
  | cons m l ih =>
    obtain ⟨u, hu⟩ := (hl m List.mem_cons_self).completes s
    obtain ⟨t, ht⟩ := ih (fun m' hm' => hl m' (List.mem_cons_of_mem _ hm')) u
    exact ⟨t, by rw [runMicros_cons, hu]; exact ht⟩

/-- What a run of handler micro-steps writes. -/
theorem runMicros_handler_frame {l : List Micro} (hl : ∀ m ∈ l, m.InHandler) {s t : State}
    (h : runMicros l s = .next t) : HandlerFrame s t :=
  runMicros_keeps (P := HandlerFrame s) (fun m hm _ _ hu hv => hu.trans ((hl m hm).frame hv)) (.refl s) h

end Sys2Proof.Machine
end

