-- ==== Sys2Proof/Laws/Engine.lean ====
section
/-! SUPPORT. The Transfer Engine and the catalog in one equation each: the next state of a call, so that no later proof
unfolds the micro-steps. -/

namespace Sys2Proof.Machine

/-! ### The bytes of the ROM -/

@[simp] theorem length_leBytes (h : Half) : (leBytes h).length = 2 := rfl

theorem length_flatMap_leBytes (l : List Half) : (l.flatMap leBytes).length = 2 * l.length := by
  induction l with
  | nil => rfl
  | cons a l ih => simp [ih]; omega

/-- Every sequence of the ROM has its declared length (20_memory.md R64). -/
theorem length_romBytes (p : Params) (q : RomSeq) : (romBytes p q).length = declaredLen p q := by
  cases q with
  | hidr => simp [romBytes, declaredLen, hidReportLen, Nat.add_comm]
  | str1 | str2 | str3 =>
    simp only [romBytes, stringDescriptor, List.length_cons, length_flatMap_leBytes, Vector.length_toList,
      declaredLen]
  | _ => rfl

theorem getD_romSlice (p : Params) (q : RomSeq) (i : Nat) {n k : Nat} (h : k < n) :
    (romSlice p q i n).getD k 0 = romByte p q (i + k) := by
  induction n generalizing i k with
  | zero => omega
  | succ n ih =>
    cases k with
    | zero => rfl
    | succ k =>
      rw [romSlice, List.getD_cons_succ, ih (i + 1) (by omega)]
      congr 1
      omega

/-- Below its declared length a ROM byte is the byte of the sequence. -/
theorem romByte_eq {p : Params} {q : RomSeq} {i : Nat} (h : i < declaredLen p q) :
    romByte p q i = (romBytes p q).getD i 0 := by
  have : i < (romBytes p q).length := by rw [length_romBytes]; exact h
  simp [romByte, List.getD_eq_getElem?_getD, List.getElem?_eq_getElem this]

/-! ### The copy -/

/-- A copy inside the smallest window: its byte stores write the bytes at rising offsets (20_memory.md R68 b). -/
theorem runMicros_copyMicros (bs : List Byte) (s : State) {off : Nat} (h : off + bs.length ≤ Config.windowMin) :
    runMicros (copyMicros off bs) s = .next { s with win := Memory.writeBytes s.win off bs } := by
  induction bs generalizing s off with
  | nil => rfl
  | cons b bs ih =>
    have len : off + 1 + bs.length ≤ Config.windowMin := by
      simp only [List.length_cons] at h; omega
    have first : off + [b].length ≤ Config.windowMin := by
      simp only [List.length_singleton]; omega
    rw [copyMicros, runMicros_cons, microExec, s.storeBytes_next first, Result.andThen_next, ih _ len]
    rfl

/-! ### The primitives (43_transfer_engine.md R181, R182, R184, R186) -/

theorem checkSized_cases (n pid size : Nat) : checkSized n pid size = .ok ∨ checkSized n pid size = .fail := by
  cases checkSized n pid size <;> simp

/-- `sendToHost` with valid arguments. -/
theorem execSendToHost_ok {n pid size : Nat} (h : checkSized n pid size = .ok) (buffer : Option RomSeq) (s : State) :
    execSendToHost n pid buffer size s =
      .next { s with
        indicator := .ok
        win := Memory.write32 (Memory.writeBytes s.win (bufOff n) (sourceBytes s.params buffer size))
          (bcOff n .inn) (inWord size pid) } := by
  obtain ⟨hn, -, hsize⟩ := checkSized_eq_ok.mp h
  have fits : bufOff n + (sourceBytes s.params buffer size).length ≤ Config.windowMin := by
    have := length_sourceBytes_le s.params buffer size
    simp only [bufOff, Config.windowMin, Config.numEndpoints, Config.sizeLimit] at *
    omega
  rw [execSendToHost, sendToHostMicros_ok buffer h, runMicros_cons, microExec, Result.andThen_next, runMicros_append,
    runMicros_copyMicros _ _ fits, Result.andThen_next, runMicros_singleton, microExec]
  exact State.storeWord_bc _ .inn _ hn

/-- `sendToHost` with invalid arguments. -/
theorem execSendToHost_fail {n pid size : Nat} (h : checkSized n pid size = .fail) (buffer : Option RomSeq)
    (s : State) : execSendToHost n pid buffer size s = .next { s with indicator := .fail } := by
  rw [execSendToHost, sendToHostMicros_fail buffer h, runMicros_singleton]
  rfl

/-- `prepareOutBuffer` with valid arguments. -/
theorem execPrepareOutBuffer_ok {n pid size : Nat} (h : checkSized n pid size = .ok) (s : State) :
    execPrepareOutBuffer n pid size s =
      .next { s with indicator := .ok, win := Memory.write32 s.win (bcOff n .out) (outWord size pid) } := by
  obtain ⟨hn, -, -⟩ := checkSized_eq_ok.mp h
  rw [execPrepareOutBuffer, prepareOutBufferMicros_ok h, runMicros_cons, microExec, Result.andThen_next,
    runMicros_singleton, microExec]
  exact State.storeWord_bc _ .out _ hn

/-- `prepareOutBuffer` with invalid arguments. -/
theorem execPrepareOutBuffer_fail {n pid size : Nat} (h : checkSized n pid size = .fail) (s : State) :
    execPrepareOutBuffer n pid size s = .next { s with indicator := .fail } := by
  rw [execPrepareOutBuffer, prepareOutBufferMicros_fail h, runMicros_singleton]
  rfl

/-- `sendStall` with valid arguments: the arm bit only for endpoint 0. -/
theorem execSendStall_ok {n pid : Nat} (h : checkUnsized n pid = .ok) (s : State) :
    execSendStall n pid s =
      .next { s with
        indicator := .ok
        win := Memory.write32 s.win (bcOff n .inn) (stallWord pid)
        stallArmEp0 := if n = 0 then true else s.stallArmEp0 } := by
  obtain ⟨hn, -⟩ := checkUnsized_eq_ok.mp h
  rw [execSendStall, sendStallMicros_ok h, runMicros_cons, microExec, Result.andThen_next, runMicros_cons, microExec,
    State.storeWord_bc _ .inn _ hn, Result.andThen_next]
  by_cases zero : n = 0
  · simp only [zero, if_true, runMicros_singleton, microExec]
  · simp only [zero, if_false, runMicros_nil]

/-- `sendStall` with invalid arguments. -/
theorem execSendStall_fail {n pid : Nat} (h : checkUnsized n pid = .fail) (s : State) :
    execSendStall n pid s = .next { s with indicator := .fail } := by
  rw [execSendStall, sendStallMicros_fail h, runMicros_singleton]
  rfl

/-! ### What a packet's handler runs -/

/-- Every operation a packet decodes to runs exactly the micro-steps of its row. -/
theorem exec_decode (k : SetupPacket) (s : State) : exec (decode k) s = runMicros (handlerMicros s.params (decode k)) s := by
  rw [decode]
  split
  · rw [decodeDescriptor]
    split <;> first | rfl | (rw [decodeString]; split <;> rfl)
  · rw [decodeRequest]
    split <;> rfl

/-- Dispatching a packet is running what it decodes to. -/
theorem exec_dispatch (k : SetupPacket) (s : State) : exec (.dispatch k) s = exec (decode k) s := by
  rw [exec_decode]
  rfl

end Sys2Proof.Machine
end

