-- ==== Sys2Proof/Laws/Step.lean ====
section
/-! SUPPORT. What one step can do, said once: the cases of `step`, of a move of CTRL and of a turn of the SIE, and that the
micro-steps of a phase never stop. -/

namespace Sys2Proof.Machine

/-! ### Runs -/

@[simp] theorem runSteps_zero (s : State) : runSteps 0 s = .next s := rfl

theorem runSteps_succ (k : Nat) (s : State) : runSteps (k + 1) s = Result.andThen (step s) (runSteps k) := rfl

theorem runSteps_add (j k : Nat) (s : State) : runSteps (j + k) s = (runSteps j s).andThen (runSteps k) := by
  induction j generalizing s with
  | zero => simp
  | succ j ih =>
    rw [Nat.succ_add, runSteps_succ, runSteps_succ, Result.andThen_assoc]
    congr 1
    funext t
    exact ih t

/-- One more step at the front of a run. -/
theorem runSteps_of_step {k : Nat} {s t u : State} (h : step s = .next t) (h' : runSteps k t = .next u) :
    runSteps (k + 1) s = .next u := by
  rw [runSteps_succ, h]; exact h'

/-! ### The three effects of the Transfer Engine, as claims state them -/

theorem bufOff_clear (n m : Nat) (d : Dir) (h : n < 16) : bcOff n d + 4 ≤ bufOff m := by
  have := bcOff_lt d h
  simp only [bufOff]
  omega

/-- Copied bytes and then the word: `SendsIn`. -/
theorem sendsIn_of_stores {n p size : Nat} (hn : n < 16) (hp : p < 2) (hs : size < 65) (bytes : List Byte) (s : State) :
    SendsIn n p bytes size s
      { s with indicator := .ok,
               win := Memory.write32 (Memory.writeBytes s.win (bufOff n) bytes) (bcOff n .inn) (inWord size p) } := by
  have apart := bufOff_clear n n .inn hn
  refine ⟨rfl, ?_, ?_, ?_⟩
  · rw [← inWord_eq_ofNat hp hs]
    exact Memory.read32_write32 _ _ _
  · intro i hi
    simp only [State.winByte]
    rw [Memory.read_write32_outside _ (by omega), Memory.read_writeBytes, if_pos ⟨by omega, by omega⟩]
    congr 1
    omega
  · intro a ha hb
    simp only [State.winByte]
    rw [Memory.read_write32_outside _ ha, Memory.read_writeBytes_outside _ hb]

theorem armsOut_of_store {n p size : Nat} (hp : p < 2) (hs : size < 65) (s : State) :
    ArmsOut n p size s { s with indicator := .ok, win := Memory.write32 s.win (bcOff n .out) (outWord size p) } :=
  ⟨rfl, by rw [← outWord_eq_ofNat hp hs]; exact Memory.read32_write32 _ _ _,
    fun _ ha => Memory.read_write32_outside _ ha⟩

theorem stallsIn_of_store {n p : Nat} (hp : p < 2) (s : State) :
    StallsIn n p s
      { s with indicator := .ok, win := Memory.write32 s.win (bcOff n .inn) (stallWord p),
               stallArmEp0 := if n = 0 then true else s.stallArmEp0 } :=
  ⟨rfl, by rw [← stallWord_eq_ofNat hp]; exact Memory.read32_write32 _ _ _,
    fun _ ha => Memory.read_write32_outside _ ha⟩

/-- Up to its declared length a slice of a sequence is the start of the sequence. -/
theorem romSlice_eq_take {p : Params} {q : RomSeq} {n : Nat} (h : n ≤ declaredLen p q) :
    romSlice p q 0 n = (romBytes p q).take n := by
  apply List.ext_getElem?
  intro i
  by_cases hi : i < n
  · have inside : i < (romBytes p q).length := by rw [length_romBytes]; omega
    have := getD_romSlice p q 0 hi
    rw [List.getD_eq_getElem?_getD, List.getElem?_eq_getElem (by simpa using hi), Option.getD_some, Nat.zero_add] at this
    rw [List.getElem?_take_of_lt hi, List.getElem?_eq_getElem inside, List.getElem?_eq_getElem (by simpa using hi), this,
      romByte, List.getElem?_eq_getElem inside, Option.getD_some]
  · rw [List.getElem?_eq_none (by simpa using hi), List.getElem?_eq_none (by simp; omega)]

/-! ### The micro-steps of a phase -/

/-- Where a micro-step stores, it stores inside the smallest window, a word at a multiple of 4. -/
def Micro.Fits : Micro → Prop
  | .storeByte off _ => off + 1 ≤ Config.windowMin
  | .storeWord off _ => off % 4 = 0 ∧ off + 4 ≤ Config.windowMin
  | _ => True

theorem Micro.InHandler.fits {m : Micro} (h : m.InHandler) : m.Fits := by
  cases m with
  | storeByte off v =>
    simp only [Micro.InHandler, bufOff] at h
    simp only [Micro.Fits, Config.windowMin]
    omega
  | storeWord off w =>
    obtain ⟨⟨d, rfl⟩, -⟩ := h
    have := bcOff_lt (n := 0) d (by decide)
    exact ⟨bcOff_aligned 0 d, by simp only [Config.windowMin]; omega⟩
  | _ => trivial

/-- A micro-step that fits does not stop. -/
theorem Micro.Fits.completes {m : Micro} (h : m.Fits) (s : State) : ∃ t, microExec m s = .next t := by
  cases m with
  | sampleFlags =>
    simp only [microExec]
    split <;> exact ⟨_, rfl⟩
  | loadSetupByte i =>
    refine ⟨{ s with pkt := s.pkt.setByte i (Memory.read s.win (Config.setupOff + i.val)) },
      State.loadIntoLatch_eq_next.mpr ⟨inWindow_of_le ?_, rfl⟩⟩
    simp only [Config.setupOff, Config.windowMin]
    omega
  | storeByte off v => exact ⟨_, s.storeBytes_next h⟩
  | storeWord off w => exact ⟨_, s.storeWord_next w h.1 h.2⟩
  | _ => exact ⟨_, rfl⟩

theorem runMicros_completes_of_fits {l : List Micro} (hl : ∀ m ∈ l, m.Fits) (s : State) :
    ∃ t, runMicros l s = .next t := by
  induction l generalizing s with
  | nil => exact ⟨s, rfl⟩
  | cons m l ih =>
    obtain ⟨u, hu⟩ := (hl m List.mem_cons_self).completes s
    obtain ⟨t, ht⟩ := ih (fun m' hm' => hl m' (List.mem_cons_of_mem _ hm')) u
    exact ⟨t, by rw [runMicros_cons, hu]; exact ht⟩

/-- The micro-steps of a phase are those of a handler, at A4 and E5, or the few the phase table lists. -/
theorem phaseMicros_fits (p : Phase) (s : State) : ∀ m ∈ phaseMicros p s, m.Fits := by
  cases p with
  | a4 => exact fun m hm => (handlerMicros_inHandler _ _ m hm).fits
  | e5 => exact fun m hm => (prepareOutBufferMicros_inHandler 1 0 m hm).fits
  | a2 => intro m hm; simp only [phaseMicros, loadSetupMicros, List.mem_cons, List.not_mem_nil, or_false] at hm
          rcases hm with rfl | rfl | rfl | rfl | rfl | rfl | rfl | rfl <;> trivial
  | b0 | c0 | e0 | x => intro m hm; cases hm
  | _ => intro m hm; rw [List.mem_singleton.mp hm]; trivial

/-- A phase never stops (60_exceptions.md R220). -/
theorem runPhase_completes (p : Phase) (s : State) : ∃ t, runPhase p s = .next t :=
  runMicros_completes_of_fits (phaseMicros_fits p s) s

/-- The micro-steps of a phase depend only on the parameters and, at A4, on the latch. -/
theorem phaseMicros_congr {p : Phase} {s t : State} (params : t.params = s.params) (pkt : t.pkt = s.pkt) :
    phaseMicros p t = phaseMicros p s := by
  cases p <;> simp only [phaseMicros, params, pkt]

@[simp] theorem phaseMicros_setSched (p : Phase) (s : State) (l : List Turn) :
    phaseMicros p (s.setSched l) = phaseMicros p s := phaseMicros_congr rfl rfl

@[simp] theorem phaseMicros_setSeq (p : Phase) (s : State) (q : Seq) :
    phaseMicros p (s.setSeq q) = phaseMicros p s := phaseMicros_congr rfl rfl

/-- Only the eight loads of A2, the handler of A4 and the primitive of E5 are more than one micro-step. -/
theorem one_lt_length_phaseMicros {p : Phase} {s : State} (h : 1 < (phaseMicros p s).length) :
    p = .a2 ∨ p = .a4 ∨ p = .e5 := by
  cases p <;> simp [phaseMicros] at h ⊢

/-- A whole phase is the run of its micro-steps: at A4 the operation the latch decodes to, at E5 the re-arming. -/
theorem wholePhase_eq_runPhase (p : Phase) (s : State) : wholePhase p s = runPhase p s := by
  cases p with
  | a4 => exact exec_decode s.pkt s
  | _ => rfl

/-! ### Moving the sequencer on -/

/-- The sequencer never moves on into the middle of a phase, and phase X ends the entry. -/
theorem State.advance_eq (p : Phase) (s : State) : s.advance p = s.setSeq (nextSeq p s) := by
  rw [State.advance]
  split
  · rename_i h; rw [h]; rfl
  · rfl

theorem nextSeq_cases (p : Phase) (s : State) : nextSeq p s = .idle ∨ ∃ q, nextSeq p s = .phase q := by
  cases p <;> simp only [nextSeq] <;>
    first | exact .inr ⟨_, rfl⟩ | (split <;> exact .inr ⟨_, rfl⟩) | exact .inl trivial

theorem nextSeq_setSeq (p : Phase) (s : State) (q : Seq) : nextSeq p (s.setSeq q) = nextSeq p s := by
  cases p <;> rfl

theorem nextSeq_setSched (p : Phase) (s : State) (l : List Turn) : nextSeq p (s.setSched l) = nextSeq p s := by
  cases p <;> rfl

/-! ### A move of CTRL -/

/-- CTRL at IDLE. -/
theorem idleTurn_cases (s : State) : idleTurn s = s ∨ idleTurn s = s.setSeq (.phase .a0) := by
  rw [idleTurn]
  split
  · exact .inr rfl
  · exact .inl rfl

/-- CTRL does some of the micro-steps that are left of phase `p` and keeps the rest, or moves on after the last. -/
def CtrlMove (s t : State) : Prop :=
  ∃ p front back u, (s.seq = .phase p ∧ phaseMicros p s = front ++ back ∨ s.seq = .inside p (front ++ back)) ∧
    runMicros front s = .next u ∧
    (back = [] ∧ t = u.advance p ∨ front ≠ [] ∧ back ≠ [] ∧ t = u.setSeq (.inside p back))

theorem ctrlWhole_cases {s t : State} (h : ctrlWhole s = .next t) :
    (s.seq = .idle ∧ t = idleTurn s) ∨ CtrlMove s t := by
  rw [ctrlWhole] at h
  split at h
  · rename_i e; cases h; exact .inl ⟨e, rfl⟩
  · rename_i p e
    rw [wholePhase_eq_runPhase] at h
    obtain ⟨u, hu, rfl⟩ := Result.mapNext_eq_next.mp h
    exact .inr ⟨p, phaseMicros p s, [], u, .inl ⟨e, (List.append_nil _).symm⟩, hu, .inl ⟨rfl, rfl⟩⟩
  · rename_i p rest e
    obtain ⟨u, hu, rfl⟩ := Result.mapNext_eq_next.mp h
    exact .inr ⟨p, rest, [], u, .inr (by rw [List.append_nil]; exact e), hu, .inl ⟨rfl, rfl⟩⟩

theorem firstMicro_cases {p : Phase} {todo : List Micro} {s t : State} (h : firstMicro p todo s = .next t) :
    ∃ front back u, todo = front ++ back ∧ runMicros front s = .next u ∧
      (back = [] ∧ t = u.advance p ∨ front ≠ [] ∧ back ≠ [] ∧ t = u.setSeq (.inside p back)) := by
  rw [firstMicro.eq_def] at h
  split at h
  · cases h; exact ⟨[], [], s, rfl, rfl, .inl ⟨rfl, rfl⟩⟩
  · rename_i m
    obtain ⟨u, hu, rfl⟩ := Result.mapNext_eq_next.mp h
    exact ⟨[m], [], u, rfl, by rw [runMicros_singleton]; exact hu, .inl ⟨rfl, rfl⟩⟩
  · rename_i m rest last
    obtain ⟨u, hu, rfl⟩ := Result.mapNext_eq_next.mp h
    refine ⟨[m], rest, u, rfl, by rw [runMicros_singleton]; exact hu, .inr ⟨by simp, ?_, rfl⟩⟩
    rintro rfl
    exact last rfl

theorem ctrlMicro_cases {s t : State} (h : ctrlMicro s = .next t) :
    (s.seq = .idle ∧ t = idleTurn s) ∨ CtrlMove s t := by
  rw [ctrlMicro] at h
  split at h
  · rename_i e; cases h; exact .inl ⟨e, rfl⟩
  · rename_i p e
    obtain ⟨front, back, u, todo, run, next⟩ := firstMicro_cases h
    exact .inr ⟨p, front, back, u, .inl ⟨e, todo⟩, run, next⟩
  · rename_i p rest e
    obtain ⟨front, back, u, rfl, run, next⟩ := firstMicro_cases h
    exact .inr ⟨p, front, back, u, .inr e, run, next⟩

/-- In a state whose position is one inside its phase, the micro-steps done and left are some of the phase's. -/
theorem State.seqOk.micros {s : State} (ok : s.seqOk) {p : Phase} {front back : List Micro}
    (h : s.seq = .phase p ∧ phaseMicros p s = front ++ back ∨ s.seq = .inside p (front ++ back)) :
    ∃ before, before ++ front ++ back = phaseMicros p s := by
  rcases h with ⟨-, e⟩ | e
  · exact ⟨[], e.symm⟩
  · simp only [State.seqOk, e] at ok
    obtain ⟨-, before, -, whole⟩ := ok
    exact ⟨before, by rw [List.append_assoc]; exact whole⟩

/-! ### A turn of the SIE, and one step -/

theorem sieTurn_cases {a : DevAddr} {i : Instr} {s t : State} (h : sieTurn a i s = .next t) :
    i.format = .env ∧ (t = s ∨ exec i s = .next t) := by
  rw [sieTurn] at h
  split at h
  · rename_i e
    refine ⟨e, ?_⟩
    split at h
    · cases h; exact .inl rfl
    · exact .inr h
  all_goals cases h

/-- What one step can do when it answers a next state. -/
theorem step_cases {s t : State} (h : step s = .next t) :
    ∃ rest, (s.sched = [] ∧ rest = [] ∨ ∃ turn, s.sched = turn :: rest) ∧
      ((s.seq = .idle ∧ t = idleTurn (s.setSched rest) ∧ s.sieWaits) ∨
       (CtrlMove (s.setSched rest) t ∧ s.sieWaits) ∨
       (∃ a i, s.sched = .sie a i :: rest ∧ i.format = .env ∧
         (t = s.setSched rest ∨ exec i (s.setSched rest) = .next t)) ∨
       (∃ w, s.sched = .boot w :: rest ∧ t = (s.setSched rest).bootWrite w)) := by
  rw [step] at h
  split at h
  · rename_i e
    have waits : s.sieWaits := fun u r h' => by rw [e] at h'; cases h'
    have same : s.setSched [] = s := by rw [← e]; exact s.setSched_self
    refine ⟨[], .inl ⟨e, rfl⟩, ?_⟩
    rw [same]
    rcases ctrlWhole_cases h with ⟨q, rfl⟩ | move
    · exact .inl ⟨q, rfl, waits⟩
    · exact .inr (.inl ⟨move, waits⟩)
  · rename_i rest e
    have waits : s.sieWaits := fun u r h' => by rw [e] at h'; cases h'; rfl
    refine ⟨rest, .inr ⟨_, e⟩, ?_⟩
    rcases ctrlMicro_cases h with ⟨q, rfl⟩ | move
    · exact .inl ⟨q, rfl, waits⟩
    · exact .inr (.inl ⟨move, waits⟩)
  · rename_i a i rest e
    obtain ⟨env, out⟩ := sieTurn_cases h
    exact ⟨rest, .inr ⟨_, e⟩, .inr (.inr (.inl ⟨a, i, e, env, out⟩))⟩
  · rename_i w rest e
    cases h
    exact ⟨rest, .inr ⟨_, e⟩, .inr (.inr (.inr ⟨w, e, rfl⟩))⟩

/-- With no turn to come, a step is the whole rest of the phase. -/
theorem step_of_no_turn {s : State} (h : s.sched = []) : step s = ctrlWhole s := by rw [step, h]

theorem step_of_ctrl {s : State} {rest : List Turn} (h : s.sched = .ctrl :: rest) :
    step s = ctrlMicro (s.setSched rest) := by rw [step, h]

theorem ctrlMicro_phase {s : State} {p : Phase} (h : s.seq = .phase p) :
    ctrlMicro s = firstMicro p (phaseMicros p s) s := by rw [ctrlMicro, h]

theorem ctrlMicro_inside {s : State} {p : Phase} {left : List Micro} (h : s.seq = .inside p left) :
    ctrlMicro s = firstMicro p left s := by rw [ctrlMicro, h]

/-- At IDLE a turn of CTRL and a step with no turn to come do the same: start an entry or wait. -/
theorem step_of_idle {s : State} {rest : List Turn} (idle : s.seq = .idle)
    (turns : s.sched = [] ∧ rest = [] ∨ s.sched = .ctrl :: rest) : step s = .next (idleTurn (s.setSched rest)) := by
  rcases turns with ⟨e, rfl⟩ | e
  · rw [step_of_no_turn e, ctrlWhole, idle, ← e, s.setSched_self]
  · rw [step_of_ctrl e, ctrlMicro, show (s.setSched rest).seq = .idle from idle]

theorem ctrlWhole_phase {s : State} {p : Phase} (h : s.seq = .phase p) :
    ctrlWhole s = (runPhase p s).mapNext (State.advance p) := by
  rw [ctrlWhole, h]
  exact congrArg (Result.mapNext · _) (wholePhase_eq_runPhase p s)

/-- With no turn to come, a step runs a phase and moves the sequencer on. -/
theorem step_of_phase {s u : State} {p : Phase} (turns : s.sched = []) (seq : s.seq = .phase p)
    (run : runPhase p s = .next u) : step s = .next (u.setSeq (nextSeq p u)) := by
  rw [step_of_no_turn turns, ctrlWhole_phase seq, run, Result.mapNext_next, State.advance_eq]

end Sys2Proof.Machine
end

