-- ==== Sys2Proof/Laws/Env.lean ====
section
/-! SUPPORT. Each move of the SIE said once: when it answers a next state, and which one. -/

namespace Sys2Proof.Machine

theorem inWindow_iff {p : Params} {off n : Nat} : inWindow p off n = true ↔ n = 0 ∨ off + n ≤ windowSize p := by
  simp [inWindow]

theorem windowMin_le (p : Params) : Config.windowMin ≤ windowSize p := Nat.le_add_right _ _

/-- The guard of a completed IN packet, in words. -/
theorem inDoneGuard_iff {s : State} {n : Endpoint} :
    inDoneGuard s n = true ↔
      bcAvailable (s.bc n .inn) = true ∧ bcStall (s.bc n .inn) = false ∧ bcFull (s.bc n .inn) = true := by
  simp [inDoneGuard, and_assoc]

/-- The guard of an accepted OUT packet, in words. -/
theorem outDoneGuard_iff {s : State} {n : Endpoint} {pid : Bool} {k : Nat} :
    outDoneGuard s n pid k = true ↔
      bcAvailable (s.bc n .out) = true ∧ bcStall (s.bc n .out) = false ∧ k ≤ bcLength (s.bc n .out) ∧
      (s.params.outPidCheck = .ignore ∨ pid = bcPid (s.bc n .out)) := by
  simp only [outDoneGuard, Bool.and_eq_true, Bool.not_eq_true', decide_eq_true_eq, and_assoc]
  cases s.params.outPidCheck <;> simp

/-- The guard of a STALL answer, in words. -/
theorem stallGuard_iff {s : State} {n : Endpoint} :
    stallGuard s n = true ↔
      bcAvailable (s.bc n .inn) = true ∧ bcStall (s.bc n .inn) = true ∧ (n ≠ 0 ∨ s.stallArmEp0 = true) := by
  simp [stallGuard, and_assoc]

theorem execEnvSetup_eq (bytes : Vector Byte 8) (s : State) :
    execEnvSetup bytes s = .next { s with
      win := Memory.writeBytes s.win Config.setupOff bytes.toList, setupRec := true, stallArmEp0 := false } := by
  rw [execEnvSetup, s.storeBytes_next (by rw [Vector.length_toList]; decide)]
  rfl

theorem execEnvNoBuffer_eq_next {n : Endpoint} {d : Dir} {s t : State} (h : execEnvNoBuffer n d s = .next t) :
    bcReserved (s.bc n d) = false ∧ noBufferGuard s n d = true ∧ t = { s with wire := .nak n d :: s.wire } := by
  rw [execEnvNoBuffer] at h
  split at h
  · cases h
  · rename_i r
    split at h
    · rename_i g; cases h; exact ⟨by simpa using r, g, rfl⟩
    · cases h

theorem execEnvInDone_eq_next {n : Endpoint} {b : Bool} {s t : State} (h : execEnvInDone n b s = .next t) :
    bcReserved (s.bc n .inn) = false ∧ inDoneGuard s n = true ∧
    inWindow s.params (bufOff n) (bcLength (s.bc n .inn)) = true ∧
    t = { s with
      win := Memory.write32 s.win (bcOff n .inn) (inDoneWord (s.bc n .inn) b)
      epIn := s.epIn.set n.val true n.isLt
      wire := .data n (bcPid (s.bc n .inn)) (inPayload s n) :: s.wire } := by
  rw [execEnvInDone] at h
  split at h
  · cases h
  · rename_i r
    split at h
    · rename_i g
      split at h
      · rename_i w
        rw [State.storeWord_bc _ _ _ n.isLt] at h
        cases h
        exact ⟨by simpa using r, g, w, rfl⟩
      · cases h
    · cases h

theorem execEnvOutDone_eq_next {n : Endpoint} {p : Bool} {data : List Byte} {s t : State}
    (h : execEnvOutDone n p data s = .next t) :
    bcReserved (s.bc n .out) = false ∧ outDoneGuard s n p data.length = true ∧
    inWindow s.params (bufOff n) data.length = true ∧
    t = { s with
      win := Memory.write32 (Memory.writeBytes s.win (bufOff n) data) (bcOff n .out)
        (outDoneWord (s.bc n .out) data.length)
      epOut := s.epOut.set n.val true n.isLt } := by
  rw [execEnvOutDone] at h
  split at h
  · cases h
  · rename_i r
    split at h
    · rename_i g
      obtain ⟨u, hu, h⟩ := Result.andThen_eq_next.mp h
      obtain ⟨w, rfl⟩ := State.storeBytes_eq_next.mp hu
      rw [State.storeWord_bc _ _ _ n.isLt] at h
      cases h
      exact ⟨by simpa using r, g, w, rfl⟩
    · cases h

theorem execEnvStall_eq_next {n : Endpoint} {s t : State} (h : execEnvStall n s = .next t) :
    bcReserved (s.bc n .inn) = false ∧ stallGuard s n = true ∧
    t = { s with stallArmEp0 := if n = 0 then false else s.stallArmEp0, wire := .stall n :: s.wire } := by
  rw [execEnvStall] at h
  split at h
  · cases h
  · rename_i r
    split at h
    · rename_i g; cases h; exact ⟨by simpa using r, g, rfl⟩
    · cases h

/-- The length field is below 1024 (30_encoding.md R95). -/
theorem bcLength_lt (w : Word) : bcLength w < 1024 := (w.extractLsb' 0 10).isLt

/-- What no move of the SIE touches (44_sie_environment.md R207). -/
def SieFrame (s t : State) : Prop :=
  t = { s with
    win := t.win, setupRec := t.setupRec, busReset := t.busReset, epIn := t.epIn, epOut := t.epOut
    stallArmEp0 := t.stallArmEp0, wire := t.wire }

/-- Every operation of format ENV, when it answers a next state: what it writes. -/
theorem exec_env_cases {i : Instr} {s t : State} (env : i.format = .env) (h : exec i s = .next t) :
    (∃ bytes, i = .envSetup bytes ∧ t = { s with
      win := Memory.writeBytes s.win Config.setupOff bytes.toList, setupRec := true, stallArmEp0 := false }) ∨
    (i = .envBusReset ∧ t = { s with busReset := true }) ∨
    (∃ n d, i = .envNoBuffer n d ∧ t = { s with wire := .nak n d :: s.wire }) ∨
    (∃ n b, i = .envInDone n b ∧ execEnvInDone n b s = .next t) ∨
    (∃ n p data, i = .envOutDone n p data ∧ execEnvOutDone n p data s = .next t) ∨
    (∃ n, i = .envStall n ∧ execEnvStall n s = .next t) := by
  cases i with
  | envSetup bytes =>
    have e : execEnvSetup bytes s = .next t := h
    rw [execEnvSetup_eq] at e
    cases e
    exact .inl ⟨bytes, rfl, rfl⟩
  | envBusReset => cases h; exact .inr (.inl ⟨rfl, rfl⟩)
  | envNoBuffer n d => exact .inr (.inr (.inl ⟨n, d, rfl, (execEnvNoBuffer_eq_next h).2.2⟩))
  | envInDone n b => exact .inr (.inr (.inr (.inl ⟨n, b, rfl, h⟩)))
  | envOutDone n p data => exact .inr (.inr (.inr (.inr (.inl ⟨n, p, data, rfl, h⟩))))
  | envStall n => exact .inr (.inr (.inr (.inr (.inr ⟨n, rfl, h⟩))))
  | _ => cases env

theorem exec_env_frame {i : Instr} {s t : State} (env : i.format = .env) (h : exec i s = .next t) : SieFrame s t := by
  rcases exec_env_cases env h with ⟨b, -, rfl⟩ | ⟨-, rfl⟩ | ⟨n, d, -, rfl⟩ | ⟨n, b, -, e⟩ | ⟨n, p, l, -, e⟩ | ⟨n, -, e⟩
  · rfl
  · rfl
  · rfl
  · obtain ⟨-, -, -, rfl⟩ := execEnvInDone_eq_next e; rfl
  · obtain ⟨-, -, -, rfl⟩ := execEnvOutDone_eq_next e; rfl
  · obtain ⟨-, -, rfl⟩ := execEnvStall_eq_next e; rfl

end Sys2Proof.Machine
end

