-- ==== Sys2Proof/Laws/Events.lean ====
section
/-! SUPPORT. The event branches and the catalog call in one equation each. -/

namespace Sys2Proof.Machine

/-- Phase E5 re-arms BC[0][OUT]. -/
theorem runPhase_e5 (s : State) :
    runPhase .e5 s = .next { s with indicator := .ok, win := Memory.write32 s.win (bcOff 0 .out) (outWord 0 1) } :=
  execPrepareOutBuffer_ok (n := 0) (pid := 1) (size := 0) rfl s

/-- EV_EP0_IN, whole (40_event_adapter.md R130). -/
theorem execEvEp0In_eq (s : State) :
    execEvEp0In s = .next { s with
      epIn := s.epIn.set 0 false
      ep0InCount := s.ep0InCount + 1
      addr := if s.pendingAddress = 0 then s.addr else s.pendingAddress
      address := if s.pendingAddress = 0 then s.address else s.pendingAddress
      pendingAddress := 0
      indicator := .ok
      win := Memory.write32 s.win (bcOff 0 .out) (outWord 0 1) } := by
  have front (p : Phase) (rest : List Phase) (u v : State) (h : runPhase p u = .next v) :
      runPhases (p :: rest) u = runPhases rest v := by rw [runPhases, h]; rfl
  rw [execEvEp0In, front .e1 _ _ _ rfl, front .e2 _ _ _ rfl, front .e3 _ _ _ rfl, front .e4 _ _ _ rfl,
    front .e5 _ _ _ (runPhase_e5 _)]
  rfl

/-- Phase A2 loads the latch from the window, in place of whatever it held (40_event_adapter.md R123). -/
theorem runPhase_a2 (s : State) :
    runPhase .a2 s = .next { s with
      pkt := SetupPacket.ofBytes (s.winByte 0) (s.winByte 1) (s.winByte 2) (s.winByte 3) (s.winByte 4) (s.winByte 5)
        (s.winByte 6) (s.winByte 7) } := by
  have load (i : Fin 8) (u : State) : microExec (.loadSetupByte i) u =
      .next { u with pkt := u.pkt.setByte i (Memory.read u.win i.val) } := by
    refine State.loadIntoLatch_eq_next.mpr ⟨inWindow_of_le ?_, by simp [Config.setupOff]⟩
    simp only [Config.setupOff, Config.windowMin]
    omega
  simp only [runPhase, phaseMicros, loadSetupMicros, runMicros_cons, load, Result.andThen_next, runMicros_nil]
  congr 2
  exact SetupPacket.setByte_all _ _ _ _ _ _ _ _ _

theorem State.appendTrace_params (s : State) : s.appendTrace.params = s.params := by
  rcases s.appendTrace_cases with ⟨-, e⟩ | ⟨-, -, -, e⟩ | ⟨-, -, e⟩ <;> rw [e]

theorem State.appendTrace_pkt (s : State) : s.appendTrace.pkt = s.pkt := by
  rcases s.appendTrace_cases with ⟨-, e⟩ | ⟨-, -, -, e⟩ | ⟨-, -, e⟩ <;> rw [e]

/-- EV_SETUP, whole: the dispatch of the packet in the window, after the trace append (40_event_adapter.md R123 to R125). -/
theorem execEvSetup_eq (s : State) (k : SetupPacket)
    (read : SetupPacket.ofBytes (s.winByte 0) (s.winByte 1) (s.winByte 2) (s.winByte 3) (s.winByte 4) (s.winByte 5)
      (s.winByte 6) (s.winByte 7) = k) :
    execEvSetup s = exec (.dispatch k) (State.appendTrace { s with setupRec := false, pkt := k }) := by
  have a2 := runPhase_a2 { s with setupRec := false }
  simp only [State.winByte] at a2 read
  rw [read] at a2
  have chain : execEvSetup s = (runPhase .a2 { s with setupRec := false }).andThen (runPhases [.a3, .a4]) := rfl
  rw [chain, a2, Result.andThen_next]
  have pkt := State.appendTrace_pkt { s with setupRec := false, pkt := k }
  generalize hu : State.appendTrace { s with setupRec := false, pkt := k } = u at pkt ⊢
  have a3 : runPhases [.a3, .a4] { s with setupRec := false, pkt := k } = (runPhase .a4 u).andThen .next := by
    rw [← hu]; rfl
  rw [a3, runPhase, phaseMicros, pkt]
  obtain ⟨t, ht⟩ := runMicros_completes (handlerMicros_inHandler u.params (decode k)) u
  rw [show exec (.dispatch k) u = .next t from ht, dispatchMicros, ht]
  rfl

/-- The catalog call runs the operation of the descriptor row its operands select (42_descriptor_catalog.md R160). -/
theorem exec_catalog (t d x : Byte) (i l : Half) (s : State) :
    exec (.catalog d x l) s = exec (decodeDescriptor t d x i l) s := by
  change runMicros (catalogMicros s.params d x l) s = _
  rw [decodeDescriptor]
  split
  case h_3 h =>
    rw [decodeString]
    split
    case h_5 h0 h1 h2 h3 =>
      rw [catalogMicros, catalogResult.eq_def]
      simp only [h]
      rfl
    all_goals (rename_i h'; simp only [catalogMicros, catalogResult, h, h']; rfl)
  case h_6 h1 h2 h3 h4 h5 =>
    rw [catalogMicros, catalogResult.eq_def]
    split <;> first | rfl | contradiction
  all_goals (rename_i h; simp only [catalogMicros, catalogResult, h]; rfl)

end Sys2Proof.Machine
end

