-- ==== Sys2Proof/Laws/Handlers.lean ====
section
/-! SUPPORT. What the handler of a packet can write (40_event_adapter.md R125): of the words only BC[0][IN], of the bytes only
the data buffer of endpoint 0; and which phase stores where. -/

namespace Sys2Proof.Machine

/-- A micro-step stores a word, if it stores one, only to BC[0][IN]. -/
def Micro.WordIn : Micro → Prop
  | .storeWord off _ => off = bcOff 0 .inn
  | _ => True

theorem sendToHostMicros_wordIn (p : Params) (pid : Nat) (b : Option RomSeq) (size : Nat) :
    ∀ m ∈ sendToHostMicros p 0 pid b size, m.WordIn := by
  intro m hm
  cases check : checkSized 0 pid size with
  | fail => rw [sendToHostMicros_fail b check] at hm; rw [List.mem_singleton.mp hm]; trivial
  | ok =>
    rw [sendToHostMicros_ok b check] at hm
    rcases List.mem_cons.mp hm with rfl | hm
    · trivial
    rcases List.mem_append.mp hm with hm | hm
    · obtain ⟨i, v, -, rfl⟩ := mem_copyMicros hm; trivial
    · rw [List.mem_singleton.mp hm]; rfl

theorem sendStallMicros_wordIn (pid : Nat) : ∀ m ∈ sendStallMicros 0 pid, m.WordIn := by
  intro m hm
  cases check : checkUnsized 0 pid with
  | fail => rw [sendStallMicros_fail check] at hm; rw [List.mem_singleton.mp hm]; trivial
  | ok =>
    rw [sendStallMicros_ok check, if_pos rfl] at hm
    rcases List.mem_cons.mp hm with rfl | hm
    · trivial
    rcases List.mem_cons.mp hm with rfl | hm
    · rfl
    · rw [List.mem_singleton.mp hm]; trivial

theorem catalogResultMicros_wordIn (p : Params) (r : CatalogResult) : ∀ m ∈ catalogResultMicros p r, m.WordIn := by
  cases r with
  | payload q n => exact sendToHostMicros_wordIn p 1 (some q) n
  | stall => exact sendStallMicros_wordIn 1
  | nothing => intro m hm; cases hm

theorem handlerMicros_wordIn (p : Params) (i : Instr) : ∀ m ∈ handlerMicros p i, m.WordIn := by
  cases i with
  | setAddress t v x l =>
    intro m hm
    rcases List.mem_cons.mp hm with rfl | hm
    · trivial
    · exact sendToHostMicros_wordIn p 1 none 0 m hm
  | setConfiguration t v x l => exact sendToHostMicros_wordIn p 1 none 0
  | getDescriptor t v x l => exact catalogResultMicros_wordIn p _
  | getDescriptorDevice | getDescriptorConfiguration | getDescriptorString0 | getDescriptorString1
  | getDescriptorString2 | getDescriptorString3 | getDescriptorStringOther | getDescriptorDeviceQualifier
  | getDescriptorHidReport | getDescriptorOther =>
    simp only [handlerMicros]
    exact catalogResultMicros_wordIn p _
  | _ => intro m hm; cases hm

/-- What a run of a handler leaves alone in the window; it never clears the arm bit. -/
theorem runMicros_handler_window {l : List Micro} (hl : ∀ m ∈ l, m.InHandler) (hw : ∀ m ∈ l, m.WordIn) {s t : State}
    (h : runMicros l s = .next t) :
    (s.stallArmEp0 = true → t.stallArmEp0 = true) ∧
    ∀ a, Outside (bcOff 0 .inn) 4 a → Outside (bufOff 0) 64 a → t.winByte a = s.winByte a := by
  refine runMicros_keeps (P := fun u => (s.stallArmEp0 = true → u.stallArmEp0 = true) ∧
    ∀ a, Outside (bcOff 0 .inn) 4 a → Outside (bufOff 0) 64 a → u.winByte a = s.winByte a)
    ?_ ⟨id, fun _ _ _ => rfl⟩ h
  intro m hm u v hu hv
  have inside := hl m hm
  cases m with
  | storeByte off b =>
    obtain ⟨-, rfl⟩ := State.storeBytes_eq_next.mp hv
    refine ⟨hu.1, fun a h1 h2 => ?_⟩
    rw [← hu.2 a h1 h2]
    simp only [Micro.InHandler, Outside] at inside h2
    exact Memory.read_writeBytes_outside _ (by rw [List.length_singleton]; omega)
  | storeWord off w =>
    obtain ⟨-, -, rfl⟩ := State.storeWord_eq_next.mp hv
    refine ⟨hu.1, fun a h1 h2 => ?_⟩
    rw [← hu.2 a h1 h2]
    have : off = bcOff 0 .inn := hw _ hm
    subst this
    exact Memory.read_write32_outside _ h1
  | checkArguments | storePending => cases hv; exact hu
  | setStallArm => cases hv; exact ⟨fun _ => rfl, hu.2⟩
  | _ => exact inside.elim

/-- A micro-step does not store to the byte at `a`. -/
def Micro.Leaves (a : Nat) : Micro → Prop
  | .storeByte off _ => a ≠ off
  | .storeWord off _ => Outside off 4 a
  | _ => True

theorem microExec_leaves {m : Micro} {a : Nat} (hm : m.Leaves a) {s t : State} (h : microExec m s = .next t) :
    t.winByte a = s.winByte a := by
  cases m with
  | storeByte off v =>
    obtain ⟨-, rfl⟩ := State.storeBytes_eq_next.mp h
    refine Memory.read_writeBytes_outside _ ?_
    simp only [Micro.Leaves] at hm
    rw [List.length_singleton]
    omega
  | storeWord off w => obtain ⟨-, -, rfl⟩ := State.storeWord_eq_next.mp h; exact Memory.read_write32_outside _ hm
  | sampleFlags => simp only [microExec] at h; split at h <;> cases h <;> rfl
  | loadSetupByte i => obtain ⟨-, rfl⟩ := State.loadIntoLatch_eq_next.mp h; rfl
  | appendTrace =>
    cases h
    rcases s.appendTrace_cases with ⟨-, e⟩ | ⟨-, -, -, e⟩ | ⟨-, -, e⟩ <;> rw [e] <;> rfl
  | _ => cases h; rfl

/-- A run whose micro-steps do not store to a byte leaves it alone. -/
theorem runMicros_leaves {l : List Micro} {a : Nat} (hl : ∀ m ∈ l, m.Leaves a) {s t : State}
    (h : runMicros l s = .next t) : t.winByte a = s.winByte a :=
  runMicros_keeps (P := fun u => u.winByte a = s.winByte a)
    (fun m hm _ _ hu hv => (microExec_leaves (hl m hm) hv).trans hu) rfl h

/-- Which phases store where: A4 to BC[0][IN] and the data buffer of endpoint 0, E5 to BC[0][OUT], no other phase anywhere
(43_transfer_engine.md R188). -/
theorem phaseMicros_leaves {p : Phase} {a : Nat} (s : State)
    (a4 : p = .a4 → Outside (bcOff 0 .inn) 4 a ∧ Outside (bufOff 0) 64 a) (e5 : p = .e5 → Outside (bcOff 0 .out) 4 a) :
    ∀ m ∈ phaseMicros p s, m.Leaves a := by
  cases p with
  | a4 =>
    intro m hm
    have inside := handlerMicros_inHandler s.params (decode s.pkt) m hm
    have word := handlerMicros_wordIn s.params (decode s.pkt) m hm
    obtain ⟨h1, h2⟩ := a4 rfl
    cases m with
    | storeByte off v =>
      simp only [Micro.InHandler, Outside] at inside h2
      simp only [Micro.Leaves]
      omega
    | storeWord off w =>
      have e : off = bcOff 0 .inn := word
      rw [e]; exact h1
    | _ => trivial
  | e5 =>
    intro m hm
    rw [phaseMicros, rearmOutMicros, prepareOutBufferMicros_ok (by decide)] at hm
    rcases List.mem_cons.mp hm with rfl | hm
    · trivial
    · rw [List.mem_singleton.mp hm]; exact e5 rfl
  | a2 =>
    intro m hm
    simp only [phaseMicros, loadSetupMicros, List.mem_cons, List.not_mem_nil, or_false] at hm
    rcases hm with rfl | rfl | rfl | rfl | rfl | rfl | rfl | rfl <;> trivial
  | b0 | c0 | e0 | x => intro m hm; cases hm
  | _ => intro m hm; rw [List.mem_singleton.mp hm]; trivial

/-- The micro-steps of a handler do not read the request level they were selected at: GET_DESCRIPTOR and its descriptor row run
the same ones (41_request_dispatcher.md R149). -/
theorem exec_decodeRequest (k : SetupPacket) (s : State) : exec (decodeRequest k) s = exec (decode k) s := by
  by_cases six : k.request.toNat = 6
  · rw [decode, six, decodeRequest, six]
    exact exec_catalog k.requestType (highByte k.value) (lowByte k.value) k.index k.length s
  · rw [decode]
    split
    · contradiction
    · rfl

end Sys2Proof.Machine
end

