-- ==== Sys2Proof/Laws/Invariant.lean ====
section
/-! SUPPORT. What a micro-step of a phase and a move of the SIE keep of a safe run, component by component. -/

namespace Sys2Proof.Machine

/-! ### The micro-steps of a phase -/

/-- A micro-step that belongs to some phase: one of a handler or of `rearmOut`, or one of the adapter that stores nothing. -/
def Micro.InPhase (m : Micro) : Prop :=
  m.InHandler ∨ ((∀ off v, m ≠ .storeByte off v) ∧ ∀ off w, m ≠ .storeWord off w)

theorem phaseMicros_inPhase (p : Phase) (s : State) : ∀ m ∈ phaseMicros p s, m.InPhase := by
  cases p with
  | a4 => exact fun m hm => .inl (handlerMicros_inHandler _ _ m hm)
  | e5 => exact fun m hm => .inl (prepareOutBufferMicros_inHandler 1 0 m hm)
  | a2 =>
    intro m hm
    simp only [phaseMicros, loadSetupMicros, List.mem_cons, List.not_mem_nil, or_false] at hm
    rcases hm with rfl | rfl | rfl | rfl | rfl | rfl | rfl | rfl <;> exact .inr ⟨nofun, nofun⟩
  | b0 | c0 | e0 | x => intro m hm; cases hm
  | _ => intro m hm; rw [List.mem_singleton.mp hm]; exact .inr ⟨nofun, nofun⟩

/-- In a state whose position is one inside its phase, a move of CTRL is a whole phase of at most one micro-step, or some of the
micro-steps of A2, A4 or E5. -/
theorem CtrlMove.cases {s t : State} (ok : s.seqOk) (h : CtrlMove s t) :
    (∃ p u, s.seq = .phase p ∧ (phaseMicros p s).length ≤ 1 ∧ runPhase p s = .next u ∧ t = u.advance p) ∨
    (∃ p before front back u, (p = .a2 ∨ p = .a4 ∨ p = .e5) ∧ before ++ front ++ back = phaseMicros p s ∧
      (s.seq = .phase p ∨ ∃ r, s.seq = .inside p r) ∧ runMicros front s = .next u ∧
      (back = [] ∧ t = u.advance p ∨ before ++ front ≠ [] ∧ back ≠ [] ∧ t = u.setSeq (.inside p back))) := by
  obtain ⟨p, front, back, u, place, run, next⟩ := h
  obtain ⟨before, whole⟩ := ok.micros place
  by_cases long : 1 < (phaseMicros p s).length
  · refine .inr ⟨p, before, front, back, u, one_lt_length_phaseMicros long, whole, ?_, run, ?_⟩
    · rcases place with ⟨e, -⟩ | e
      · exact .inl e
      · exact .inr ⟨_, e⟩
    · rcases next with e | ⟨ne, rest⟩
      · exact .inl e
      · exact .inr ⟨by simp [ne], rest⟩
  · rcases place with ⟨e, same⟩ | e
    · refine .inl ⟨p, u, e, Nat.le_of_not_lt long, ?_⟩
      rcases next with ⟨rfl, rfl⟩ | ⟨ne, ne', -⟩
      · rw [List.append_nil] at same
        exact ⟨by rw [runPhase, same]; exact run, rfl⟩
      · rw [same, List.length_append] at long
        have := List.length_pos_of_ne_nil ne
        have := List.length_pos_of_ne_nil ne'
        omega
    · simp only [State.seqOk, e] at ok
      obtain ⟨ne, done, ne', split⟩ := ok
      rw [← split, List.length_append] at long
      have := List.length_pos_of_ne_nil ne
      have := List.length_pos_of_ne_nil ne'
      omega

/-- The latch does not change where a phase that reads it has begun: A4's handler does not write it. -/
theorem microExec_pkt {m : Micro} {s t : State} (hm : ∀ i, m ≠ .loadSetupByte i) (h : microExec m s = .next t) :
    t.pkt = s.pkt := by
  cases m with
  | sampleFlags => simp only [microExec] at h; split at h <;> cases h <;> rfl
  | loadSetupByte i => exact absurd rfl (hm i)
  | appendTrace => cases h; exact s.appendTrace_pkt
  | storeByte off v => obtain ⟨-, rfl⟩ := State.storeBytes_eq_next.mp h; rfl
  | storeWord off w => obtain ⟨-, -, rfl⟩ := State.storeWord_eq_next.mp h; rfl
  | _ => cases h; rfl

theorem phaseMicros_a2 (s t : State) : phaseMicros .a2 t = phaseMicros .a2 s := rfl

/-! ### The memories -/

theorem memoryOk_write {s : State} (ok : s.memoryOk) {off : Nat} {bs : List Byte}
    (inside : inWindow s.params off bs.length = true) :
    State.memoryOk { s with win := Memory.writeBytes s.win off bs } := by
  obtain ⟨wf, below, rest⟩ := ok
  refine ⟨Memory.wf_writeBytes _ _ wf, Memory.below_writeBytes bs ?_ below, rest⟩
  rcases inWindow_iff.mp inside with empty | fits
  · exact .inl (by simpa using empty)
  · exact .inr fits

/-- Every micro-step keeps the two memories. -/
theorem microExec_memoryOk {m : Micro} {s t : State} (ok : s.memoryOk) (h : microExec m s = .next t) : t.memoryOk := by
  cases m with
  | sampleFlags => simp only [microExec] at h; split at h <;> cases h <;> exact ok
  | loadSetupByte i => obtain ⟨-, rfl⟩ := State.loadIntoLatch_eq_next.mp h; exact ok
  | storeByte off v => obtain ⟨inside, rfl⟩ := State.storeBytes_eq_next.mp h; exact memoryOk_write ok inside
  | storeWord off w => obtain ⟨-, inside, rfl⟩ := State.storeWord_eq_next.mp h; exact memoryOk_write ok inside
  | appendTrace =>
    cases h
    obtain ⟨wf, below, wfT, belowT⟩ := ok
    rcases s.appendTrace_cases with ⟨room, e⟩ | ⟨-, -, cap, e⟩ | ⟨-, -, e⟩ <;> rw [e]
    · refine ⟨wf, below, Memory.wf_writeBytes _ _ wfT, Memory.below_writeBytes _ (.inr ?_) belowT⟩
      rw [SetupPacket.length_toBytes]
      simp only
      omega
    · refine ⟨wf, below, Memory.wf_writeBytes _ _ wfT, Memory.below_writeBytes _ (.inr ?_) belowT⟩
      rw [SetupPacket.length_toBytes]
      simp only
      omega
    · exact ⟨wf, below, wfT, belowT⟩
  | _ => cases h; exact ok

/-- Every micro-step keeps the bound of the trace index. -/
theorem microExec_traceIdxOk {m : Micro} {s t : State} (ok : s.traceIdxOk) (h : microExec m s = .next t) :
    t.traceIdxOk := by
  cases m with
  | sampleFlags => simp only [microExec] at h; split at h <;> cases h <;> exact ok
  | loadSetupByte i => obtain ⟨-, rfl⟩ := State.loadIntoLatch_eq_next.mp h; exact ok
  | storeByte off v => obtain ⟨-, rfl⟩ := State.storeBytes_eq_next.mp h; exact ok
  | storeWord off w => obtain ⟨-, -, rfl⟩ := State.storeWord_eq_next.mp h; exact ok
  | appendTrace =>
    cases h
    rcases s.appendTrace_cases with ⟨room, e⟩ | ⟨-, -, cap, e⟩ | ⟨-, -, e⟩ <;> rw [e]
    · exact room
    · exact cap
    · exact ok
  | _ => cases h; exact ok

/-! ### The buffer-control words -/

/-- Bytes outside the buffer-control area leave the words. -/
theorem State.bc_writeBytes (s : State) {off : Nat} {bs : List Byte} (h : off + bs.length ≤ 0x80 ∨ 0x100 ≤ off)
    (n : Endpoint) (d : Dir) : State.bc { s with win := Memory.writeBytes s.win off bs } n d = s.bc n d := by
  have := le_bcOff n d
  have := bcOff_lt d n.isLt
  exact Memory.read32_writeBytes_other bs (by omega)

/-- A stored word is the new word of its endpoint and direction, and the old one of every other. -/
theorem State.bc_write32 (s : State) (m : Endpoint) (e : Dir) (w : Word) (n : Endpoint) (d : Dir) :
    State.bc { s with win := Memory.write32 s.win (bcOff m e) w } n d = if m = n ∧ e = d then w else s.bc n d := by
  by_cases same : m = n ∧ e = d
  · obtain ⟨rfl, rfl⟩ := same
    rw [if_pos ⟨rfl, rfl⟩]
    exact Memory.read32_write32 _ _ _
  · rw [if_neg same]
    refine Memory.read32_write32_other w (bcOff_disjoint fun h => same ⟨?_, h.2.symm⟩)
    exact Fin.ext h.1.symm

theorem wordsOk_write32 {s : State} (ok : s.wordsOk) (m : Endpoint) (e : Dir) {w : Word} (reserved : bcReserved w = false)
    (length : bcLength w < Config.sizeLimit) :
    State.wordsOk { s with win := Memory.write32 s.win (bcOff m e) w } := by
  intro n d
  rw [s.bc_write32]
  split
  · exact ⟨reserved, length⟩
  · exact ok n d

theorem wordsOk_writeBytes {s : State} (ok : s.wordsOk) {off : Nat} {bs : List Byte}
    (h : off + bs.length ≤ 0x80 ∨ 0x100 ≤ off) :
    State.wordsOk { s with win := Memory.writeBytes s.win off bs } := by
  intro n d
  rw [s.bc_writeBytes h]
  exact ok n d

theorem wordsOk_of_win {s t : State} (ok : s.wordsOk) (h : t.win = s.win) : t.wordsOk := by
  intro n d
  rw [State.bc, h]
  exact ok n d

/-- A micro-step of a phase keeps the words. -/
theorem microExec_wordsOk {m : Micro} (hm : m.InPhase) {s t : State} (ok : s.wordsOk) (h : microExec m s = .next t) :
    t.wordsOk := by
  cases m with
  | storeByte off v =>
    obtain ⟨-, rfl⟩ := State.storeBytes_eq_next.mp h
    rcases hm with inside | ⟨no, -⟩
    · refine wordsOk_writeBytes ok (.inr ?_)
      simp only [Micro.InHandler, bufOff] at inside
      omega
    · exact absurd rfl (no off v)
  | storeWord off w =>
    obtain ⟨-, -, rfl⟩ := State.storeWord_eq_next.mp h
    rcases hm with ⟨⟨d, rfl⟩, reserved, length⟩ | ⟨-, no⟩
    · exact wordsOk_write32 ok 0 d reserved length
    · exact absurd rfl (no off w)
  | sampleFlags => simp only [microExec] at h; split at h <;> cases h <;> exact ok
  | loadSetupByte i => obtain ⟨-, rfl⟩ := State.loadIntoLatch_eq_next.mp h; exact wordsOk_of_win ok rfl
  | appendTrace =>
    cases h
    refine wordsOk_of_win ok ?_
    rcases s.appendTrace_cases with ⟨-, e⟩ | ⟨-, -, -, e⟩ | ⟨-, -, e⟩ <;> rw [e]
  | _ => cases h; exact wordsOk_of_win ok rfl

/-! ### The SIE -/

/-- A move of the SIE keeps the memories, the words and the trace index. -/
theorem exec_env_keeps {i : Instr} {s t : State} (env : i.format = .env) (mem : s.memoryOk) (words : s.wordsOk)
    (h : exec i s = .next t) : t.memoryOk ∧ t.wordsOk := by
  rcases exec_env_cases env h with ⟨b, -, rfl⟩ | ⟨-, rfl⟩ | ⟨n, d, -, rfl⟩ | ⟨n, b, -, e⟩ | ⟨n, p, l, -, e⟩ | ⟨n, -, e⟩
  · have fits : inWindow s.params Config.setupOff b.toList.length = true :=
      inWindow_of_le (by rw [Vector.length_toList]; decide)
    exact ⟨memoryOk_write mem fits, wordsOk_writeBytes words (.inl (by rw [Vector.length_toList]; decide))⟩
  · exact ⟨mem, wordsOk_of_win words rfl⟩
  · exact ⟨mem, wordsOk_of_win words rfl⟩
  · obtain ⟨-, -, -, rfl⟩ := execEnvInDone_eq_next e
    obtain ⟨reserved, length⟩ := words n .inn
    refine ⟨memoryOk_write (bs := [_, _, _, _]) mem (inWindow_of_le ?_),
      wordsOk_of_win (wordsOk_write32 words n .inn (w := inDoneWord (s.bc n .inn) b) ?_ ?_) rfl⟩
    · have := bcOff_lt .inn n.isLt
      simp only [Config.windowMin, List.length_cons, List.length_nil]
      omega
    · rw [bcReserved_inDoneWord]; exact reserved
    · rw [bcLength_inDoneWord]; exact length
  · obtain ⟨-, guard, inside, rfl⟩ := execEnvOutDone_eq_next e
    obtain ⟨reserved, length⟩ := words n .out
    have len := (outDoneGuard_iff.mp guard).2.2.1
    have data := wordsOk_writeBytes words (off := bufOff n) (bs := l) (.inr (by simp only [bufOff]; omega))
    refine ⟨memoryOk_write (s := { s with win := Memory.writeBytes s.win (bufOff n) l }) (bs := [_, _, _, _])
      (memoryOk_write mem inside) (inWindow_of_le ?_),
      wordsOk_of_win (wordsOk_write32 data n .out (w := outDoneWord (s.bc n .out) l.length) ?_ ?_) rfl⟩
    · have := bcOff_lt .out n.isLt
      simp only [Config.windowMin, List.length_cons, List.length_nil]
      omega
    · rw [bcReserved_outDoneWord]; exact reserved
    · have := bcLength_lt (s.bc n .out)
      rw [bcLength_outDoneWord _ (by omega)]
      omega
  · obtain ⟨-, -, rfl⟩ := execEnvStall_eq_next e
    exact ⟨mem, wordsOk_of_win words rfl⟩

end Sys2Proof.Machine
end

