-- ==== Sys2Proof/Tests/Slice0.lean ====
section
/-! SUPPORT. The model's own tests: ill-formed terms, decoding of packets written out from 30_encoding.md, one or two vectors of
95_test_vectors.md per operation, and a witness for the hypotheses of every statement that has some. -/

namespace Sys2Proof.Tests
open Sys2Proof Sys2Proof.Machine

/-! ### Helpers -/

/-- A field of the next state. -/
def after {α : Type} (r : Result) (f : State → α) : Option α :=
  match r with
  | .next t => some (f t)
  | .fault _ => none
  | .refused _ => none

/-- The refusal of a step. -/
def refusal (r : Result) : Option Refusal :=
  match r with
  | .next _ => none
  | .fault _ => none
  | .refused e => some e

/-- The launch state (95_test_vectors.md "boot state") at a position, with turns to come. -/
def at_ (q : Seq) (l : List Turn) : State := { State.boot with seq := q, sched := l }

/-- A word put into the window. -/
def put (s : State) (n : Nat) (d : Dir) (w : Word) : State := { s with win := Memory.write32 s.win (bcOff n d) w }

/-- Bytes put into the window. -/
def putBytes (s : State) (off : Nat) (bs : List Byte) : State := { s with win := Memory.writeBytes s.win off bs }

/-- The launch state with a packet in the window and its flag set. -/
def received (bytes : List Byte) : State := { putBytes State.boot 0 bytes with setupRec := true }

/-- The launch state with a HID report descriptor of the given length. -/
def hidLength (n : Nat) : State :=
  { State.boot with params := { State.boot.params with hidrTail := List.replicate (n - 1) 0xAB } }

/-! ### Ill-formed terms -/

theorem test_wf_rejects_a_low_request : (Instr.req13To255Unassigned 0 12 0 0 0).wf = false := by decide
theorem test_wf_accepts_request_13 : (Instr.req13To255Unassigned 0 13 0 0 0).wf = true := by decide
theorem test_wf_rejects_a_low_string_index : (Instr.getDescriptorStringOther 0 3 0 0).wf = false := by decide
theorem test_wf_rejects_a_known_type : (Instr.getDescriptorOther 0 0x22 0 0 0).wf = false := by decide
theorem test_wf_rejects_a_long_packet (data : List Byte) (h : data.length = 1024) :
    (Instr.envOutDone 0 false data).wf = false := by rw [Instr.wf, h]; rfl
theorem test_decode_rejects_seven_bytes :
    decodeBytes [0x80, 0x06, 0x00, 0x01, 0x00, 0x00, 0x40] = .error (.notEightBytes 7) := by decide

/-! ### Decoding, every SETUP row: packets of 95_test_vectors.md 2.2 and 2.3, S1, S8 -/

theorem test_decode_get_status : decodeBytes [0x80, 0x00, 0x00, 0x00, 0x00, 0x00, 0x02, 0x00] =
    .ok (.getStatus 0x80 0 0 2) := by decide
theorem test_decode_clear_feature : decodeBytes [0x02, 0x01, 0x00, 0x00, 0x81, 0x00, 0x00, 0x00] =
    .ok (.clearFeature 0x02 0 0x0081 0) := by decide
theorem test_decode_request_2 : decodeBytes [0x00, 0x02, 0x00, 0x00, 0x00, 0x00, 0x00, 0x00] =
    .ok (.req2Unassigned 0x00 0 0 0) := by decide
theorem test_decode_set_feature : decodeBytes [0x00, 0x03, 0x01, 0x00, 0x00, 0x00, 0x00, 0x00] =
    .ok (.setFeature 0x00 1 0 0) := by decide
theorem test_decode_request_4 : decodeBytes [0x00, 0x04, 0x00, 0x00, 0x00, 0x00, 0x00, 0x00] =
    .ok (.req4Unassigned 0x00 0 0 0) := by decide
theorem test_decode_set_address : decodeBytes [0x00, 0x05, 0x05, 0x00, 0x00, 0x00, 0x00, 0x00] =
    .ok (.setAddress 0x00 5 0 0) := by decide
theorem test_decode_get_descriptor : decodeRequest (.ofBytes 0x80 0x06 0x00 0x01 0x00 0x00 0x40 0x00) =
    .getDescriptor 0x80 0x0100 0 64 := by decide
theorem test_decode_set_descriptor : decodeBytes [0x00, 0x07, 0x00, 0x01, 0x00, 0x00, 0x12, 0x00] =
    .ok (.setDescriptor 0x00 0x0100 0 18) := by decide
theorem test_decode_get_configuration : decodeBytes [0x80, 0x08, 0x00, 0x00, 0x00, 0x00, 0x01, 0x00] =
    .ok (.getConfiguration 0x80 0 0 1) := by decide
theorem test_decode_set_configuration : decodeBytes [0x00, 0x09, 0xC8, 0x00, 0x00, 0x00, 0x00, 0x00] =
    .ok (.setConfiguration 0x00 200 0 0) := by decide
theorem test_decode_get_interface : decodeBytes [0x81, 0x0A, 0x00, 0x00, 0x00, 0x00, 0x01, 0x00] =
    .ok (.getInterface 0x81 0 0 1) := by decide
theorem test_decode_set_interface : decodeBytes [0x01, 0x0B, 0x00, 0x00, 0x00, 0x00, 0x00, 0x00] =
    .ok (.setInterface 0x01 0 0 0) := by decide
theorem test_decode_synch_frame : decodeBytes [0x82, 0x0C, 0x00, 0x00, 0x81, 0x00, 0x02, 0x00] =
    .ok (.synchFrame 0x82 0 0x0081 2) := by decide
theorem test_decode_request_13 : decodeBytes [0x00, 0x0D, 0x00, 0x00, 0x00, 0x00, 0x00, 0x00] =
    .ok (.req13To255Unassigned 0x00 13 0 0 0) := by decide
theorem test_decode_device : decodeBytes [0x80, 0x06, 0x05, 0x01, 0x00, 0x00, 0x40, 0x00] =
    .ok (.getDescriptorDevice 0x80 0x05 0 64) := by decide
theorem test_decode_configuration : decodeBytes [0x80, 0x06, 0x03, 0x02, 0x00, 0x00, 0x09, 0x00] =
    .ok (.getDescriptorConfiguration 0x80 0x03 0 9) := by decide
theorem test_decode_string_0 : decodeBytes [0x80, 0x06, 0x00, 0x03, 0x00, 0x00, 0xFF, 0x00] =
    .ok (.getDescriptorString0 0x80 0 255) := by decide
theorem test_decode_string_1 : decodeBytes [0x80, 0x06, 0x01, 0x03, 0x09, 0x04, 0xFF, 0x00] =
    .ok (.getDescriptorString1 0x80 0x0409 255) := by decide
theorem test_decode_string_2 : decodeBytes [0x80, 0x06, 0x02, 0x03, 0x00, 0x00, 0xFF, 0x00] =
    .ok (.getDescriptorString2 0x80 0 255) := by decide
theorem test_decode_string_3 : decodeBytes [0x80, 0x06, 0x03, 0x03, 0x09, 0x04, 0xFF, 0x00] =
    .ok (.getDescriptorString3 0x80 0x0409 255) := by decide
theorem test_decode_string_4 : decodeBytes [0x80, 0x06, 0x04, 0x03, 0x09, 0x04, 0xFF, 0x00] =
    .ok (.getDescriptorStringOther 0x80 4 0x0409 255) := by decide
theorem test_decode_device_qualifier : decodeBytes [0x80, 0x06, 0x00, 0x06, 0x00, 0x00, 0x0A, 0x00] =
    .ok (.getDescriptorDeviceQualifier 0x80 0 0 10) := by decide
theorem test_decode_hid_report : decodeBytes [0x81, 0x06, 0x00, 0x22, 0x00, 0x00, 0x40, 0x00] =
    .ok (.getDescriptorHidReport 0x81 0 0 64) := by decide
theorem test_decode_other_type : decodeBytes [0x80, 0x06, 0x00, 0x0F, 0x00, 0x00, 0x05, 0x00] =
    .ok (.getDescriptorOther 0x80 0x0F 0 0 5) := by decide
/-- 30_encoding.md R97: the branches are independent and in order. -/
theorem test_decode_events :
    decodeEvents true true true true = [.evSetup, .evBusReset, .evEp0Out, .evEp0In] ∧
    decodeEvents false false true false = [.evEp0Out] ∧ decodeEvents false false false false = [] := by decide

/-! ### Requests and descriptors: 95_test_vectors.md 2.2 and 2.3 -/

/-- V20 to V24, V27, V28, V30 to V34, V67 (nothing changes). -/
theorem test_no_op_requests :
    ([.getStatus 0x80 0 0 2, .clearFeature 0x02 0 0x0081 0, .req2Unassigned 0 0 0 0, .setFeature 0 1 0 0,
      .req4Unassigned 0 0 0 0, .setDescriptor 0 0x0100 0 18, .getConfiguration 0x80 0 0 1, .getInterface 0x81 0 0 1,
      .setInterface 1 0 0 0, .synchFrame 0x82 0 0x0081 2, .req13To255Unassigned 0x21 255 0 0 0,
      .getDescriptorOther 0x80 0x0F 0 0 5] : List Instr).all
      (fun i => decide (after (exec i State.boot) id = some State.boot)) = true := by decide
/-- V25. -/
theorem test_set_address : after (exec (.setAddress 0 5 0 0) State.boot)
    (fun t => (t.pendingAddress, t.bc 0 .inn, t.addr, t.address)) = some (5, 0x0000A400, 0, 0) := by decide
/-- V40, as `value[6:0]`. -/
theorem test_set_address_128 : after (exec (.setAddress 0 128 0 0) State.boot)
    (fun t => (t.pendingAddress, t.bc 0 .inn)) = some (0, 0x0000A400) := by decide
/-- V29, V36. -/
theorem test_set_configuration : after (exec (.setConfiguration 0 200 0 0) State.boot)
    (fun t => (t.bc 0 .inn, t.pendingAddress)) = some (0x0000A400, 0) := by decide
/-- V26. -/
theorem test_get_descriptor : after (exec (.getDescriptor 0x80 0x0100 0 64) State.boot)
    (fun t => (t.bc 0 .inn, t.winByte 0x100, t.winByte 0x111)) = some (0x0000A412, 0x12, 0x01) := by decide
/-- V51: not clipped. -/
theorem test_device_is_not_clipped : after (exec (.getDescriptorDevice 0x80 0 0 8) State.boot)
    (fun t => (t.bc 0 .inn, t.winByte 0x107)) = some (0x0000A412, 0x40) := by decide
/-- S1, L = 9. -/
theorem test_configuration_9 : after (exec (.getDescriptorConfiguration 0x80 0 0 9) State.boot)
    (fun t => (t.bc 0 .inn, t.winByte 0x102, t.winByte 0x109)) = some (0x0000A409, 0x29, 0) := by decide
/-- V56, L = 65535. -/
theorem test_configuration_65535 : after (exec (.getDescriptorConfiguration 0x80 0 0 0xFFFF) State.boot)
    (fun t => (t.bc 0 .inn, t.winByte 0x109)) = some (0x0000A429, 0x09) := by decide
/-- S8. -/
theorem test_string_0 : after (exec (.getDescriptorString0 0x80 0 255) State.boot)
    (fun t => (t.bc 0 .inn, Memory.readBytes t.win 0x100 4)) = some (0x0000A404, [0x04, 0x03, 0x09, 0x04]) := by decide
theorem test_string_1 : after (exec (.getDescriptorString1 0x80 0x0409 2) State.boot)
    (fun t => (t.bc 0 .inn, t.winByte 0x100)) = some (0x0000A41E, 0x1E) := by decide
theorem test_string_2 : after (exec (.getDescriptorString2 0x80 0x0409 255) State.boot)
    (fun t => (t.bc 0 .inn, t.winByte 0x100)) = some (0x0000A424, 0x24) := by decide
theorem test_string_3 : after (exec (.getDescriptorString3 0x80 0x0409 255) State.boot)
    (fun t => (t.bc 0 .inn, t.winByte 0x100)) = some (0x0000A40A, 0x0A) := by decide
theorem test_string_4_stalls : after (exec (.getDescriptorStringOther 0x80 4 0x0409 255) State.boot)
    (fun t => (t.bc 0 .inn, t.stallArmEp0)) = some (0x0000AC00, true) := by decide
/-- V60. -/
theorem test_device_qualifier_stalls : after (exec (.getDescriptorDeviceQualifier 0x80 0 0 10) State.boot)
    (fun t => (t.bc 0 .inn, t.stallArmEp0, t.winByte 0x100)) = some (0x0000AC00, true, 0) := by decide
/-- V62, V65. -/
theorem test_hid_report : after (exec (.getDescriptorHidReport 0x81 0 0 16) (hidLength 34))
    (fun t => (t.bc 0 .inn, t.winByte 0x10F, t.winByte 0x110)) = some (0x0000A410, 0xAB, 0) := by decide
theorem test_hid_report_too_long :
    after (exec (.getDescriptorHidReport 0x81 0 0 65) (hidLength 100)) (fun t => (t.indicator, t.win)) =
      some (.fail, []) := by decide
/-- R140: the packet of V37 runs `set_configuration`. -/
theorem test_dispatch : after (exec (.dispatch (.ofBytes 0x21 0x09 0x00 0x02 0x00 0x00 0x40 0x00)) State.boot)
    (fun t => t.bc 0 .inn) = some 0x0000A400 := by decide
/-- R160: the index counts only for strings. -/
theorem test_catalog : after (exec (.catalog 0x03 0x02 255) State.boot) (fun t => t.bc 0 .inn) = some 0x0000A424 ∧
    after (exec (.catalog 0x02 0x03 9) State.boot) (fun t => t.bc 0 .inn) = some 0x0000A409 := by decide

/-! ### Transfer Engine: 95_test_vectors.md 2.4 -/

/-- V80, V84. -/
theorem test_send_to_host : after (exec (.sendToHost 0 1 (some .dev) 18) State.boot)
    (fun t => (Memory.readBytes t.win 0x80 4, t.winByte 0x111, t.winByte 0x112)) =
      some ([0x12, 0xA4, 0, 0], 0x01, 0) ∧
    after (exec (.sendToHost 1 0 (some .str0) 1) State.boot) (fun t => (t.bc 1 .inn, t.winByte 0x180, t.winByte 0x181)) =
      some (0x00008401, 0x04, 0) := by decide
/-- V85 to V88. -/
theorem test_send_to_host_refuses :
    ([(0, 1, 65), (16, 0, 0), (0, 2, 0), (16, 2, 1000)] : List (Nat × Nat × Nat)).all (fun a =>
      decide (after (exec (.sendToHost a.1 a.2.1 (some .dev) a.2.2) State.boot) id =
        some { State.boot with indicator := .fail })) = true := by decide
/-- V92, V94. -/
theorem test_prepare_out_buffer :
    after (exec (.prepareOutBuffer 0 1 0) (put State.boot 0 .out 0x0000A000)) (fun t => t.bc 0 .out) = some 0x00002400 ∧
    after (exec (.prepareOutBuffer 15 1 64) State.boot) (fun t => (t.bc 15 .out, t.winByte 0xFC)) =
      some (0x00002440, 0x40) := by decide
/-- V97, V98. -/
theorem test_send_stall :
    after (exec (.sendStall 0 0) State.boot) (fun t => (t.bc 0 .inn, t.stallArmEp0)) = some (0x00008C00, true) ∧
    after (exec (.sendStall 1 0) State.boot) (fun t => (t.bc 1 .inn, t.winByte 0x89, t.stallArmEp0)) =
      some (0x00008C00, 0x8C, false) := by decide
/-- 30_encoding.md R96, R103. -/
theorem test_arm_status_in : after (exec .armStatusIn State.boot) (fun t => t.bc 0 .inn) = some 0x0000A400 := by decide
theorem test_rearm_out : after (exec .rearmOut State.boot) (fun t => t.bc 0 .out) = some 0x00002400 := by decide
theorem test_send_descriptor : after (exec (.sendDescriptor .str3 10) State.boot) (fun t => t.bc 0 .inn) =
    some 0x0000A40A := by decide
theorem test_stall_ep0 : after (exec .stallEp0 State.boot) (fun t => (t.bc 0 .inn, t.stallArmEp0)) =
    some (0x0000AC00, true) := by decide

/-! ### Event branches: 95_test_vectors.md 2.1 -/

/-- V12. -/
theorem test_bus_reset_branch : after (exec .evBusReset { State.boot with
      busReset := true, addr := 5, address := 5, resetCount := 0xFFFFFFFF }) id =
    some State.boot := by decide
/-- V2. -/
theorem test_ep0_out_branch : after (exec .evEp0Out { put State.boot 0 .out 0x0000A000 with epOut := State.boot.epOut.set 0 true })
    (fun t => (t.epOut[0], t.ep0OutCount, t.bc 0 .out)) = some (false, 1, 0x0000A000) := by decide
/-- V4, V3. -/
theorem test_ep0_in_branch : after (exec .evEp0In { State.boot with
      epIn := State.boot.epIn.set 0 true, pendingAddress := 127 })
    (fun t => (t.addr, t.address, t.pendingAddress, t.ep0InCount, t.bc 0 .out)) = some (127, 127, 0, 1, 0x00002400) := by
  decide
theorem test_ep0_in_branch_without_pending : after (exec .evEp0In { State.boot with
      epIn := State.boot.epIn.set 0 true, addr := 5, address := 5 })
    (fun t => (t.epIn[0], t.addr, t.address)) = some (false, 5, 5) := by decide
/-- V25, whole branch, and the trace record of 2.2. -/
theorem test_setup_branch : after (exec .evSetup (received [0x00, 0x05, 0x05, 0x00, 0x00, 0x00, 0x00, 0x00]))
    (fun t => (t.setupRec, t.pendingAddress, t.bc 0 .inn, t.traceIdx, Memory.readBytes t.trace 0 8)) =
    some (false, 5, 0x0000A400, 1, [0x00, 0x05, 0x05, 0x00, 0x00, 0x00, 0x00, 0x00]) := by decide
/-- V10 (`wrap`), V11. -/
theorem test_trace_append : after (exec .traceAppend { State.boot with
      params := { State.boot.params with traceCap := 2 }, traceIdx := 2, pkt := .ofBytes 1 2 3 4 5 6 7 8 })
    (fun t => (t.traceIdx, Memory.readBytes t.trace 0 8)) = some (1, [1, 2, 3, 4, 5, 6, 7, 8]) ∧
  after (exec .traceAppend { State.boot with params := { State.boot.params with traceCap := 0 } })
    (fun t => (t.traceIdx, t.trace)) = some (0, []) := by decide

/-! ### Moves of the SIE: 95_test_vectors.md 2.5 -/

/-- V110. -/
theorem test_env_setup : after (exec (.envSetup #v[0x80, 0x06, 0x00, 0x01, 0x00, 0x00, 0x40, 0x00])
      { State.boot with stallArmEp0 := true })
    (fun t => (Memory.readBytes t.win 0 8, t.setupRec, t.stallArmEp0)) =
    some ([0x80, 0x06, 0x00, 0x01, 0x00, 0x00, 0x40, 0x00], true, false) := by decide
/-- V112. -/
theorem test_env_bus_reset : after (exec .envBusReset { State.boot with addr := 5 }) (fun t => (t.busReset, t.addr)) =
    some (true, 5) := by decide
/-- V115, V120. -/
theorem test_env_no_buffer : after (exec (.envNoBuffer 0 .inn) State.boot) (fun t => t.wire) = some [.nak 0 .inn] ∧
    after (exec (.envNoBuffer 0 .inn) (put State.boot 0 .inn 0x0000AC00)) (fun t => t.bc 0 .inn) = some 0x0000AC00 := by
  decide
/-- V113, V115. -/
theorem test_env_in_done : after (exec (.envInDone 0 false) (putBytes (put State.boot 0 .inn 0x0000A402) 0x100 [7, 9]))
    (fun t => (t.bc 0 .inn, t.epIn[0], t.wire)) = some (0x00002002, true, [.data 0 true [7, 9]]) := by decide
theorem test_env_in_done_needs_a_buffer : refusal (exec (.envInDone 0 true) State.boot) = some .moveNotEnabled := by decide
/-- V118, V117. -/
theorem test_env_out_done : after (exec (.envOutDone 3 false [1, 2, 3, 4, 5]) (put State.boot 3 .out 0x00000440))
    (fun t => (t.bc 3 .out, t.epOut[3], Memory.readBytes t.win 0x280 5)) =
    some (0x00008005, true, [1, 2, 3, 4, 5]) := by decide
theorem test_env_out_done_too_long :
    refusal (exec (.envOutDone 0 true [1, 2, 3, 4, 5, 6, 7, 8]) (put State.boot 0 .out 0x00002400)) =
      some .moveNotEnabled := by decide
/-- V119, V120. -/
theorem test_env_stall : after (exec (.envStall 0) { put State.boot 0 .inn 0x0000AC00 with stallArmEp0 := true })
    (fun t => (t.stallArmEp0, t.bc 0 .inn, t.epIn[0])) = some (false, 0x0000AC00, false) ∧
    refusal (exec (.envStall 0) (put State.boot 0 .inn 0x0000AC00)) = some .moveNotEnabled := by decide

/-! ### One step: hazards and scripts of 95_test_vectors.md -/

/-- V9: the torn packet, the flag set again. -/
theorem test_torn_read : after (runSteps 9 { received [0x80, 0x06, 0x00, 0x01, 0x00, 0x00, 0x40, 0x00] with
      seq := .phase .a2
      sched := [.ctrl, .ctrl, .ctrl, .ctrl, .sie 0 (.envSetup #v[0x00, 0x05, 0x07, 0x00, 0x00, 0x00, 0x00, 0x00]),
        .ctrl, .ctrl, .ctrl, .ctrl] }) (fun t => (t.pkt.toBytes, t.setupRec, t.seq)) =
    some ([0x80, 0x06, 0x00, 0x01, 0x00, 0x00, 0x00, 0x00], true, .phase .a3) := by decide
/-- P5: a token for the old address causes no move. -/
theorem test_foreign_token : after (step { at_ .idle [.sie 5 (.envInDone 0 true)] with addr := 9 })
    (fun t => (t.wire, t.sched)) = some ([], []) := by decide
/-- The host's placing of a table word: SET_ADDRESS(5) as the first operation after reset (V25). -/
theorem test_fetch_word : after (step (State.reset.withFetchWord 64 0x50500))
    (fun t => (t.pendingAddress, t.bc 0 .inn, t.seq)) = some (5, 0x0000A400, .phase .b0) := by decide

/-! ### Witnesses: a state and operands that meet the hypotheses of each statement -/

theorem witness_EncodeThenDecodeReturnsTheOperation :
    (Instr.req13To255Unassigned 0x21 13 1 2 3).wf = true ∧ (Instr.req13To255Unassigned 0x21 13 1 2 3).format = .setup ∧
    (Instr.getDescriptorStringOther 0x80 4 0 9).wf = true ∧ (Instr.evSetup).wf = true ∧
    (Instr.evSetup).format ≠ .setup := by decide

theorem witness_DecodeBytesReadsExactlyEightBytes :
    ([1, 2, 3, 4, 5, 6, 7, 8] : List Byte).length = 8 ∧ ([1, 2, 3, 4, 5, 6, 7, 8, 9] : List Byte).length ≠ 8 ∧
    ([] : List Byte).length ≠ 8 := by decide

/-- SET_ADDRESS 5 and 0x85 with another `requestType`, `index` and `length`; a GET_DESCRIPTOR with another `index`; a
GET_STATUS with everything else different. -/
theorem witness_IgnoredFieldsDoNotMatter :
    (let k : SetupPacket := ⟨0x00, 5, 0x0005, 0, 0⟩; let k' : SetupPacket := ⟨0x21, 5, 0x0085, 7, 9⟩
     k.request = k'.request ∧ k.value.toNat % 128 = k'.value.toNat % 128 ∧ k ≠ k') ∧
    (let k : SetupPacket := ⟨0x80, 6, 0x0200, 0, 9⟩; let k' : SetupPacket := ⟨0x81, 6, 0x0200, 1, 9⟩
     k.request = k'.request ∧ k.value = k'.value ∧ k.length = k'.length ∧ k ≠ k') ∧
    (let k : SetupPacket := ⟨0x80, 0, 0, 0, 2⟩; let k' : SetupPacket := ⟨0x81, 0, 1, 1, 3⟩
     k.request = k'.request ∧ k.request ≠ 6 ∧ k.request ≠ 5) := by decide

theorem witness_EngineWordsHaveTheirFields : (1 : Nat) < 2 ∧ (64 : Nat) < 65 := by decide

theorem witness_WindowLayoutHasNoOverlap :
    ¬ ((15 : Endpoint) = 15 ∧ Dir.inn = Dir.out) ∧ (14 : Endpoint) ≠ 15 := by decide

theorem witness_BootSequenceSetsOnlyTheEnables :
    (at_ .idle [.boot .enableSetupReq, .boot .enableBusReset, .boot .enableBuffStatus, .boot .enableInterrupt]).sched =
      [.boot .enableSetupReq, .boot .enableBusReset, .boot .enableBuffStatus, .boot .enableInterrupt] := by decide

/-- Room for one record; just full under either policy; no capacity. -/
theorem witness_TraceAppendFollowsThePolicy :
    (let s := { State.boot with traceIdx := 7 }; s.traceIdx < s.params.traceCap) ∧
    (let s := { State.boot with traceIdx := 8 }
     s.params.traceCap ≤ s.traceIdx ∧ s.params.tracePolicy = .wrap ∧ 0 < s.params.traceCap) ∧
    (let s := { State.boot with traceIdx := 8, params := { State.boot.params with tracePolicy := .truncate } }
     s.params.traceCap ≤ s.traceIdx ∧ s.params.tracePolicy = .truncate) ∧
    (let s := { State.boot with params := { State.boot.params with traceCap := 0 } }
     s.params.traceCap ≤ s.traceIdx ∧ s.params.traceCap = 0) := by decide

theorem witness_UnansweredRequestsChangeNothing :
    ([4, 7, 8, 10, 255] : List Byte).all (fun r => decide (r ≠ 5 ∧ r ≠ 6 ∧ r ≠ 9)) = true := by decide

/-- The string indices at the boundary, and types beside the catalog's. -/
theorem witness_CatalogSelectsByTypeAndIndex :
    4 ≤ (4 : Byte).toNat ∧ 4 ≤ (255 : Byte).toNat ∧ ¬ 4 ≤ (3 : Byte).toNat ∧
    (0x00 : Byte) ∉ ([0x01, 0x02, 0x03, 0x06, 0x22] : List Byte) ∧
    (0x05 : Byte) ∉ ([0x01, 0x02, 0x03, 0x06, 0x22] : List Byte) ∧
    (0x23 : Byte) ∉ ([0x01, 0x02, 0x03, 0x06, 0x22] : List Byte) := by decide

/-- Clipped to 64 and to 65 bytes; no HID interface. -/
theorem witness_HidReportIsClippedOrRefused :
    (hidLength 100).params.hasHid = true ∧ min (hidReportLen (hidLength 100).params) (64 : Half).toNat < 65 ∧
    65 ≤ min (hidReportLen (hidLength 100).params) (65 : Half).toNat ∧
    ({ State.boot.params with hasHid := false } : Params).hasHid = false := by decide

theorem witness_RefusedArgumentsChangeNothing :
    (16 ≤ 16 ∨ 2 ≤ 1 ∨ 65 ≤ 64) ∧ (16 ≤ 15 ∨ 2 ≤ 2 ∨ 65 ≤ 64) ∧ (16 ≤ 15 ∨ 2 ≤ 1 ∨ 65 ≤ 65) := by decide

theorem witness_SendToHostCopiesAndArms : (15 : Nat) < 16 ∧ (1 : Nat) < 2 ∧ (64 : Nat) < 65 := by decide
theorem witness_PrepareOutBufferArmsTheOutWord : (15 : Nat) < 16 ∧ (0 : Nat) < 2 ∧ (64 : Nat) < 65 := by decide
theorem witness_SendStallArmsOnlyEndpointZero : (15 : Nat) < 16 ∧ (0 : Nat) < 16 ∧ (1 : Nat) < 2 := by decide

theorem witness_PseudoOperationsAreFixedCalls :
    (64 < 65 ∧ 64 ≤ declaredLen (hidLength 100).params .hidr) ∧ 65 ≤ 65 := by decide

/-- After the check of `sendToHost(15, 1, null, 0)` the word store is left. -/
theorem witness_SendToHostStoresItsWordLast :
    [Micro.checkArguments .ok] ++ [Micro.storeWord 0xF8 0x0000A400] =
      sendToHostMicros State.boot.params 15 1 none 0 := by decide

/-- No buffer armed; the stall word without the arm bit; an armed word. -/
theorem witness_NoBufferChangesNothing :
    (bcReserved (State.boot.bc 15 .out) = false ∧ bcAvailable (State.boot.bc 15 .out) = false) ∧
    (let s := put State.boot 0 .inn 0x0000AC00
     bcReserved (s.bc 0 .inn) = false ∧ bcStall (s.bc 0 .inn) = true ∧ s.stallArmEp0 = false) ∧
    (let s := put State.boot 0 .inn 0x0000A412
     bcReserved (s.bc 0 .inn) = false ∧ bcAvailable (s.bc 0 .inn) = true ∧ bcStall (s.bc 0 .inn) = false) := by decide

/-- Endpoint 15: 64 bytes, no bytes, and 1023 bytes, which leave the smallest window. -/
theorem witness_InDoneCompletesTheTransfer :
    (let w : Word := 0x0000A440
     let s := put State.boot 15 .inn w
     s.bc 15 .inn = w ∧ bcReserved w = false ∧ bcAvailable w = true ∧ bcStall w = false ∧ bcFull w = true ∧
     bufOff 15 + bcLength w ≤ windowSize s.params) ∧
    (let w : Word := 0x0000A400
     bcReserved w = false ∧ bcAvailable w = true ∧ bcStall w = false ∧ bcFull w = true ∧ bcLength w = 0) ∧
    (let w : Word := 0x0000A7FF
     let s := put State.boot 15 .inn w
     s.bc 15 .inn = w ∧ bcReserved w = false ∧ bcAvailable w = true ∧ bcStall w = false ∧ bcFull w = true ∧
     bcLength w ≠ 0 ∧ windowSize s.params < bufOff 15 + bcLength w ∧
     refusal (exec (.envInDone 15 true) s) = some (.outsideWindow 0x880)) := by decide

/-- Endpoint 3 with as many bytes as the buffer takes, under either check of the data PID. -/
theorem witness_OutDoneCompletesTheTransfer :
    (let s := put State.boot 3 .out 0x00000405
     let data : List Byte := [1, 2, 3, 4, 5]
     bcReserved (s.bc 3 .out) = false ∧ bcAvailable (s.bc 3 .out) = true ∧ bcStall (s.bc 3 .out) = false ∧
     data.length ≤ bcLength (s.bc 3 .out) ∧ s.params.outPidCheck = .ignore ∧ false = bcPid (s.bc 3 .out) ∧
     bufOff 3 + data.length ≤ windowSize s.params) ∧
    (let s := put State.boot 0 .out 0x00002400
     bcAvailable (s.bc 0 .out) = true ∧ ([] : List Byte).length ≤ bcLength (s.bc 0 .out) ∧ true = bcPid (s.bc 0 .out)) := by
  decide

/-- A packet of 1023 bytes to endpoint 15 leaves the smallest window. -/
theorem witness_OutDoneCompletesTheTransfer_outside (data : List Byte) (h : data.length = 1023) :
    bcAvailable ((put State.boot 15 .out 0x000007FF).bc 15 .out) = true ∧
    bcReserved ((put State.boot 15 .out 0x000007FF).bc 15 .out) = false ∧
    bcStall ((put State.boot 15 .out 0x000007FF).bc 15 .out) = false ∧
    data.length ≤ bcLength ((put State.boot 15 .out 0x000007FF).bc 15 .out) ∧ data ≠ [] ∧
    windowSize State.boot.params < bufOff 15 + data.length := by
  refine ⟨by decide, by decide, by decide, by rw [h]; decide, ?_, by rw [h]; decide⟩
  rintro rfl
  cases h

theorem witness_StallAnswerUsesTheArmBit :
    (let s := { put State.boot 0 .inn 0x0000AC00 with stallArmEp0 := true }
     bcReserved (s.bc 0 .inn) = false ∧ bcAvailable (s.bc 0 .inn) = true ∧ bcStall (s.bc 0 .inn) = true ∧
     s.stallArmEp0 = true) ∧
    (let s := put State.boot 15 .inn 0x0000AC00
     bcReserved (s.bc 15 .inn) = false ∧ bcAvailable (s.bc 15 .inn) = true ∧ bcStall (s.bc 15 .inn) = true ∧
     (15 : Endpoint) ≠ 0) ∧
    (let s := put State.boot 0 .inn 0x0000AC00
     bcAvailable (s.bc 0 .inn) = true ∧ bcStall (s.bc 0 .inn) = true ∧ s.stallArmEp0 = false) := by decide

/-- A reserved bit in each half of the word; nothing armed; a stall word; `full` 0; a packet too long; a wrong data PID. -/
theorem witness_DisabledMovesAreRefused :
    bcReserved ((put State.boot 0 .inn 0x00001000).bc 0 .inn) = true ∧
    bcReserved ((put State.boot 0 .out 0x00010000).bc 0 .out) = true ∧
    bcReserved (State.boot.bc 0 .inn) = false ∧ bcAvailable (State.boot.bc 0 .inn) = false ∧
    bcStall ((put State.boot 0 .inn 0x0000AC00).bc 0 .inn) = true ∧
    bcFull ((put State.boot 0 .inn 0x00002400).bc 0 .inn) = false ∧
    bcLength ((put State.boot 0 .out 0x00002400).bc 0 .out) < ([9] : List Byte).length ∧
    (let s := { put State.boot 0 .out 0x00002400 with params := { State.boot.params with outPidCheck := .drop } }
     s.params.outPidCheck = .drop ∧ false ≠ bcPid (s.bc 0 .out)) := by decide

/-- A safe state inside an entry: EP0 IN completed, an address pending. -/
def pendingState (q : Seq) (l : List Turn) : State :=
  { at_ q l with epIn := State.boot.epIn.set 0 true, pendingAddress := 5 }

theorem bc_empty (s : State) (h : s.win = []) (n : Nat) (d : Dir) : s.bc n d = 0 := by
  rw [State.bc, h]
  simp only [Memory.read32, Memory.read_nil]
  decide

theorem pendingState_inv (p : Phase) (l : List Turn) (b3 : p ≠ .b3) (e4 : p ≠ .e4) : (pendingState (.phase p) l).Inv := by
  refine ⟨⟨rfl, nofun, rfl, nofun⟩, Nat.zero_le _, trivial, ?_, fun n d => ?_⟩
  · cases p <;> first | rfl | exact absurd rfl b3 | exact absurd rfl e4
  · rw [bc_empty _ rfl]; decide

theorem witness_SieMovesNeedOwnership :
    (Instr.envBusReset).format = .env ∧ (pendingState (.phase .e3) []).wordsOk ∧
    exec .envBusReset (pendingState (.phase .e3) []) =
      .next { pendingState (.phase .e3) [] with busReset := true } :=
  ⟨rfl, (pendingState_inv .e3 [] (by decide) (by decide)).words, rfl⟩

theorem witness_StepRunsTheDecodedOperation :
    (at_ (.phase .a4) []).sched = [] ∧ (at_ (.phase .a4) []).seq = .phase .a4 ∧
    decodeTableWord 16 0x0900 = some (.setConfiguration 0 0 0 0) := by decide

/-- The right address, a bus reset with a foreign address, a foreign address, and an operation that is no move. -/
theorem witness_StepRunsTheScheduledMove :
    (at_ .idle [.sie 0 (.envStall 3)]).sched = [.sie 0 (.envStall 3)] ∧ (0 : DevAddr) = (at_ .idle []).addr ∧
    (Instr.envStall 3).format = .env ∧ (Instr.envBusReset).format = .env ∧ Instr.envStall 3 ≠ .envBusReset ∧
    (127 : DevAddr) ≠ (at_ .idle []).addr ∧ (Instr.rearmOut).format ≠ .env := by decide

/-- Endpoint 15 alone raises the request; without a flag, or with the interrupt controller closed, nothing starts. -/
theorem witness_EntryStartsExactlyOnItsCondition :
    (let s := { at_ .idle [] with epOut := State.boot.epOut.set 15 true }
     s.seq = .idle ∧ s.sched = [] ∧ s.irqEnabled = true ∧ s.epOut[15] = true ∧ s.inteBuffStatus = true) ∧
    (let s := { at_ .idle [.ctrl, .ctrl] with busReset := true }
     s.seq = .idle ∧ s.sched = [.ctrl, .ctrl] ∧ s.irqEnabled = true ∧ s.busReset = true ∧ s.inteBusReset = true) ∧
    (let s := at_ .idle [.ctrl]
     s.sched = [.ctrl] ∧ s.seq = .idle ∧ s.setupRec = false ∧ s.busReset = false ∧ s.anyBuffStatus = false) ∧
    (let s := { at_ .idle [] with setupRec := true, irqEnabled := false }
     s.irqEnabled = false) := by decide

/-- Both ways of sampling at A0; the other phases by `step_phase_completes`. -/
theorem witness_PhasesFollowTheFixedOrder :
    (let s := { at_ (.phase .a0) [] with params := { State.boot.params with flagSampling := .atEntry } }
     s.params.flagSampling = .atEntry ∧ s.sched = [] ∧ after (step s) (fun t => t.seq) = some (.phase .b0)) ∧
    (let s := at_ (.phase .a0) []
     s.params.flagSampling = .perBranch ∧ s.sched = [] ∧ after (step s) (fun t => t.seq) = some (.phase .b0)) := by decide

theorem step_phase_completes (p : Phase) : ∃ t, step (at_ (.phase p) []) = .next t := by
  obtain ⟨t, ht⟩ := runPhase_completes p (at_ (.phase p) [])
  exact ⟨t.advance p, by rw [step_of_no_turn rfl, ctrlWhole_phase rfl, ht]; rfl⟩

theorem witness_MicroStepsComposeToThePhase :
    (at_ (.phase .a2) []).seq = .phase .a2 ∧ (phaseMicros .a2 (at_ (.phase .a2) [])).length = 8 ∧
    (phaseMicros .b0 (at_ (.phase .b0) [])).length = 0 := by decide

/-- A safe state whose next step applies the pending address: also for `AddressChangesOnlyAtItsPhases`. -/
theorem witness_EveryStepKeepsTheInvariant :
    (pendingState (.phase .e3) []).Inv ∧
    step (pendingState (.phase .e3) []) = .next { pendingState (.phase .e3) [] with addr := 5, seq := .phase .e4 } :=
  ⟨pendingState_inv .e3 [] (by decide) (by decide), rfl⟩

theorem witness_AddressChangesOnlyAtItsPhases :
    (pendingState (.phase .e3) []).Inv ∧
    step (pendingState (.phase .e3) []) = .next { pendingState (.phase .e3) [] with addr := 5, seq := .phase .e4 } ∧
    ({ pendingState (.phase .e3) [] with addr := 5, seq := .phase .e4 } : State).addr ≠ (pendingState (.phase .e3) []).addr :=
  ⟨pendingState_inv .e3 [] (by decide) (by decide), rfl, by decide⟩

theorem witness_BlockNeverStops :
    (pendingState (.phase .a4) [.ctrl]).Inv ∧ (pendingState (.phase .a4) [.ctrl]).sieWaits :=
  ⟨pendingState_inv .a4 _ (by decide) (by decide), fun t rest h => by cases h; rfl⟩

theorem witness_EveryEntryEnds : (pendingState (.phase .a0) []).Inv ∧ (pendingState (.phase .a0) []).sched = [] :=
  ⟨pendingState_inv .a0 _ (by decide) (by decide), rfl⟩

theorem witness_ResetInTheSameEntryDropsThePendingAddress :
    (pendingState (.phase .b1) []).sched = [] ∧ (pendingState (.phase .b1) []).seq = .phase .b1 ∧
    (pendingState (.phase .b1) []).pendingAddress ≠ 0 := by decide

theorem witness_StaleCompletionAppliesTheAddressEarly :
    (let s := { pendingState (.phase .a4) [] with
       pkt := .ofBytes 0x00 0x05 0x09 0x00 0x00 0x00 0x00 0x00
       snap := { setup := true, busReset := false, buffStatus := true, ep0Out := false, ep0In := true } }
     s.sched = [] ∧ s.seq = .phase .a4 ∧ s.pkt.request = 5 ∧ s.pkt.value.toNat % 128 ≠ 0 ∧ s.busReset = false ∧
     s.snap.busReset = false ∧ s.epIn[0] = true ∧ s.snap.ep0In = true) := by decide

theorem witness_UnservedFlagsReenterWithoutEnd :
    (let s := { at_ .idle [] with epIn := State.boot.epIn.set 15 true }
     s.seq = .idle ∧ s.sched = [] ∧ s.irqEnabled = true ∧ s.inteBuffStatus = true ∧ s.setupRec = false ∧
     s.busReset = false ∧ s.epIn[0] = false ∧ s.epOut[0] = false ∧ s.epIn[15] = true) := by decide

theorem witness_OnlyTheBootSequenceWritesTheEnables :
    step (at_ (.phase .b1) []) = .next (at_ (.phase .b2) []) ∧
    ∀ w rest, (at_ (.phase .b1) []).sched ≠ .boot w :: rest := ⟨rfl, nofun⟩

theorem witness_CountersChangeOnlyInTheirPhase :
    (pendingState (.phase .e2) []).Inv ∧
    step (pendingState (.phase .e2) []) = .next { pendingState (.phase .e3) [] with ep0InCount := 1 } ∧
    step (pendingState (.phase .b4) []) = .next { pendingState (.phase .c0) [] with resetCount := 1 } ∧
    step (pendingState (.phase .c2) []) = .next { pendingState (.phase .e0) [] with ep0OutCount := 1 } :=
  ⟨pendingState_inv .e2 _ (by decide) (by decide), rfl, rfl, rfl⟩

/-- A safe state whose latch asks for the device descriptor. -/
def deviceState (q : Seq) : State :=
  { pendingState q [] with pkt := .ofBytes 0x80 0x06 0x00 0x01 0x00 0x00 0x12 0x00 }

theorem deviceState_inv : (deviceState (.phase .a4)).Inv :=
  let h := pendingState_inv .a4 [] (by decide) (by decide)
  ⟨h.memory, h.traceIdx, trivial, h.address, h.words⟩

/-- A step of the EP0-IN branch that stores nothing; the step at A4 that stores the IN word and the data buffer; the step at E5
that stores the OUT word. -/
theorem witness_BlockLeavesOtherEndpointsAlone :
    (pendingState (.phase .e1) []).Inv ∧ (pendingState (.phase .e1) []).sieWaits ∧
    step (pendingState (.phase .e1) []) = .next { pendingState (.phase .e2) [] with epIn := State.boot.epIn } ∧
    (deviceState (.phase .a4)).Inv ∧ (deviceState (.phase .a4)).sieWaits ∧
    after (step (deviceState (.phase .a4))) (fun t => (t.bc 0 .inn, t.winByte (bufOff 0 + 17))) = some (0x0000A412, 0x01) ∧
    (pendingState (.phase .e5) []).Inv ∧ (pendingState (.phase .e5) []).sieWaits ∧
    after (step (pendingState (.phase .e5) [])) (fun t => t.bc 0 .out) = some 0x00002400 :=
  ⟨pendingState_inv .e1 _ (by decide) (by decide), fun t rest h => (nomatch h), rfl,
    deviceState_inv, fun t rest h => (nomatch h), by decide,
    pendingState_inv .e5 _ (by decide) (by decide), fun t rest h => (nomatch h), by decide⟩

/-- The turns of a SETUP packet that arrives after `i` of the eight loads. -/
def tornTurns (bytes : Vector Byte 8) (i : Nat) : List Turn :=
  List.replicate i .ctrl ++ .sie 0 (.envSetup bytes) :: (List.replicate (8 - i) .ctrl ++ [.ctrl])

/-- The first and the last split. -/
theorem witness_SetupReadCanBeTorn (bytes : Vector Byte 8) :
    (at_ (.phase .a2) (tornTurns bytes 1)).seq = .phase .a2 ∧
    (at_ (.phase .a2) (tornTurns bytes 1)).sched = List.replicate 1 .ctrl ++
      .sie (at_ (.phase .a2) (tornTurns bytes 1)).addr (.envSetup bytes) :: (List.replicate (8 - 1) .ctrl ++ [.ctrl]) ∧
    (at_ (.phase .a2) (tornTurns bytes 7)).sched = List.replicate 7 .ctrl ++
      .sie (at_ (.phase .a2) (tornTurns bytes 7)).addr (.envSetup bytes) :: (List.replicate (8 - 7) .ctrl ++ [.ctrl]) :=
  ⟨rfl, rfl, rfl⟩

/-- The first phase of each branch, with no turn to come and on a turn of CTRL; the bus-reset branch changes something. -/
theorem witness_SequencerRunsTheEventRows :
    (at_ (.phase .a1) []).sched = [] ∧ (at_ (.phase .a1) []).seq = .phase .a1 ∧
    (at_ (.phase .a3) []).seq = .phase .a3 ∧ (at_ (.phase .b1) []).seq = .phase .b1 ∧
    (at_ (.phase .c1) []).seq = .phase .c1 ∧ (at_ (.phase .e1) []).seq = .phase .e1 ∧
    (at_ (.phase .e1) [.ctrl, .ctrl]).sched = .ctrl :: [.ctrl] ∧
    after (runSteps 4 { at_ (.phase .b1) [] with busReset := true }) (fun t => (t.busReset, t.resetCount, t.seq)) =
      some (false, 1, .phase .c0) := by decide

end Sys2Proof.Tests
end

/-! ## The scope of the block (00_scope.md): the micro-steps compose, the block never stops, and it leaves the endpoints 1 to 15
alone -/

namespace Sys2Proof.Machine

/-! ### Moving the sequencer on, and the rest of the state -/

theorem State.advance_setSched (p : Phase) (s : State) (l : List Turn) :
    (s.setSched l).advance p = (s.advance p).setSched l := by
  rw [State.advance_eq, State.advance_eq, nextSeq_setSched]; rfl

theorem State.advance_setSeq (p : Phase) (s : State) (q : Seq) : (s.setSeq q).advance p = s.advance p := by
  rw [State.advance_eq, State.advance_eq, nextSeq_setSeq, State.setSeq_setSeq]

@[simp] theorem State.sched_advance (p : Phase) (s : State) : (s.advance p).sched = s.sched := by
  rw [State.advance_eq, State.sched_setSeq]

@[simp] theorem State.win_advance (p : Phase) (s : State) : (s.advance p).win = s.win := by
  rw [State.advance_eq, State.win_setSeq]

@[simp] theorem State.epIn_advance (p : Phase) (s : State) : (s.advance p).epIn = s.epIn := by
  rw [State.advance_eq, State.epIn_setSeq]

@[simp] theorem State.epOut_advance (p : Phase) (s : State) : (s.advance p).epOut = s.epOut := by
  rw [State.advance_eq, State.epOut_setSeq]

@[simp] theorem State.seqOk_setSched {s : State} (l : List Turn) : (s.setSched l).seqOk ↔ s.seqOk := by
  simp [State.seqOk]

/-! ### The micro-steps that are left, one turn of CTRL after the other -/

/-- `todo` is what is left of phase `p`: all of it, or what is left inside it (10_state.md R24). -/
def State.HasLeft (s : State) (p : Phase) (todo : List Micro) : Prop :=
  s.seq = .phase p ∧ phaseMicros p s = todo ∨ s.seq = .inside p todo

@[simp] theorem firstMicro_nil (p : Phase) (s : State) : firstMicro p [] s = .next (s.advance p) := rfl

@[simp] theorem firstMicro_singleton (p : Phase) (m : Micro) (s : State) :
    firstMicro p [m] s = (microExec m s).mapNext (State.advance p) := rfl

@[simp] theorem firstMicro_cons_cons (p : Phase) (m m' : Micro) (l : List Micro) (s : State) :
    firstMicro p (m :: m' :: l) s = (microExec m s).mapNext (State.setSeq · (.inside p (m' :: l))) := rfl

/-- A turn of CTRL runs the first of what is left. -/
theorem State.HasLeft.step_eq {s : State} {p : Phase} {todo : List Micro} (left : s.HasLeft p todo) {turns : List Turn}
    (sched : s.sched = .ctrl :: turns) : step s = firstMicro p todo (s.setSched turns) := by
  rw [step_of_ctrl sched]
  obtain ⟨seq, rfl⟩ | seq := left
  · rw [ctrlMicro_phase (s := s.setSched turns) seq, phaseMicros_setSched]
  · exact ctrlMicro_inside (s := s.setSched turns) seq

/-- As many turns of CTRL as there are micro-steps left (one, if there is none) do what the run of those micro-steps does, and
move the sequencer on. -/
theorem State.HasLeft.runSteps_eq {s u : State} {p : Phase} {todo : List Micro} (left : s.HasLeft p todo)
    (run : runMicros todo s = .next u) {turns : List Turn}
    (sched : s.sched = List.replicate (max 1 todo.length) .ctrl ++ turns) :
    runSteps (max 1 todo.length) s = .next ((u.advance p).setSched turns) := by
  induction todo generalizing s u with
  | nil =>
    cases run
    refine runSteps_of_step (k := 0) (left.step_eq (turns := turns) sched) ?_
    rw [runSteps_zero, State.advance_setSched]
  | cons m l ih =>
    obtain ⟨v, first, later⟩ := Result.andThen_eq_next.mp run
    cases l with
    | nil =>
      cases later
      refine runSteps_of_step (k := 0) (t := (u.setSched turns).advance p) ?_ ?_
      · rw [left.step_eq sched, firstMicro_singleton, microExec_setSched, first]; rfl
      · rw [runSteps_zero, State.advance_setSched]
    | cons m' l =>
      let turns' := List.replicate (max 1 (m' :: l).length) Turn.ctrl ++ turns
      have more : max 1 (m :: m' :: l).length = max 1 (m' :: l).length + 1 := by simp
      have sched' : s.sched = .ctrl :: turns' := by rw [sched, more]; rfl
      have moved : step s = .next ((v.setSched turns').setSeq (.inside p (m' :: l))) := by
        rw [left.step_eq sched', firstMicro_cons_cons, microExec_setSched, first]; rfl
      have run' : runMicros (m' :: l) ((v.setSched turns').setSeq (.inside p (m' :: l))) =
          .next ((u.setSched turns').setSeq (.inside p (m' :: l))) := by
        rw [runMicros_setSeq, runMicros_setSched, later]; rfl
      rw [more, runSteps_of_step moved (ih (.inr rfl) run' rfl), State.advance_setSeq, State.advance_setSched,
        State.setSched_setSched]

/-- A run of micro-steps neither reads nor writes the schedule. -/
theorem runMicros_sched {l : List Micro} {s t : State} (h : runMicros l s = .next t) : t.sched = s.sched :=
  runMicros_keeps (P := fun u => u.sched = s.sched)
    (fun _ _ _ _ hu hv => by obtain ⟨-, -, -, -, -, -, sched, -⟩ := microExec_frame hv; exact sched.trans hu) rfl h

/-! ### No move of CTRL stops -/

theorem firstMicro_completes {todo : List Micro} (fits : ∀ m ∈ todo, m.Fits) (p : Phase) (s : State) :
    ∃ t, firstMicro p todo s = .next t := by
  match todo with
  | [] => exact ⟨_, rfl⟩
  | [m] =>
    obtain ⟨u, hu⟩ := (fits m List.mem_cons_self).completes s
    exact ⟨u.advance p, by rw [firstMicro_singleton, hu]; rfl⟩
  | m :: m' :: l =>
    obtain ⟨u, hu⟩ := (fits m List.mem_cons_self).completes s
    exact ⟨u.setSeq (.inside p (m' :: l)), by rw [firstMicro_cons_cons, hu]; rfl⟩

/-- What is left inside a phase is part of the phase, so it fits too. -/
theorem State.seqOk.fits {s : State} (ok : s.seqOk) {p : Phase} {todo : List Micro} (seq : s.seq = .inside p todo) :
    ∀ m ∈ todo, m.Fits := by
  obtain ⟨before, whole⟩ := ok.micros (front := todo) (back := []) (.inr (by rw [List.append_nil]; exact seq))
  intro m hm
  exact phaseMicros_fits p s m (by rw [← whole]; simp [hm])

theorem ctrlWhole_inside {s : State} {p : Phase} {left : List Micro} (h : s.seq = .inside p left) :
    ctrlWhole s = (runMicros left s).mapNext (State.advance p) := by rw [ctrlWhole, h]

theorem ctrlWhole_completes {s : State} (ok : s.seqOk) : ∃ t, ctrlWhole s = .next t := by
  cases seq : s.seq with
  | idle => exact ⟨idleTurn s, by rw [ctrlWhole, seq]⟩
  | phase p =>
    obtain ⟨u, hu⟩ := runPhase_completes p s
    exact ⟨u.advance p, by rw [ctrlWhole_phase seq, hu]; rfl⟩
  | inside p todo =>
    obtain ⟨u, hu⟩ := runMicros_completes_of_fits (ok.fits seq) s
    exact ⟨u.advance p, by rw [ctrlWhole_inside seq, hu]; rfl⟩

theorem ctrlMicro_completes {s : State} (ok : s.seqOk) : ∃ t, ctrlMicro s = .next t := by
  cases seq : s.seq with
  | idle => exact ⟨idleTurn s, by rw [ctrlMicro, seq]⟩
  | phase p => rw [ctrlMicro_phase seq]; exact firstMicro_completes (phaseMicros_fits p s) p s
  | inside p todo => rw [ctrlMicro_inside seq]; exact firstMicro_completes (ok.fits seq) p s

/-! ### What a step of the block leaves alone -/

/-- The block is at phase `p`, about to perform it or inside it. -/
def State.AtPhase (s : State) (p : Phase) : Prop := s.seq = .phase p ∨ ∃ left, s.seq = .inside p left

/-- No micro-step touches a completion flag of an endpoint 1 to 15 (10_state.md R32). -/
theorem microExec_otherFlags {m : Micro} {s t : State} (h : microExec m s = .next t) {n : Endpoint} (hn : n ≠ 0) :
    t.epIn[n] = s.epIn[n] ∧ t.epOut[n] = s.epOut[n] := by
  have other : (0 : Nat) ≠ n.val := fun e => hn (Fin.ext e.symm)
  cases m with
  | clearEpOut0 => cases h; exact ⟨rfl, Vector.getElem_set_ne (by decide) n.isLt other⟩
  | clearEpIn0 => cases h; exact ⟨Vector.getElem_set_ne (by decide) n.isLt other, rfl⟩
  | sampleFlags => simp only [microExec] at h; split at h <;> cases h <;> exact ⟨rfl, rfl⟩
  | loadSetupByte i => obtain ⟨-, rfl⟩ := State.loadIntoLatch_eq_next.mp h; exact ⟨rfl, rfl⟩
  | storeByte off v => obtain ⟨-, rfl⟩ := State.storeBytes_eq_next.mp h; exact ⟨rfl, rfl⟩
  | storeWord off w => obtain ⟨-, -, rfl⟩ := State.storeWord_eq_next.mp h; exact ⟨rfl, rfl⟩
  | appendTrace =>
    cases h
    rcases s.appendTrace_cases with ⟨-, e⟩ | ⟨-, -, -, e⟩ | ⟨-, -, e⟩ <;> rw [e] <;> exact ⟨rfl, rfl⟩
  | _ => cases h; exact ⟨rfl, rfl⟩

theorem runMicros_otherFlags {l : List Micro} {s t : State} (h : runMicros l s = .next t) {n : Endpoint} (hn : n ≠ 0) :
    t.epIn[n] = s.epIn[n] ∧ t.epOut[n] = s.epOut[n] :=
  runMicros_keeps (P := fun u => u.epIn[n] = s.epIn[n] ∧ u.epOut[n] = s.epOut[n])
    (fun _ _ _ _ ⟨uIn, uOut⟩ hv => by
      obtain ⟨vIn, vOut⟩ := microExec_otherFlags hv hn
      exact ⟨vIn.trans uIn, vOut.trans uOut⟩)
    ⟨rfl, rfl⟩ h

/-- A move of CTRL is some micro-steps of the phase the block is at, and a write of the sequencer. -/
theorem CtrlMove.run {s t : State} (ok : s.seqOk) (move : CtrlMove s t) :
    ∃ p front u, s.AtPhase p ∧ (∀ m ∈ front, m ∈ phaseMicros p s) ∧ runMicros front s = .next u ∧
      t.win = u.win ∧ t.epIn = u.epIn ∧ t.epOut = u.epOut := by
  obtain ⟨p, front, back, u, place, run, next⟩ := move
  obtain ⟨before, whole⟩ := ok.micros place
  refine ⟨p, front, u, ?_, fun m hm => by rw [← whole]; simp [hm], run, ?_⟩
  · rcases place with ⟨seq, -⟩ | seq
    · exact .inl seq
    · exact .inr ⟨_, seq⟩
  · rcases next with ⟨-, rfl⟩ | ⟨-, -, rfl⟩
    · exact ⟨u.win_advance p, u.epIn_advance p, u.epOut_advance p⟩
    · exact ⟨rfl, rfl, rfl⟩

/-- A step that is not the SIE's is a move of CTRL, or leaves the window and the completion flags: a wait, the start of an entry,
a write of the boot sequence. -/
theorem blockStep_cases {s t : State} (waits : s.sieWaits) (h : step s = .next t) :
    (∃ turns, CtrlMove (s.setSched turns) t) ∨ (t.win = s.win ∧ t.epIn = s.epIn ∧ t.epOut = s.epOut) := by
  obtain ⟨turns, -, ⟨-, rfl, -⟩ | ⟨move, -⟩ | ⟨a, i, sie, -⟩ | ⟨w, -, rfl⟩⟩ := step_cases h
  · right
    rcases idleTurn_cases (s.setSched turns) with e | e <;> rw [e] <;> exact ⟨rfl, rfl, rfl⟩
  · exact .inl ⟨turns, move⟩
  · exact nomatch waits _ _ sie
  · right
    cases w <;> exact ⟨rfl, rfl, rfl⟩

section
variable {s t : State} (ok : s.seqOk) (waits : s.sieWaits) (h : step s = .next t)
include ok waits h

/-- A step of the block leaves a byte of the window, unless at A4 it lies in BC[0][IN] or the data buffer of endpoint 0, or at E5
in BC[0][OUT] (43_transfer_engine.md R188). -/
theorem blockStep_winByte {a : Nat}
    (a4 : s.AtPhase .a4 → Outside (bcOff 0 .inn) 4 a ∧ Outside (bufOff 0) 64 a)
    (e5 : s.AtPhase .e5 → Outside (bcOff 0 .out) 4 a) : t.winByte a = s.winByte a := by
  rcases blockStep_cases waits h with ⟨turns, move⟩ | ⟨win, -⟩
  · obtain ⟨p, front, u, place, part, run, win, -⟩ := move.run ((State.seqOk_setSched turns).mpr ok)
    have leaves := phaseMicros_leaves (p := p) (a := a) (s.setSched turns) (fun e => a4 (e ▸ place)) (fun e => e5 (e ▸ place))
    calc t.winByte a = u.winByte a := by rw [State.winByte, win, State.winByte]
      _ = (s.setSched turns).winByte a := runMicros_leaves (fun m hm => leaves m (part m hm)) run
      _ = s.winByte a := s.winByte_setSched turns a
  · rw [State.winByte, win, State.winByte]

/-- A step of the block leaves every buffer-control word but BC[0][IN] at A4 and BC[0][OUT] at E5. -/
theorem blockStep_bc {n : Endpoint} {d : Dir} (a4 : s.AtPhase .a4 → ¬ (n = 0 ∧ d = .inn))
    (e5 : s.AtPhase .e5 → ¬ (n = 0 ∧ d = .out)) : t.bc n d = s.bc n d := by
  have apart {e : Dir} (ne : ¬ (n = 0 ∧ d = e)) : bcOff n d + 4 ≤ bcOff 0 e ∨ bcOff 0 e + 4 ≤ bcOff n d :=
    bcOff_disjoint fun same => ne ⟨Fin.ext same.1, same.2⟩
  have buffer := bufOff_clear n 0 d n.isLt
  refine Memory.read32_congr fun b lo hi => blockStep_winByte ok waits h (fun here => ?_) fun here => ?_
  · have := apart (a4 here)
    simp only [Outside]
    omega
  · have := apart (e5 here)
    simp only [Outside]
    omega

/-- A step of the block leaves the completion flags of the endpoints 1 to 15. -/
theorem blockStep_otherFlags {n : Endpoint} (hn : n ≠ 0) : t.epIn[n] = s.epIn[n] ∧ t.epOut[n] = s.epOut[n] := by
  rcases blockStep_cases waits h with ⟨turns, move⟩ | ⟨-, epIn, epOut⟩
  · obtain ⟨p, front, u, -, -, run, -, epIn, epOut⟩ := move.run ((State.seqOk_setSched turns).mpr ok)
    rw [epIn, epOut]
    exact runMicros_otherFlags run hn
  · rw [epIn, epOut]
    exact ⟨rfl, rfl⟩

end

/-! ### The obligations -/

/-- Settles O48: the turns of CTRL run the micro-steps of the phase one by one, which neither read nor write the schedule. -/
theorem microStepsComposeToThePhase : Obligations.MicroStepsComposeToThePhase := by
  intro s p rest seq
  obtain ⟨u, run⟩ := runPhase_completes p (s.setSched [])
  let turns := List.replicate (max 1 (phaseMicros p s).length) Turn.ctrl ++ rest
  have run' : runMicros (phaseMicros p s) (s.setSched turns) = .next (u.setSched turns) := by
    rw [← State.setSched_setSched s [] turns, runMicros_setSched, ← phaseMicros_setSched p s [],
      show runMicros _ _ = .next u from run]
    rfl
  have left : (s.setSched turns).HasLeft p (phaseMicros p s) := .inl ⟨seq, phaseMicros_setSched p s turns⟩
  refine ⟨u.advance p, ?_, ?_, ?_⟩
  · rw [State.advance_eq]
    exact step_of_phase (s := s.setSched []) rfl seq run
  · rw [State.sched_advance]
    exact runMicros_sched run
  · have steps := left.runSteps_eq run' rfl
    rw [State.advance_setSched, State.setSched_setSched] at steps
    exact steps

/-- Settles O50: every micro-step of a phase stores inside the window, and what is left inside a phase is part of it. -/
theorem blockNeverStops : Obligations.BlockNeverStops := by
  intro s inv waits
  match sched : s.sched with
  | [] => rw [step_of_no_turn sched]; exact ctrlWhole_completes inv.seq
  | .ctrl :: turns => rw [step_of_ctrl sched]; exact ctrlMicro_completes ((State.seqOk_setSched turns).mpr inv.seq)
  | .sie a i :: turns => exact nomatch waits _ _ sched
  | .boot w :: turns => exact ⟨(s.setSched turns).bootWrite w, by rw [step, sched]⟩

/-- Settles O58: the block stores only at A4, to BC[0][IN] and the data buffer of endpoint 0, and at E5, to BC[0][OUT]. -/
theorem blockLeavesOtherEndpointsAlone : Obligations.BlockLeavesOtherEndpointsAlone := by
  intro s t inv waits h
  refine ⟨fun n d hn => ⟨?_, blockStep_otherFlags inv.seq waits h hn⟩, fun a words buffer => ?_, fun changed => ?_,
    fun ⟨i, hi, changed⟩ => ?_, fun changed => ?_⟩
  · exact blockStep_bc inv.seq waits h (fun _ same => hn same.1) fun _ same => hn same.1
  · simp only [Outside, bcOff] at words
    refine blockStep_winByte inv.seq waits h (fun _ => ⟨?_, buffer⟩) fun _ => ?_ <;> simp only [Outside, bcOff] <;> omega
  · by_contra elsewhere
    exact changed (blockStep_bc (n := 0) inv.seq waits h (fun here => absurd here elsewhere) fun _ same => nomatch same.2)
  · by_contra elsewhere
    refine changed (blockStep_winByte inv.seq waits h (fun here => absurd here elsewhere) fun _ => .inr ?_)
    have := bufOff_clear 0 0 .out (by decide)
    omega
  · by_contra elsewhere
    exact changed (blockStep_bc (n := 0) inv.seq waits h (fun _ same => nomatch same.2) fun here => absurd here elsewhere)

end Sys2Proof.Machine

/-! ## The state of the block (10_state.md): its reset values, what a step can change of it, and the invariant of a safe run -/

namespace Sys2Proof.Machine

/-! ### Reset and launch (10_state.md R41, 70_reset_and_hazards.md R254) -/

/-- A word of a window in which no byte is listed reads 0. -/
theorem State.bc_of_win_nil {s : State} (h : s.win = []) (n : Nat) (d : Dir) : s.bc n d = 0 := by
  rw [State.bc, h]
  simp [Memory.read32, wordOfBytes]

/-- With no byte listed, an idle block whose two addresses agree is safe. -/
theorem State.Inv.of_empty {s : State} (win : s.win = []) (trace : s.trace = []) (idx : s.traceIdx = 0)
    (idle : s.seq = .idle) (synced : s.address = s.addr) : s.Inv where
  memory := by simp [State.memoryOk, win, trace, Memory.wf, Memory.wfAbove, Memory.below]
  traceIdx := by simp [State.traceIdxOk, idx]
  seq := by simp [State.seqOk, idle]
  address := by simpa [State.addressOk, idle] using synced
  words n d := by rw [State.bc_of_win_nil win]; decide

/-! ### A move of CTRL as a run -/

/-- A move of CTRL is a run of micro-steps and a write of the sequencer. -/
theorem CtrlMove.exists_run {s t : State} (move : CtrlMove s t) :
    ∃ p front u q, (s.seqOk → ∀ m ∈ front, m ∈ phaseMicros p s) ∧ runMicros front s = .next u ∧ t = u.setSeq q := by
  obtain ⟨p, front, back, u, place, run, next⟩ := move
  refine ⟨p, front, u, t.seq, fun ok m hm => ?_, run, ?_⟩
  · obtain ⟨before, whole⟩ := ok.micros place
    rw [← whole]
    simp [hm]
  · rcases next with ⟨-, rfl⟩ | ⟨-, -, rfl⟩
    · rw [State.advance_eq]; rfl
    · rfl

/-! ### The parameters and the enables (10_state.md R34, R40) -/

/-- `t` has the parameters and the enables of `s`. -/
def SameSettings (s t : State) : Prop :=
  t.params = s.params ∧ t.inteSetupReq = s.inteSetupReq ∧ t.inteBusReset = s.inteBusReset ∧
  t.inteBuffStatus = s.inteBuffStatus ∧ t.irqEnabled = s.irqEnabled

theorem SameSettings.refl (s : State) : SameSettings s s := ⟨rfl, rfl, rfl, rfl, rfl⟩

theorem runMicros_settings {l : List Micro} {s t : State} (h : runMicros l s = .next t) : SameSettings s t := by
  refine runMicros_keeps (P := SameSettings s) (fun m _ u v hu hv => ?_) (.refl s) h
  obtain ⟨params, setup, reset, buff, irq, -⟩ := microExec_frame hv
  obtain ⟨params', setup', reset', buff', irq'⟩ := hu
  exact ⟨params.trans params', setup.trans setup', reset.trans reset', buff.trans buff', irq.trans irq'⟩

theorem CtrlMove.settings {s t : State} (move : CtrlMove s t) : SameSettings s t := by
  obtain ⟨p, front, u, q, -, run, rfl⟩ := move.exists_run
  exact runMicros_settings (t := u) run

theorem SieFrame.settings {s t : State} (frame : SieFrame s t) : SameSettings s t := by
  unfold SieFrame at frame
  rw [frame]
  exact .refl s

/-- A step keeps the parameters and the enables, or it is a write of the boot sequence. -/
theorem step_settings {s t : State} (h : step s = .next t) :
    SameSettings s t ∨ ∃ w rest, s.sched = .boot w :: rest ∧ t = (s.setSched rest).bootWrite w := by
  obtain ⟨rest, -, ⟨-, rfl, -⟩ | ⟨move, -⟩ | ⟨a, i, -, env, rfl | run⟩ | ⟨w, turns, e⟩⟩ := step_cases h
  · left
    rcases idleTurn_cases (s.setSched rest) with e | e <;> rw [e] <;> exact .refl s
  · exact .inl move.settings
  · exact .inl (.refl s)
  · exact .inl (exec_env_frame env run).settings
  · exact .inr ⟨w, rest, turns, e⟩

/-! ### The counters and the device address (10_state.md R22, R23, R26) -/

/-- `t` has the address register, the recorded address and the counters of `s`. -/
def SameRecord (s t : State) : Prop :=
  t.addr = s.addr ∧ t.address = s.address ∧ t.resetCount = s.resetCount ∧ t.ep0OutCount = s.ep0OutCount ∧
  t.ep0InCount = s.ep0InCount

theorem SameRecord.refl (s : State) : SameRecord s s := ⟨rfl, rfl, rfl, rfl, rfl⟩

theorem SameRecord.trans {s t u : State} (h : SameRecord s t) (h' : SameRecord t u) : SameRecord s u := by
  obtain ⟨addr, address, reset, out, inn⟩ := h
  obtain ⟨addr', address', reset', out', inn'⟩ := h'
  exact ⟨addr'.trans addr, address'.trans address, reset'.trans reset, out'.trans out, inn'.trans inn⟩

/-- The one micro-step of a phase that writes a counter, the address register or the recorded address (40_event_adapter.md R126,
R128, R130); the other phases have none. -/
def Phase.recordMicro : Phase → Option Micro
  | .b2 => some .zeroDeviceAddr
  | .b3 => some .zeroAddresses
  | .b4 => some .countReset
  | .c2 => some .countEp0Out
  | .e2 => some .countEp0In
  | .e3 => some .applyDeviceAddr
  | .e4 => some .recordAddress
  | .a0 | .a1 | .a2 | .a3 | .a4 | .b0 | .b1 | .c0 | .c1 | .e0 | .e1 | .e5 | .x => none

/-- A micro-step that is none of those. -/
def Micro.Quiet (m : Micro) : Prop := ∀ p : Phase, p.recordMicro ≠ some m

theorem phaseMicros_of_recordMicro {p : Phase} {m : Micro} (one : p.recordMicro = some m) (s : State) :
    phaseMicros p s = [m] := by
  cases p <;> cases one <;> rfl

theorem Micro.InHandler.quiet {m : Micro} (h : m.InHandler) : m.Quiet := by
  intro p one
  cases p <;> cases one <;> exact h

theorem phaseMicros_quiet {p : Phase} (none : p.recordMicro = none) (s : State) : ∀ m ∈ phaseMicros p s, m.Quiet := by
  cases p with
  | a4 => exact fun m hm => (handlerMicros_inHandler _ _ m hm).quiet
  | e5 => exact fun m hm => (prepareOutBufferMicros_inHandler 1 0 m hm).quiet
  | a2 =>
    intro m hm
    simp only [phaseMicros, loadSetupMicros, List.mem_cons, List.not_mem_nil, or_false] at hm
    rcases hm with rfl | rfl | rfl | rfl | rfl | rfl | rfl | rfl <;> (intro p one; cases p <;> cases one)
  | b0 | c0 | e0 | x => intro m hm; cases hm
  | a0 | a1 | a3 | b1 | c1 | e1 => intro m hm; rw [List.mem_singleton.mp hm]; intro p one; cases p <;> cases one
  | _ => cases none

theorem Micro.Quiet.sameRecord {m : Micro} (quiet : m.Quiet) {s t : State} (h : microExec m s = .next t) :
    SameRecord s t := by
  cases m with
  | zeroDeviceAddr => exact absurd rfl (quiet .b2)
  | zeroAddresses => exact absurd rfl (quiet .b3)
  | countReset => exact absurd rfl (quiet .b4)
  | countEp0Out => exact absurd rfl (quiet .c2)
  | countEp0In => exact absurd rfl (quiet .e2)
  | applyDeviceAddr => exact absurd rfl (quiet .e3)
  | recordAddress => exact absurd rfl (quiet .e4)
  | sampleFlags => simp only [microExec] at h; split at h <;> cases h <;> exact .refl s
  | loadSetupByte i => obtain ⟨-, rfl⟩ := State.loadIntoLatch_eq_next.mp h; exact .refl s
  | storeByte off v => obtain ⟨-, rfl⟩ := State.storeBytes_eq_next.mp h; exact .refl s
  | storeWord off w => obtain ⟨-, -, rfl⟩ := State.storeWord_eq_next.mp h; exact .refl s
  | appendTrace =>
    cases h
    rcases s.appendTrace_cases with ⟨-, e⟩ | ⟨-, -, -, e⟩ | ⟨-, -, e⟩ <;> rw [e] <;> exact .refl s
  | _ => cases h; exact .refl s

theorem runMicros_sameRecord {l : List Micro} (quiet : ∀ m ∈ l, m.Quiet) {s t : State} (h : runMicros l s = .next t) :
    SameRecord s t :=
  runMicros_keeps (P := SameRecord s) (fun m hm _ _ hu hv => hu.trans ((quiet m hm).sameRecord hv)) (.refl s) h

/-- A move of CTRL does the one micro-step of its phase that writes the counters and addresses, and moves the sequencer on; or
it leaves them, at a phase that has no such micro-step. -/
theorem CtrlMove.record_cases {s t : State} (ok : s.seqOk) (move : CtrlMove s t) :
    (∃ p m u, p.recordMicro = some m ∧ s.seq = .phase p ∧ microExec m s = .next u ∧ t = u.setSeq (nextSeq p u)) ∨
    (∃ p u, p.recordMicro = none ∧ s.AtPhase p ∧ SameRecord s t ∧
      (t.seq = nextSeq p u ∨ ∃ left, t.seq = .inside p left)) := by
  rcases move.cases ok with ⟨p, u, seq, -, run, rfl⟩ | ⟨p, before, front, back, u, long, whole, place, run, next⟩
  · rw [State.advance_eq]
    cases one : p.recordMicro with
    | some m =>
      rw [runPhase, phaseMicros_of_recordMicro one, runMicros_singleton] at run
      exact .inl ⟨p, m, u, one, seq, run, rfl⟩
    | none => exact .inr ⟨p, u, one, .inl seq, runMicros_sameRecord (t := u) (phaseMicros_quiet one s) run, .inl rfl⟩
  · have none : p.recordMicro = none := by rcases long with rfl | rfl | rfl <;> rfl
    have same : SameRecord s u :=
      runMicros_sameRecord (fun m hm => phaseMicros_quiet none s m (by rw [← whole]; simp [hm])) run
    rcases next with ⟨-, rfl⟩ | ⟨-, -, rfl⟩
    · rw [State.advance_eq]
      exact .inr ⟨p, u, none, place, same, .inl rfl⟩
    · exact .inr ⟨p, u, none, place, same, .inr ⟨back, rfl⟩⟩

/-- A move of CTRL changes a counter only in its phase, by 1. -/
theorem CtrlMove.counters {s t : State} (ok : s.seqOk) (move : CtrlMove s t) :
    (t.resetCount ≠ s.resetCount → s.seq = .phase .b4 ∧ t.resetCount = s.resetCount + 1) ∧
    (t.ep0OutCount ≠ s.ep0OutCount → s.seq = .phase .c2 ∧ t.ep0OutCount = s.ep0OutCount + 1) ∧
    (t.ep0InCount ≠ s.ep0InCount → s.seq = .phase .e2 ∧ t.ep0InCount = s.ep0InCount + 1) := by
  rcases move.record_cases ok with ⟨p, m, u, one, seq, run, rfl⟩ | ⟨-, -, -, -, ⟨-, -, reset, out, inn⟩, -⟩
  · cases p with
    | b4 => cases one; cases run; exact ⟨fun _ => ⟨seq, rfl⟩, absurd rfl, absurd rfl⟩
    | c2 => cases one; cases run; exact ⟨absurd rfl, fun _ => ⟨seq, rfl⟩, absurd rfl⟩
    | e2 => cases one; cases run; exact ⟨absurd rfl, absurd rfl, fun _ => ⟨seq, rfl⟩⟩
    | b2 | b3 | e3 | e4 => cases one; cases run; exact ⟨absurd rfl, absurd rfl, absurd rfl⟩
    | _ => cases one
  · exact ⟨absurd reset, absurd out, absurd inn⟩

theorem SieFrame.sameRecord {s t : State} (frame : SieFrame s t) : SameRecord s t := by
  unfold SieFrame at frame
  rw [frame]
  exact .refl s

/-- A step is a move of CTRL inside a phase, or leaves the counters and addresses: a wait, the start of an entry, a move of the
SIE, a write of the boot sequence. -/
theorem step_move_or_sameRecord {s t : State} (h : step s = .next t) :
    (∃ turns, CtrlMove (s.setSched turns) t) ∨ SameRecord s t := by
  obtain ⟨turns, -, ⟨-, rfl, -⟩ | ⟨move, -⟩ | ⟨a, i, -, env, rfl | run⟩ | ⟨w, -, rfl⟩⟩ := step_cases h
  · right
    rcases idleTurn_cases (s.setSched turns) with e | e <;> rw [e] <;> exact .refl s
  · exact .inl ⟨turns, move⟩
  · exact .inr (.refl s)
  · exact .inr (exec_env_frame env run).sameRecord
  · right
    cases w <;> exact .refl s

/-! ### The sequencer (10_state.md R24) -/

theorem State.seqOk_congr {s t : State} (params : t.params = s.params) (pkt : t.pkt = s.pkt) (seq : t.seq = s.seq) :
    t.seqOk ↔ s.seqOk := by
  simp only [State.seqOk, seq, phaseMicros_congr params pkt]

theorem State.seqOk_advance (p : Phase) (s : State) : (s.advance p).seqOk := by
  rw [State.advance_eq]
  rcases nextSeq_cases p s with e | ⟨q, e⟩ <;> rw [e] <;> trivial

/-- A phase keeps the list of its own micro-steps: only A4 reads the latch for it, and a handler does not write the latch. -/
theorem phaseMicros_runMicros {p : Phase} {front : List Micro} {s t : State} (part : ∀ m ∈ front, m ∈ phaseMicros p s)
    (run : runMicros front s = .next t) : phaseMicros p t = phaseMicros p s := by
  cases p with
  | a4 =>
    have frame : HandlerFrame s t := runMicros_handler_frame (fun m hm => handlerMicros_inHandler _ _ m (part m hm)) run
    unfold HandlerFrame at frame
    rw [frame]
    exact phaseMicros_congr rfl rfl
  | _ => rfl

/-- A move of CTRL stands between phases after it, or inside a phase with some of its micro-steps done and some left. -/
theorem CtrlMove.seqOk {s t : State} (ok : s.seqOk) (move : CtrlMove s t) : t.seqOk := by
  rcases move.cases ok with ⟨p, u, -, -, -, rfl⟩ | ⟨p, before, front, back, u, -, whole, -, run, next⟩
  · exact u.seqOk_advance p
  · rcases next with ⟨-, rfl⟩ | ⟨some, rest, rfl⟩
    · exact u.seqOk_advance p
    · have same := phaseMicros_runMicros (fun m hm => by rw [← whole]; simp [hm]) run
      exact ⟨rest, before ++ front, some, by rw [phaseMicros_setSeq, same, whole]⟩

/-! ### The two addresses (10_state.md R23) -/

theorem State.addressOk_iff {s : State} (away : s.seq ≠ .phase .b3 ∧ s.seq ≠ .phase .e4) :
    s.addressOk ↔ s.address = s.addr := by
  rw [State.addressOk]
  split
  · exact absurd ‹_› away.1
  · exact absurd ‹_› away.2
  · exact Iff.rfl

theorem State.addressOk_b3 {s : State} (seq : s.seq = .phase .b3) : s.addressOk ↔ s.addr = 0 := by
  rw [State.addressOk, seq]

theorem State.addressOk_e4 {s : State} (seq : s.seq = .phase .e4) :
    s.addressOk ↔ s.addr = if s.pendingAddress = 0 then s.address else s.pendingAddress := by
  rw [State.addressOk, seq]

/-- The sequencer comes to B3 only from B2, and to E4 only from E3. -/
theorem nextSeq_ne {p : Phase} (b2 : p ≠ .b2) (e3 : p ≠ .e3) (s : State) :
    nextSeq p s ≠ .phase .b3 ∧ nextSeq p s ≠ .phase .e4 := by
  cases p with
  | b2 => exact absurd rfl b2
  | e3 => exact absurd rfl e3
  | a0 | b0 | c0 | e0 => rw [nextSeq]; split <;> exact ⟨nofun, nofun⟩
  | _ => exact ⟨nofun, nofun⟩

/-- Equal addresses are all that is asked after a phase, but for B2 and E3. -/
theorem State.addressOk_next {p : Phase} (b2 : p ≠ .b2) (e3 : p ≠ .e3) {s : State} (synced : s.address = s.addr) :
    (s.setSeq (nextSeq p s)).addressOk :=
  (State.addressOk_iff (nextSeq_ne b2 e3 s)).mpr synced

/-- A move of CTRL keeps the two addresses equal, but for what holds between B2 and B3 and between E3 and E4. -/
theorem CtrlMove.addressOk {s t : State} (seqOk : s.seqOk) (ok : s.addressOk) (move : CtrlMove s t) : t.addressOk := by
  rcases move.record_cases seqOk with ⟨p, m, u, one, seq, run, rfl⟩ | ⟨p, u, quiet, place, ⟨addr, address, -⟩, next⟩
  · cases p with
    | b2 => cases one; cases run; exact (State.addressOk_b3 rfl).mpr rfl
    | b3 =>
      rw [State.addressOk_b3 seq] at ok
      cases one; cases run
      exact State.addressOk_next (by decide) (by decide) ok.symm
    | e3 =>
      rw [State.addressOk_iff (by rw [seq]; decide)] at ok
      cases one; cases run
      refine (State.addressOk_e4 rfl).mpr ?_
      simp only [State.addr_setSeq, State.address_setSeq, State.pendingAddress_setSeq, ok]
    | e4 =>
      rw [State.addressOk_e4 seq] at ok
      cases one; cases run
      exact State.addressOk_next (by decide) (by decide) ok.symm
    | b4 | c2 | e2 =>
      rw [State.addressOk_iff (by rw [seq]; decide)] at ok
      cases one; cases run
      exact State.addressOk_next (by decide) (by decide) ok
    | _ => cases one
  · have other {q : Phase} (writes : q.recordMicro ≠ none) : p ≠ q := by rintro rfl; exact writes quiet
    have before : s.seq ≠ .phase .b3 ∧ s.seq ≠ .phase .e4 := by
      rcases place with e | ⟨left, e⟩ <;> rw [e]
      · simp only [ne_eq, Seq.phase.injEq]
        exact ⟨other nofun, other nofun⟩
      · exact ⟨nofun, nofun⟩
    have after : t.seq ≠ .phase .b3 ∧ t.seq ≠ .phase .e4 := by
      rcases next with e | ⟨left, e⟩ <;> rw [e]
      · exact nextSeq_ne (other nofun) (other nofun) u
      · exact ⟨nofun, nofun⟩
    rw [State.addressOk_iff before] at ok
    rw [State.addressOk_iff after, addr, address, ok]

/-! ### The invariant of a safe run -/

theorem State.Inv.setSched {s : State} (inv : s.Inv) (l : List Turn) : (s.setSched l).Inv :=
  ⟨inv.memory, inv.traceIdx, (State.seqOk_setSched l).mpr inv.seq, inv.address, inv.words⟩

theorem CtrlMove.memoryOk {s t : State} (ok : s.memoryOk) (move : CtrlMove s t) : t.memoryOk := by
  obtain ⟨p, front, u, q, -, run, rfl⟩ := move.exists_run
  exact runMicros_keeps (P := State.memoryOk) (t := u) (fun _ _ _ _ => microExec_memoryOk) ok run

theorem CtrlMove.traceIdxOk {s t : State} (ok : s.traceIdxOk) (move : CtrlMove s t) : t.traceIdxOk := by
  obtain ⟨p, front, u, q, -, run, rfl⟩ := move.exists_run
  exact runMicros_keeps (P := State.traceIdxOk) (t := u) (fun _ _ _ _ => microExec_traceIdxOk) ok run

theorem CtrlMove.wordsOk {s t : State} (seqOk : s.seqOk) (ok : s.wordsOk) (move : CtrlMove s t) : t.wordsOk := by
  obtain ⟨p, front, u, q, part, run, rfl⟩ := move.exists_run
  exact runMicros_keeps (P := State.wordsOk) (t := u)
    (fun m hm _ _ => microExec_wordsOk (phaseMicros_inPhase p s m (part seqOk m hm))) ok run

theorem CtrlMove.inv {s t : State} (inv : s.Inv) (move : CtrlMove s t) : t.Inv :=
  ⟨move.memoryOk inv.memory, move.traceIdxOk inv.traceIdx, move.seqOk inv.seq, move.addressOk inv.seq inv.address,
    move.wordsOk inv.seq inv.words⟩

/-- CTRL at IDLE keeps the invariant, whether it waits or starts an entry. -/
theorem idleTurn_inv {s : State} (inv : s.Inv) (idle : s.seq = .idle) : (idleTurn s).Inv := by
  rcases idleTurn_cases s with e | e <;> rw [e]
  · exact inv
  · have synced := (State.addressOk_iff (by rw [idle]; decide)).mp inv.address
    exact ⟨inv.memory, inv.traceIdx, trivial, synced, inv.words⟩

/-- A move of the SIE keeps the invariant: it writes neither the latch nor the sequencer nor an address. -/
theorem exec_env_inv {i : Instr} {s t : State} (env : i.format = .env) (inv : s.Inv) (h : exec i s = .next t) : t.Inv := by
  obtain ⟨memory, words⟩ := exec_env_keeps env inv.memory inv.words h
  have frame := exec_env_frame env h
  unfold SieFrame at frame
  refine ⟨memory, ?_, ?_, ?_, words⟩
  · rw [frame]; exact inv.traceIdx
  · rw [frame]; exact (State.seqOk_congr rfl rfl rfl).mpr inv.seq
  · rw [frame]; exact inv.address

theorem State.bootWrite_inv {s : State} (inv : s.Inv) (w : BootWrite) : (s.bootWrite w).Inv := by
  cases w <;> exact ⟨inv.memory, inv.traceIdx, (State.seqOk_congr rfl rfl rfl).mpr inv.seq, inv.address, inv.words⟩

/-! ### The obligations -/

/-- Settles O49: by the cases of a step, each component of the invariant kept on its own. -/
theorem everyStepKeepsTheInvariant : Obligations.EveryStepKeepsTheInvariant := by
  intro s t inv h
  obtain ⟨turns, -, ⟨idle, rfl, -⟩ | ⟨move, -⟩ | ⟨a, i, -, env, rfl | run⟩ | ⟨w, -, rfl⟩⟩ := step_cases h
  · exact idleTurn_inv (inv.setSched turns) idle
  · exact move.inv (inv.setSched turns)
  · exact inv.setSched turns
  · exact exec_env_inv env (inv.setSched turns) run
  · exact State.bootWrite_inv (inv.setSched turns) w

/-- Settles O56: no micro-step and no move of the SIE writes a parameter or an enable. -/
theorem onlyTheBootSequenceWritesTheEnables : Obligations.OnlyTheBootSequenceWritesTheEnables := by
  intro s t h
  rcases step_settings h with ⟨params, enables⟩ | ⟨w, rest, turns, rfl⟩
  · exact ⟨params, fun _ => enables⟩
  · refine ⟨?_, fun noBoot => absurd turns (noBoot w rest)⟩
    cases w <;> rfl

/-- Settles O57: only the one micro-step of its phase writes a counter. -/
theorem countersChangeOnlyInTheirPhase : Obligations.CountersChangeOnlyInTheirPhase := by
  intro s t inv h
  have modulo {v w : Word} (e : v = w + 1) : v.toNat = (w.toNat + 1) % 2 ^ 32 := by
    rw [e]
    exact BitVec.toNat_add w 1
  rcases step_move_or_sameRecord h with ⟨turns, move⟩ | ⟨-, -, reset, out, inn⟩
  · obtain ⟨b4, c2, e2⟩ := move.counters ((State.seqOk_setSched turns).mpr inv.seq)
    exact ⟨fun h => (b4 h).imp_right modulo, fun h => (c2 h).imp_right modulo, fun h => (e2 h).imp_right modulo⟩
  · exact ⟨absurd reset, absurd out, absurd inn⟩

/-- Settles O8: the reset state as written, its flags and its words read one by one. -/
theorem resetHoldsTheSpecifiedValues : Obligations.ResetHoldsTheSpecifiedValues := by
  refine ⟨rfl, rfl, rfl, rfl, rfl, rfl, rfl, rfl, rfl, rfl, fun n => ?_, rfl, rfl, rfl, rfl, fun n d => ?_⟩
  · exact ⟨Vector.getElem_replicate n.isLt, Vector.getElem_replicate n.isLt⟩
  · exact State.bc_of_win_nil rfl n d

/-- Settles O10: neither state lists a byte, and both are idle with address 0. -/
theorem resetAndBootAreSafe : Obligations.ResetAndBootAreSafe :=
  ⟨.of_empty rfl rfl rfl rfl rfl, .of_empty rfl rfl rfl rfl rfl⟩

end Sys2Proof.Machine

/-! ## The layout of the window (20_memory.md R61 to R63) -/

namespace Sys2Proof.Machine

/-- The SETUP bytes end before the first word. -/
theorem setupOff_clear (n : Nat) (d : Dir) : Config.setupOff + 8 ≤ bcOff n d :=
  le_trans (by decide) (le_bcOff n d)

/-- The 64 bytes of a data buffer lie inside the smallest window, which ends 64 bytes after the last of them. -/
theorem bufOff_lt {n : Nat} (h : n < 16) : bufOff n + 64 ≤ Config.windowMin := by
  simp only [bufOff, Config.windowMin]
  omega

/-- Two data buffers do not overlap: they start 0x80 bytes apart and hold 64. -/
theorem bufOff_disjoint {n m : Nat} (h : n ≠ m) : bufOff n + 64 ≤ bufOff m ∨ bufOff m + 64 ≤ bufOff n := by
  simp only [bufOff]
  omega

/-- Settles O7: the words by their offsets below 0x100, the data buffers by their stride of 0x80 bytes from there. -/
theorem windowLayoutHasNoOverlap : Obligations.WindowLayoutHasNoOverlap := by
  intro n m d e
  refine ⟨rfl, rfl, rfl, bcOff_aligned n d, setupOff_clear n d, bufOff_clear n m d n.isLt, bufOff_lt n.isLt, ?words,
    ?buffers⟩
  case words => exact fun h => bcOff_disjoint fun same => h ⟨Fin.ext same.1, same.2⟩
  case buffers => exact fun h => bufOff_disjoint (Fin.val_ne_of_ne h)

end Sys2Proof.Machine

/-! ## The SETUP packet (30_encoding.md R90 to R94, R98, R99, R104): decoding a packet and encoding a row are inverse to each
other, and a packet is 8 bytes -/

namespace Sys2Proof

/-! ### The selectors of the rows that are a range -/

/-- The request codes from 13 on select one row (30_encoding.md R98). -/
theorem decodeRequest_of_ge_13 {k : SetupPacket} (h : 13 ≤ k.request.toNat) :
    decodeRequest k = .req13To255Unassigned k.requestType k.request k.value k.index k.length := by
  rw [decodeRequest]
  split
  case h_14 => rfl
  all_goals omega

/-- The string indices from 4 on select one row (30_encoding.md R99). -/
theorem decodeString_of_ge_4 {s : Byte} (h : 4 ≤ s.toNat) (t : Byte) (i l : Half) :
    decodeString t s i l = .getDescriptorStringOther t s i l := by
  rw [decodeString]
  split
  case h_5 => rfl
  all_goals omega

theorem mem_knownDescriptorTypes {d : Byte} :
    d ∈ knownDescriptorTypes ↔
      d.toNat = 0x01 ∨ d.toNat = 0x02 ∨ d.toNat = 0x03 ∨ d.toNat = 0x06 ∨ d.toNat = 0x22 := by
  simp [knownDescriptorTypes, ← BitVec.toNat_inj]

/-- The types outside the catalog select one row (30_encoding.md R99). -/
theorem decodeDescriptor_of_unknown {d : Byte} (h : d ∉ knownDescriptorTypes) (t s : Byte) (i l : Half) :
    decodeDescriptor t d s i l = .getDescriptorOther t d s i l := by
  rw [mem_knownDescriptorTypes] at h
  rw [decodeDescriptor]
  split
  case h_6 => rfl
  all_goals omega

/-- A descriptor packet goes on to the descriptor level, its two selectors the bytes of `value` (30_encoding.md R92, R94). -/
theorem decode_descriptorPacket (t d s : Byte) (i l : Half) :
    decode (descriptorPacket t d s i l) = decodeDescriptor t d s i l := by
  simp [decode, descriptorPacket]

/-! ### Encoding, then decoding -/

/-- The SETUP rows are those with an encoding, and those with a level (30_encoding.md R104). -/
theorem isSome_encodePacket (i : Instr) : (encodePacket i).isSome = decide (i.format = .setup) := by
  cases i <;> rfl

theorem isSome_level (i : Instr) : i.level.isSome = decide (i.format = .setup) := by
  cases i <;> rfl

/-- The packet of a well-formed row selects that row at the row's own level. -/
theorem decodeAtLevel_encodePacket {i : Instr} (wf : i.wf = true) {k : SetupPacket} {l : Level}
    (packet : encodePacket i = some k) (level : i.level = some l) : decodeAtLevel l k = i := by
  cases i with
  | req13To255Unassigned t r v x n =>
    cases packet; cases level
    exact decodeRequest_of_ge_13 (of_decide_eq_true wf)
  | getDescriptorStringOther t s x n =>
    cases packet; cases level
    exact (decode_descriptorPacket t 0x03 s x n).trans (decodeString_of_ge_4 (of_decide_eq_true wf) t x n)
  | getDescriptorOther t d s x n =>
    cases packet; cases level
    exact (decode_descriptorPacket t d s x n).trans (decodeDescriptor_of_unknown (of_decide_eq_true wf) t s x n)
  | getDescriptorDevice | getDescriptorConfiguration | getDescriptorDeviceQualifier | getDescriptorHidReport
  | getDescriptorString0 | getDescriptorString1 | getDescriptorString2 | getDescriptorString3 =>
    cases packet; cases level
    rw [decodeAtLevel, decode_descriptorPacket]
    rfl
  | getStatus | clearFeature | req2Unassigned | setFeature | req4Unassigned | setAddress | setDescriptor | getConfiguration
  | setConfiguration | getInterface | setInterface | synchFrame | getDescriptor =>
    cases packet; cases level
    rfl
  | _ => exact nomatch packet

/-! ### Decoding, then encoding -/

/-- A well-formed SETUP row: what the decoder answers at each level. -/
def Instr.IsSetupRow (i : Instr) : Prop := i.wf = true ∧ i.format = .setup

theorem decodeRequest_isSetupRow (k : SetupPacket) : (decodeRequest k).IsSetupRow := by
  rw [decodeRequest]
  split
  case h_14 =>
    simp only [imp_false] at *
    exact ⟨decide_eq_true (show 13 ≤ k.request.toNat by omega), rfl⟩
  all_goals exact ⟨rfl, rfl⟩

theorem decodeString_isSetupRow (t s : Byte) (i l : Half) : (decodeString t s i l).IsSetupRow := by
  rw [decodeString]
  split
  case h_5 =>
    simp only [imp_false] at *
    exact ⟨decide_eq_true (show 4 ≤ s.toNat by omega), rfl⟩
  all_goals exact ⟨rfl, rfl⟩

theorem decodeDescriptor_isSetupRow (t d s : Byte) (i l : Half) : (decodeDescriptor t d s i l).IsSetupRow := by
  rw [decodeDescriptor]
  split
  case h_3 => exact decodeString_isSetupRow t s i l
  case h_6 =>
    have unknown : d ∉ knownDescriptorTypes := by
      simp only [mem_knownDescriptorTypes, imp_false] at *
      omega
    exact ⟨decide_eq_true unknown, rfl⟩
  all_goals exact ⟨rfl, rfl⟩

theorem decode_isSetupRow (k : SetupPacket) : (decode k).IsSetupRow := by
  rw [decode]
  split
  · exact decodeDescriptor_isSetupRow ..
  · exact decodeRequest_isSetupRow k

theorem level_decodeRequest (k : SetupPacket) : (decodeRequest k).level = some .request := by
  rw [decodeRequest]
  split <;> rfl

theorem encode_decode (p : BitVec 64) : encode (decode (.ofBits p)) = some p := by
  rw [encode, encodePacket_decode, Option.map_some, SetupPacket.toBits_ofBits]

theorem encode_decodeRequest (p : BitVec 64) : encode (decodeRequest (.ofBits p)) = some p := by
  rw [encode, encodePacket_decodeRequest, Option.map_some, SetupPacket.toBits_ofBits]

/-! ### The bytes of a packet -/

theorem extractLsb'_extractLsb' {w : Nat} (x : BitVec w) {a n b m : Nat} (h : b + m ≤ n) :
    (x.extractLsb' a n).extractLsb' b m = x.extractLsb' (a + b) m := by
  apply BitVec.eq_of_getLsbD_eq
  intro i hi
  simp [hi, show b + i < n by omega, Nat.add_assoc]

/-- Byte `j` of a packet is bits `8*j+7` to `8*j` of its value `P` (30_encoding.md R90). -/
theorem SetupPacket.extractLsb'_toBits (k : SetupPacket) {j : Nat} (h : j < 8) :
    k.toBits.extractLsb' (8 * j) 8 = k.toBytes.getD j 0 := by
  have fields : k.toBytes = (SetupPacket.ofBits k.toBits).toBytes := by rw [SetupPacket.ofBits_toBits]
  rw [fields]
  interval_cases j <;> simp [SetupPacket.ofBits, SetupPacket.toBytes, lowByte, highByte, extractLsb'_extractLsb']

theorem decodeBytes_of_length_ne {bs : List Byte} (h : bs.length ≠ 8) :
    decodeBytes bs = .error (.notEightBytes bs.length) := by
  rw [decodeBytes.eq_def]
  split
  · exact absurd rfl h
  · rfl

/-! ### The obligations -/

/-- Settles O1: by the rows of the table, each selected again by the fields its packet fixes. -/
theorem encodeThenDecodeReturnsTheOperation : Obligations.EncodeThenDecodeReturnsTheOperation := by
  intro i wf
  constructor
  · intro setup
    obtain ⟨k, packet⟩ := Option.isSome_iff_exists.mp ((isSome_encodePacket i).trans (decide_eq_true setup))
    obtain ⟨l, level⟩ := Option.isSome_iff_exists.mp ((isSome_level i).trans (decide_eq_true setup))
    refine ⟨k.toBits, l, by rw [encode, packet, Option.map_some], level, ?_⟩
    rw [SetupPacket.ofBits_toBits]
    exact decodeAtLevel_encodePacket wf packet level
  · intro other
    have noPacket : encodePacket i = none := by
      rwa [← Option.not_isSome_iff_eq_none, isSome_encodePacket, decide_eq_true_eq]
    rw [encode, noPacket, Option.map_none]

/-- Settles O2: the decoder answers a well-formed row at each level and loses no field. -/
theorem decodeThenEncodeReturnsThePacket : Obligations.DecodeThenEncodeReturnsThePacket := by
  intro p
  obtain ⟨wf, setup⟩ := decode_isSetupRow (.ofBits p)
  obtain ⟨wf', -⟩ := decodeRequest_isSetupRow (.ofBits p)
  exact ⟨wf, setup, encode_decode p, wf', level_decodeRequest _, encode_decodeRequest p⟩

/-- Settles O3: eight bytes are the packet `ofBytes` of them, and the decoder's other case names the length. -/
theorem decodeBytesReadsExactlyEightBytes : Obligations.DecodeBytesReadsExactlyEightBytes := by
  intro bs
  refine ⟨fun eight => ?_, decodeBytes_of_length_ne⟩
  match bs, eight with
  | [b0, b1, b2, b3, b4, b5, b6, b7], _ =>
    have bytes := SetupPacket.toBytes_ofBytes b0 b1 b2 b3 b4 b5 b6 b7
    exact ⟨.ofBytes b0 b1 b2 b3 b4 b5 b6 b7, rfl, bytes, (SetupPacket.ofBits_toBits _).symm,
      fun j hj => by rw [SetupPacket.extractLsb'_toBits _ hj, bytes], rfl, rfl, toNat_le16 b2 b3, toNat_le16 b4 b5,
      toNat_le16 b6 b7⟩

/-- Settles O4: each packet by evaluation. -/
theorem writtenOutPacketsDecode : Obligations.WrittenOutPacketsDecode := by
  unfold Obligations.WrittenOutPacketsDecode
  decide

end Sys2Proof

/-! ## What a packet's operation reads, the words of the Transfer Engine, and its fixed calls (30_encoding.md R92, R95,
R96, R101, R103) -/

namespace Sys2Proof.Machine

/-! ### The fields an operation reads -/

/-- The address a SET_ADDRESS stores is the low 7 bits of `value` (30_encoding.md R92 d). -/
theorem newAddress_congr {v v' : Half} (h : v.toNat % 128 = v'.toNat % 128) : newAddress v = newAddress v' := by
  apply BitVec.eq_of_toNat_eq
  simpa [newAddress, BitVec.extractLsb'_toNat] using h

theorem execSetAddress_congr {v v' : Half} (h : v.toNat % 128 = v'.toNat % 128) (s : State) :
    execSetAddress v s = execSetAddress v' s := by
  rw [execSetAddress, execSetAddress, setAddressMicros, setAddressMicros, newAddress_congr h]

/-- At the request level the code selects the operation; of the other fields SET_ADDRESS reads `value` and GET_DESCRIPTOR
`value` and `length` (41_request_dispatcher.md R141). -/
theorem exec_decodeRequest_congr {k k' : SetupPacket} (s : State) (request : k.request = k'.request)
    (descriptor : k.request = 6 → k.value = k'.value ∧ k.length = k'.length)
    (address : k.request = 5 → k.value.toNat % 128 = k'.value.toNat % 128) :
    exec (decodeRequest k) s = exec (decodeRequest k') s := by
  simp only [decodeRequest, ← request]
  split
  case h_6 five => exact execSetAddress_congr (address (BitVec.eq_of_toNat_eq five)) s
  case h_7 six =>
    obtain ⟨value, length⟩ := descriptor (BitVec.eq_of_toNat_eq six)
    rw [value, length]
    rfl
  all_goals rfl

/-! ### The words of the Transfer Engine -/

/-- The fields of a word composed whole (30_encoding.md R95, R96). -/
theorem bcWord_fields {n : Nat} (h : n < 1024) (a st p f : Bool) :
    bcLength (bcWord n a st p f) = n ∧ bcAvailable (bcWord n a st p f) = a ∧ bcStall (bcWord n a st p f) = st ∧
    bcPid (bcWord n a st p f) = p ∧ bcFull (bcWord n a st p f) = f ∧ bcReserved (bcWord n a st p f) = false :=
  ⟨bcLength_bcWord a st p f h, bcAvailable_bcWord .., bcStall_bcWord .., bcPid_bcWord .., bcFull_bcWord ..,
    bcReserved_bcWord ..⟩

/-! ### The pseudo-operations, as claims state their effects -/

theorem execArmStatusIn_sends (s : State) : ∃ t, exec .armStatusIn s = .next t ∧ SendsIn 0 1 [] 0 s t :=
  ⟨_, execSendToHost_ok (n := 0) (pid := 1) (size := 0) rfl none s,
    sendsIn_of_stores (by decide) (by decide) (by decide) _ s⟩

theorem execRearmOut_arms (s : State) : ∃ t, exec .rearmOut s = .next t ∧ ArmsOut 0 1 0 s t :=
  ⟨_, execPrepareOutBuffer_ok (n := 0) (pid := 1) (size := 0) rfl s, armsOut_of_store (by decide) (by decide) s⟩

theorem execStallEp0_stalls (s : State) : ∃ t, exec .stallEp0 s = .next t ∧ StallsIn 0 1 s t :=
  ⟨_, execSendStall_ok (n := 0) (pid := 1) rfl s, stallsIn_of_store (by decide) s⟩

theorem execSendDescriptor_sends {q : RomSeq} {size : Nat} {s : State} (fits : size < 65)
    (declared : size ≤ declaredLen s.params q) :
    ∃ t, exec (.sendDescriptor q size) s = .next t ∧ SendsIn 0 1 ((romBytes s.params q).take size) size s t := by
  have check : checkSized 0 1 size = .ok := checkSized_eq_ok.mpr ⟨by decide, by decide, fits⟩
  refine ⟨_, execSendToHost_ok check (some q) s, ?_⟩
  rw [sourceBytes, romSlice_eq_take declared]
  exact sendsIn_of_stores (by decide) (by decide) fits _ s

theorem execSendDescriptor_refused {size : Nat} (long : 65 ≤ size) (q : RomSeq) (s : State) :
    exec (.sendDescriptor q size) s = .next { s with indicator := .fail } :=
  execSendToHost_fail (checkSized_eq_fail.mpr (.inr (.inr long))) (some q) s

/-! ### The obligations -/

/-- Settles O5: the end of decoding runs as its request level does, and there the code selects. -/
theorem ignoredFieldsDoNotMatter : Obligations.IgnoredFieldsDoNotMatter := by
  intro k k' s request descriptor address
  rw [← exec_decodeRequest k s, ← exec_decodeRequest k' s]
  exact exec_decodeRequest_congr s request descriptor address

/-- Settles O6: each hexadecimal form is a word composed from its fields. -/
theorem engineWordsHaveTheirFields : Obligations.EngineWordsHaveTheirFields := by
  intro p size hp hs
  rw [← inWord_eq_ofNat hp hs, ← outWord_eq_ofNat hp hs, ← stallWord_eq_ofNat hp]
  exact ⟨bcWord_fields (by omega) .., bcWord_fields (by omega) .., bcWord_fields (by decide) ..⟩

/-- Settles O34: each pseudo-operation is its call by definition, and the call's arguments are in range unless `size` is not. -/
theorem pseudoOperationsAreFixedCalls : Obligations.PseudoOperationsAreFixedCalls := by
  intro q size s
  exact ⟨rfl, rfl, rfl, rfl, execArmStatusIn_sends s, execRearmOut_arms s, execStallEp0_stalls s, execSendDescriptor_sends,
    fun long => execSendDescriptor_refused long q s⟩

end Sys2Proof.Machine

/-! ## The Event Adapter (40_event_adapter.md): each branch whole, the order of the phases, and the branches as the sequencer
runs them -/

namespace Sys2Proof.Machine

/-! ### The branches whole (40_event_adapter.md R123 to R126, R128) -/

/-- EV_BUS_RESET, whole (40_event_adapter.md R126). -/
theorem execEvBusReset_eq (s : State) :
    execEvBusReset s = .next { s with
      busReset := false, addr := 0, pendingAddress := 0, address := 0, resetCount := s.resetCount + 1 } := rfl

/-- EV_EP0_OUT, whole (40_event_adapter.md R128). -/
theorem execEvEp0Out_eq (s : State) :
    execEvEp0Out s = .next { s with epOut := s.epOut.set 0 false, ep0OutCount := s.ep0OutCount + 1 } := rfl

theorem execTraceAppend_eq (s : State) : execTraceAppend s = .next s.appendTrace := rfl

/-- Whatever a packet decodes to, its handler completes (41_request_dispatcher.md R140). -/
theorem exec_dispatch_completes (k : SetupPacket) (s : State) : ∃ t, exec (.dispatch k) s = .next t :=
  runMicros_completes (handlerMicros_inHandler s.params (decode k)) s

/-- The packet in the window (40_event_adapter.md R123). -/
def State.windowPacket (s : State) : SetupPacket :=
  SetupPacket.ofBytes (s.winByte 0) (s.winByte 1) (s.winByte 2) (s.winByte 3) (s.winByte 4) (s.winByte 5) (s.winByte 6)
    (s.winByte 7)

theorem State.toBytes_windowPacket (s : State) : s.windowPacket.toBytes = Memory.readBytes s.win Config.setupOff 8 := by
  rw [State.windowPacket, SetupPacket.toBytes_ofBytes]
  rfl

/-! ### The trace append (40_event_adapter.md R124) -/

section
variable {s : State}

/-- With room the 8 bytes of the latch go to the index. -/
theorem State.appendTrace_of_room (room : s.traceIdx < s.params.traceCap) :
    s.appendTrace =
      { s with trace := Memory.writeBytes s.trace (8 * s.traceIdx) s.pkt.toBytes, traceIdx := s.traceIdx + 1 } :=
  if_pos room

theorem State.appendTrace_of_wrap (full : s.params.traceCap ≤ s.traceIdx) (policy : s.params.tracePolicy = .wrap)
    (cap : 0 < s.params.traceCap) :
    s.appendTrace = { s with trace := Memory.writeBytes s.trace 0 s.pkt.toBytes, traceIdx := 1 } := by
  simp [State.appendTrace, full, policy, cap]

theorem State.appendTrace_of_drop (full : s.params.traceCap ≤ s.traceIdx)
    (drop : s.params.tracePolicy = .truncate ∨ s.params.traceCap = 0) : s.appendTrace = s := by
  rcases s.appendTrace_cases with ⟨room, -⟩ | ⟨-, policy, cap, -⟩ | ⟨-, -, same⟩
  · exact absurd full (Nat.not_le_of_lt room)
  · rcases drop with truncate | none
    · exact nomatch policy.symm.trans truncate
    · exact absurd none (Nat.ne_of_gt cap)
  · exact same

end

/-- The append writes the trace and its index. -/
theorem State.appendTrace_frame (s : State) :
    s.appendTrace = { s with trace := s.appendTrace.trace, traceIdx := s.appendTrace.traceIdx } := by
  rcases s.appendTrace_cases with ⟨-, e⟩ | ⟨-, -, -, e⟩ | ⟨-, -, e⟩ <;> rw [e]

/-! ### The order of the phases (40_event_adapter.md R121) -/

/-- Phase `q` comes after phase `p`, whatever the flags read. -/
def Phase.Then (p q : Phase) : Prop := ∀ s, nextSeq p s = .phase q

/-- The phases whose successor no flag decides, each with it: all but A0, B0, C0, E0, which read a flag, and X, the last. -/
def Phase.fixedOrder : List (Phase × Phase) :=
  [(.a1, .a2), (.a2, .a3), (.a3, .a4), (.a4, .b0), (.b1, .b2), (.b2, .b3), (.b3, .b4), (.b4, .c0), (.c1, .c2), (.c2, .e0),
   (.e1, .e2), (.e2, .e3), (.e3, .e4), (.e4, .e5), (.e5, .x)]

theorem Phase.then_of_mem_fixedOrder {p q : Phase} (h : (p, q) ∈ Phase.fixedOrder) : Phase.Then p q := by
  have all : ∀ x ∈ Phase.fixedOrder, Phase.Then x.1 x.2 := by simp [Phase.fixedOrder, Phase.Then, nextSeq]
  exact all (p, q) h

theorem runPhase_setSeq (p : Phase) (s : State) (q : Seq) :
    runPhase p (s.setSeq q) = (runPhase p s).mapNext (State.setSeq · q) := by
  rw [runPhase, phaseMicros_setSeq, runMicros_setSeq, runPhase]

theorem runPhases_setSeq (ps : List Phase) (s : State) (q : Seq) :
    runPhases ps (s.setSeq q) = (runPhases ps s).mapNext (State.setSeq · q) := by
  induction ps generalizing s with
  | nil => rfl
  | cons p ps ih =>
    rw [runPhases, runPhase_setSeq, Result.mapNext_andThen, runPhases, Result.andThen_mapNext]
    congr 1
    funext t
    exact ih t

theorem runPhases_completes (ps : List Phase) (s : State) : ∃ t, runPhases ps s = .next t := by
  induction ps generalizing s with
  | nil => exact ⟨s, rfl⟩
  | cons p ps ih =>
    obtain ⟨u, hu⟩ := runPhase_completes p s
    obtain ⟨t, ht⟩ := ih u
    exact ⟨t, by rw [runPhases, hu]; exact ht⟩

/-- With no turn to come, a step is a phase and the move to the next one. -/
theorem exists_runPhase_of_step {s t : State} {p : Phase} (turns : s.sched = []) (seq : s.seq = .phase p)
    (h : step s = .next t) : ∃ u, runPhase p s = .next u ∧ t = u.setSeq (nextSeq p u) := by
  obtain ⟨u, run⟩ := runPhase_completes p s
  rw [step_of_phase turns seq run, Host.Outcome.next.injEq] at h
  exact ⟨u, run, h.symm⟩

/-- With no turn to come, phases that follow each other run one a step; the sequencer then stands after the last. -/
theorem runSteps_of_runPhases {p q : Phase} {ps : List Phase} {s t : State} (turns : s.sched = [])
    (seq : s.seq = .phase p) (chain : List.IsChain Phase.Then (p :: (ps ++ [q])))
    (run : runPhases (p :: ps) s = .next t) : runSteps (ps.length + 1) s = .next (t.setSeq (.phase q)) := by
  induction ps generalizing p s t with
  | nil =>
    obtain ⟨u, first, later⟩ := Result.andThen_eq_next.mp run
    cases later
    have moved := step_of_phase turns seq first
    rw [(List.isChain_cons_cons.mp chain).1] at moved
    exact runSteps_of_step moved rfl
  | cons p' ps ih =>
    obtain ⟨u, first, later⟩ := Result.andThen_eq_next.mp run
    obtain ⟨next, chain'⟩ := List.isChain_cons_cons.mp chain
    have moved := step_of_phase turns seq first
    rw [next] at moved
    have run' : runPhases (p' :: ps) (u.setSeq (.phase p')) = .next (t.setSeq (.phase p')) := by
      rw [runPhases_setSeq, later]; rfl
    have turns' : (u.setSeq (.phase p')).sched = [] := (runMicros_sched first).trans turns
    exact runSteps_of_step moved (ih (t := t.setSeq (.phase p')) turns' rfl chain' run')

/-! The four branches: their phases, and the phase after them (40_event_adapter.md R121). -/

theorem isChain_setupBranch : List.IsChain Phase.Then [.a1, .a2, .a3, .a4, .b0] := by simp [Phase.Then, nextSeq]
theorem isChain_resetBranch : List.IsChain Phase.Then [.b1, .b2, .b3, .b4, .c0] := by simp [Phase.Then, nextSeq]
theorem isChain_outBranch : List.IsChain Phase.Then [.c1, .c2, .e0] := by simp [Phase.Then, nextSeq]
theorem isChain_inBranch : List.IsChain Phase.Then [.e1, .e2, .e3, .e4, .e5, .x] := by simp [Phase.Then, nextSeq]

/-- A phase without micro-steps only moves the sequencer on. -/
theorem step_of_empty_phase {s : State} {p : Phase} (turns : s.sched = []) (seq : s.seq = .phase p)
    (empty : phaseMicros p s = []) : step s = .next (s.setSeq (nextSeq p s)) :=
  step_of_phase turns seq (by rw [runPhase, empty]; rfl)

/-- A phase of one micro-step takes one step, with no turn to come and on a turn of CTRL. -/
theorem step_of_single_micro {s : State} {p : Phase} {m : Micro} {rest : List Turn}
    (turns : s.sched = [] ∧ rest = [] ∨ s.sched = .ctrl :: rest) (seq : s.seq = .phase p) (one : phaseMicros p s = [m]) :
    step s = (microExec m (s.setSched rest)).mapNext (State.advance p) := by
  rcases turns with ⟨e, rfl⟩ | e
  · rw [step_of_no_turn e, ctrlWhole_phase seq, runPhase, one, runMicros_singleton, ← e, s.setSched_self]
  · exact State.HasLeft.step_eq (.inl ⟨seq, one⟩) e

/-- At the phase that reads a branch's flag, the run goes through the branch `p :: ps` or past it. -/
theorem runSteps_of_guard {g p q : Phase} {ps : List Phase} {s t : State} (turns : s.sched = []) (seq : s.seq = .phase g)
    (empty : phaseMicros g s = []) (flag : nextSeq g s = .phase p ∨ nextSeq g s = .phase q)
    (chain : List.IsChain Phase.Then (p :: (ps ++ [q]))) (run : runPhases (p :: ps) s = .next t) :
    ∃ k u, runSteps k s = .next (u.setSeq (.phase q)) ∧ (u = s ∨ u = t) := by
  have moved := step_of_empty_phase turns seq empty
  rcases flag with taken | skipped
  · rw [taken] at moved
    have run' : runPhases (p :: ps) (s.setSeq (.phase p)) = .next (t.setSeq (.phase p)) := by
      rw [runPhases_setSeq, run]; rfl
    have rest := runSteps_of_runPhases (s := s.setSeq (.phase p)) turns rfl chain run'
    exact ⟨_, t, runSteps_of_step moved rest, .inr rfl⟩
  · rw [skipped] at moved
    exact ⟨1, s, runSteps_of_step moved rfl, .inl rfl⟩

/-! ### The flags an entry tests (40_event_adapter.md R122) -/

/-- The state after phase A0: under `at_entry` the snapshot is taken, under `per_branch` it stays. -/
def State.sampled (s : State) : State :=
  { s with snap := match s.params.flagSampling with
                   | .atEntry => s.sample
                   | .perBranch => s.snap }

theorem runPhase_a0 (s : State) : runPhase .a0 s = .next s.sampled := by
  rw [runPhase, phaseMicros, runMicros_singleton, microExec, State.sampled]
  cases s.params.flagSampling <;> rfl

section
variable (s : State)

/-- Right after A0 the flags read as they stand, under either way of sampling. -/
theorem State.fSetup_sampled : s.sampled.fSetup = s.intsSetupReq := by
  simp only [State.fSetup, State.sampled]
  cases s.params.flagSampling <;> rfl

theorem State.fReset_sampled : s.sampled.fReset = s.intsBusReset := by
  simp only [State.fReset, State.sampled]
  cases s.params.flagSampling <;> rfl

theorem State.fOut_sampled : s.sampled.fOut = s.epOut[0] := by
  simp only [State.fOut, State.sampled]
  cases s.params.flagSampling <;> rfl

theorem State.fIn_sampled : s.sampled.fIn = s.epIn[0] := by
  simp only [State.fIn, State.sampled]
  cases s.params.flagSampling <;> rfl

theorem State.sampled_setSeq (q : Seq) : (s.setSeq q).sampled = s.sampled.setSeq q := rfl

end

/-- Only the sampling writes the snapshot. -/
theorem microExec_snap {m : Micro} (hm : m ≠ .sampleFlags) {s t : State} (h : microExec m s = .next t) :
    t.snap = s.snap := by
  cases m with
  | sampleFlags => exact absurd rfl hm
  | loadSetupByte i => obtain ⟨-, rfl⟩ := State.loadIntoLatch_eq_next.mp h; rfl
  | appendTrace => cases h; rw [s.appendTrace_frame]
  | storeByte off v => obtain ⟨-, rfl⟩ := State.storeBytes_eq_next.mp h; rfl
  | storeWord off w => obtain ⟨-, -, rfl⟩ := State.storeWord_eq_next.mp h; rfl
  | _ => cases h; rfl

/-- Only phase A0 samples. -/
theorem ne_sampleFlags_of_mem_phaseMicros {p : Phase} (a0 : p ≠ .a0) (s : State) :
    ∀ m ∈ phaseMicros p s, m ≠ .sampleFlags := by
  rintro m hm rfl
  cases p with
  | a0 => exact a0 rfl
  | a4 => exact handlerMicros_inHandler _ _ _ hm
  | e5 => exact prepareOutBufferMicros_inHandler 1 0 _ hm
  | _ => simp [phaseMicros, loadSetupMicros] at hm

theorem runPhase_snap {p : Phase} {s t : State} (keeps : s.params.flagSampling = .perBranch ∨ p ≠ .a0)
    (run : runPhase p s = .next t) : t.snap = s.snap := by
  by_cases a0 : p = .a0
  · subst a0
    have perBranch := keeps.resolve_right (absurd rfl)
    cases (runPhase_a0 s).symm.trans run
    rw [State.sampled, perBranch]
  · exact runMicros_keeps (P := fun u => u.snap = s.snap)
      (fun m hm _ _ hu hv => (microExec_snap (ne_sampleFlags_of_mem_phaseMicros a0 s m hm) hv).trans hu) rfl run

/-! ### An entry that serves no branch (40_event_adapter.md R129) -/

theorem State.anyBuffStatus_of_flag {s : State} {n : Endpoint} (h : s.epIn[n] = true ∨ s.epOut[n] = true) :
    s.anyBuffStatus = true := by
  have any {v : Vector Bool 16} (set : v[n] = true) : v.toList.any id = true :=
    List.any_eq_true.mpr ⟨true, Vector.mem_toList_iff.mpr (set ▸ Vector.getElem_mem n.isLt), rfl⟩
  rw [State.anyBuffStatus, Bool.or_eq_true]
  exact h.imp any any

theorem State.entryCondition_sampled (s : State) : s.sampled.entryCondition = s.entryCondition := rfl

/-- An entry in which every flag reads 0 changes at most the snapshot. -/
theorem runSteps_of_unserved_entry {s : State} (idle : s.seq = .idle) (turns : s.sched = [])
    (entry : s.entryCondition = true) (setup : s.intsSetupReq = false) (reset : s.intsBusReset = false)
    (out : s.epOut[0] = false) (inn : s.epIn[0] = false) : runSteps 6 s = .next s.sampled := by
  have turns' (q : Seq) : (s.sampled.setSeq q).sched = [] := turns
  have skip {p : Phase} {q : Seq} (empty : phaseMicros p (s.sampled.setSeq (.phase p)) = [])
      (next : nextSeq p s.sampled = q) : step (s.sampled.setSeq (.phase p)) = .next (s.sampled.setSeq q) := by
    rw [step_of_empty_phase (turns' _) rfl empty, nextSeq_setSeq, next, State.setSeq_setSeq]
  have enter : step s = .next (s.setSeq (.phase .a0)) := by
    rw [step_of_idle idle (.inl ⟨turns, rfl⟩), ← turns, s.setSched_self, idleTurn, if_pos entry]
    rfl
  have a0 : step (s.setSeq (.phase .a0)) = .next (s.sampled.setSeq (.phase .b0)) := by
    rw [step_of_phase (s := s.setSeq (.phase .a0)) turns rfl (runPhase_a0 _), s.sampled_setSeq, nextSeq_setSeq, nextSeq,
      s.fSetup_sampled, setup]
    rfl
  have b0 : step (s.sampled.setSeq (.phase .b0)) = .next (s.sampled.setSeq (.phase .c0)) :=
    skip rfl (by rw [nextSeq, s.fReset_sampled, reset]; rfl)
  have c0 : step (s.sampled.setSeq (.phase .c0)) = .next (s.sampled.setSeq (.phase .e0)) :=
    skip rfl (by rw [nextSeq, s.fOut_sampled, out]; rfl)
  have e0 : step (s.sampled.setSeq (.phase .e0)) = .next (s.sampled.setSeq (.phase .x)) :=
    skip rfl (by rw [nextSeq, s.fIn_sampled, inn]; rfl)
  have x : step (s.sampled.setSeq (.phase .x)) = .next s.sampled := by
    rw [skip (p := .x) (q := .idle) rfl rfl, ← idle]
    rfl
  simp only [runSteps_succ, enter, a0, b0, c0, e0, x, Result.andThen_next, runSteps_zero]

/-! ### A bus reset before the EP0-IN branch (40_event_adapter.md R132) -/

/-- The block is at phase `p`, with no turn to come, address 0 and nothing pending. -/
structure State.UnaddressedAt (s : State) (p : Phase) : Prop where
  turns   : s.sched = []
  seq     : s.seq = .phase p
  addr    : s.addr = 0
  address : s.address = 0
  pending : s.pendingAddress = 0

/-- The reset branch ends with address 0 and nothing pending (40_event_adapter.md R126). -/
theorem runSteps_resetBranch {s : State} (turns : s.sched = []) (seq : s.seq = .phase .b1) :
    ∃ t, runSteps 4 s = .next t ∧ t.UnaddressedAt .c0 := by
  exact ⟨_, runSteps_of_runPhases (ps := [.b2, .b3, .b4]) turns seq isChain_resetBranch (execEvBusReset_eq s), turns, rfl, rfl,
    rfl, rfl⟩

/-- Served or not, the EP0-OUT branch touches no address (40_event_adapter.md R128). -/
theorem State.UnaddressedAt.past_out {s : State} (h : s.UnaddressedAt .c0) :
    ∃ k t, runSteps k s = .next t ∧ t.UnaddressedAt .e0 := by
  have flag : nextSeq .c0 s = .phase .c1 ∨ nextSeq .c0 s = .phase .e0 := by rw [nextSeq]; split <;> simp
  obtain ⟨k, u, run, rfl | rfl⟩ :=
    runSteps_of_guard (ps := [.c2]) h.turns h.seq rfl flag isChain_outBranch (execEvEp0Out_eq s)
  · exact ⟨k, _, run, h.turns, rfl, h.addr, h.address, h.pending⟩
  · exact ⟨k, _, run, h.turns, rfl, h.addr, h.address, h.pending⟩

/-- With nothing pending the EP0-IN branch leaves both addresses (40_event_adapter.md R130). -/
theorem State.UnaddressedAt.past_in {s : State} (h : s.UnaddressedAt .e0) :
    ∃ k t, runSteps k s = .next t ∧ t.UnaddressedAt .x := by
  have flag : nextSeq .e0 s = .phase .e1 ∨ nextSeq .e0 s = .phase .x := by rw [nextSeq]; split <;> simp
  obtain ⟨k, u, run, rfl | rfl⟩ :=
    runSteps_of_guard (ps := [.e2, .e3, .e4, .e5]) h.turns h.seq rfl flag isChain_inBranch (execEvEp0In_eq s)
  · exact ⟨k, _, run, h.turns, rfl, h.addr, h.address, h.pending⟩
  · exact ⟨k, _, run, h.turns, rfl, (if_pos h.pending).trans h.addr, (if_pos h.pending).trans h.address, rfl⟩

/-! ### The obligations -/

/-- Settles O11: the four phases of the branch, each one write. -/
theorem busResetBranchClearsTheAddress : Obligations.BusResetBranchClearsTheAddress := execEvBusReset_eq

/-- Settles O12: after the first run the flag and both addresses read 0 already. -/
theorem secondBusResetOnlyCounts : Obligations.SecondBusResetOnlyCounts := fun s =>
  ⟨_, _, execEvBusReset_eq s, execEvBusReset_eq _, rfl, BitVec.add_assoc s.resetCount 1 1, rfl⟩

/-- Settles O13: the two phases of the branch, each one write. -/
theorem ep0OutBranchOnlyCounts : Obligations.Ep0OutBranchOnlyCounts := execEvEp0Out_eq

/-- Settles O14: the branch stores one word and nothing else in the window. -/
theorem ep0InBranchAppliesThePendingAddress : Obligations.Ep0InBranchAppliesThePendingAddress := by
  intro s
  have word : outWord 0 1 = 0x00002400 := by decide
  exact ⟨_, execEvEp0In_eq s, rfl, (Memory.read32_write32 s.win (bcOff 0 .out) (outWord 0 1)).trans word,
    fun a outside => Memory.read_write32_outside (m := s.win) (outWord 0 1) outside⟩

/-- Settles O15: the packet read is the one in the window. -/
theorem setupBranchReadsAppendsAndDispatches : Obligations.SetupBranchReadsAppendsAndDispatches := by
  intro s
  let u := State.appendTrace { s with setupRec := false, pkt := s.windowPacket }
  obtain ⟨t, ht⟩ := exec_dispatch_completes s.windowPacket u
  exact ⟨s.windowPacket, u, t, s.toBytes_windowPacket, execTraceAppend_eq _, ht, (execEvSetup_eq s _ rfl).trans ht⟩

/-- Settles O16: before the handler the branch writes only the flag, the latch and the trace, and nothing in the window. -/
theorem setupBranchFrame : Obligations.SetupBranchFrame := by
  intro s
  let v : State := { s with setupRec := false, pkt := s.windowPacket }
  obtain ⟨t, run⟩ := exec_dispatch_completes s.windowPacket v.appendTrace
  have inside := handlerMicros_inHandler v.appendTrace.params (decode s.windowPacket)
  have frame : HandlerFrame v.appendTrace t := runMicros_handler_frame inside run
  obtain ⟨-, window⟩ := runMicros_handler_window inside (handlerMicros_wordIn _ _) run
  refine ⟨t, (execEvSetup_eq s _ rfl).trans run, ?_, fun a word buffer => ?_⟩
  · unfold HandlerFrame at frame
    rw [v.appendTrace_frame] at frame
    rw [frame]
  · rw [window a word buffer, v.appendTrace_frame]
    rfl

/-- Settles O17: each of the three cases, and a read after its 8 bytes are written. -/
theorem traceAppendFollowsThePolicy : Obligations.TraceAppendFollowsThePolicy := by
  intro s
  refine ⟨fun room => ⟨_, execTraceAppend_eq s, ?_⟩, fun full policy cap => ⟨_, execTraceAppend_eq s, ?_⟩,
    fun full drop => ?_⟩
  · rw [State.appendTrace_of_room room]
    exact ⟨rfl, Memory.read_writeBytes _ _ _⟩
  · rw [State.appendTrace_of_wrap full policy cap]
    refine ⟨rfl, fun a => ?_⟩
    rw [Memory.read_writeBytes, SetupPacket.length_toBytes]
    simp
  · exact (execTraceAppend_eq s).trans (congrArg _ (State.appendTrace_of_drop full drop))

/-- Settles O44: the whole-phase step at A4 is the decoded operation, which completes. -/
theorem stepRunsTheDecodedOperation : Obligations.StepRunsTheDecodedOperation := by
  have dispatch (s : State) (turns : s.sched = []) (seq : s.seq = .phase .a4) :
      ∃ t, exec (decode s.pkt) s = .next t ∧ step s = .next { t with seq := .phase .b0 } := by
    obtain ⟨t, run⟩ := runPhase_completes .a4 s
    exact ⟨t, (wholePhase_eq_runPhase .a4 s).trans run, step_of_phase turns seq run⟩
  refine ⟨dispatch, fun s nbits w i word => ?_⟩
  rw [decodeTableWord] at word
  split at word
  · cases word
    exact dispatch (s.withFetchWord nbits w) rfl rfl
  · cases word

/-- Settles O47: a step is a phase and the move to the next one; the flags are read after A0, or where the branch begins. -/
theorem phasesFollowTheFixedOrder : Obligations.PhasesFollowTheFixedOrder := by
  intro s t p turns seq h
  obtain ⟨u, run, rfl⟩ := exists_runPhase_of_step turns seq h
  refine ⟨?_, fun keeps => runPhase_snap (t := u) keeps run, ?_, ?_, ?_, ?_, ?_, fun q later => ?_⟩
  · rintro atEntry rfl
    cases (runPhase_a0 s).symm.trans run
    rw [State.snap_setSeq, State.sampled, atEntry]
    rfl
  · rintro rfl
    cases (runPhase_a0 s).symm.trans run
    rw [State.seq_setSeq, nextSeq, s.fSetup_sampled]
    exact (apply_ite Seq.phase _ _ _).symm
  · rintro rfl; cases run; exact (apply_ite Seq.phase _ _ _).symm
  · rintro rfl; cases run; exact (apply_ite Seq.phase _ _ _).symm
  · rintro rfl; cases run; exact (apply_ite Seq.phase _ _ _).symm
  · rintro rfl; cases run; rfl
  · exact Phase.then_of_mem_fixedOrder later u

/-- Settles O52: of the micro-steps that write the counters and addresses, only those of B2 and E3 write the register. -/
theorem addressChangesOnlyAtItsPhases : Obligations.AddressChangesOnlyAtItsPhases := by
  intro s t inv h changed
  rcases step_move_or_sameRecord h with ⟨turns, move⟩ | ⟨addr, -⟩
  · rcases move.record_cases ((State.seqOk_setSched turns).mpr inv.seq) with
      ⟨p, m, u, one, seq, run, rfl⟩ | ⟨-, -, -, -, ⟨addr, -⟩, -⟩
    · cases p with
      | b2 => cases one; cases run; exact .inl ⟨seq, rfl⟩
      | e3 =>
        cases one; cases run
        have pending : s.pendingAddress ≠ 0 := fun none => changed (if_pos none)
        exact .inr ⟨seq, pending, if_neg pending⟩
      | b3 | b4 | c2 | e2 | e4 => cases one; cases run; exact absurd rfl changed
      | _ => cases one
    · exact absurd addr changed
  · exact absurd addr changed

/-- Settles O53: the reset branch clears both addresses and the pending one, and neither later branch sets them again. -/
theorem resetInTheSameEntryDropsThePendingAddress : Obligations.ResetInTheSameEntryDropsThePendingAddress := by
  intro s turns seq
  obtain ⟨u, reset, hu⟩ := runSteps_resetBranch turns seq
  obtain ⟨j, v, out, hv⟩ := hu.past_out
  obtain ⟨k, t, inn, ht⟩ := hv.past_in
  refine ⟨4 + (j + k), t, ?_, ht.seq, ht.addr, ht.address, ht.pending⟩
  rw [runSteps_add, reset, Result.andThen_next, runSteps_add, out, Result.andThen_next, inn]

/-- Settles O55: no branch serves the flag, so the entry ends as it began, and its condition still holds. -/
theorem unservedFlagsReenterWithoutEnd : Obligations.UnservedFlagsReenterWithoutEnd := by
  rintro s idle turns enabled buff setup reset inn out ⟨n, flag⟩
  have entry : s.entryCondition = true := by
    simp [State.entryCondition, State.irq, State.intsBuffStatus, State.anyBuffStatus_of_flag flag, buff, enabled, idle]
  refine ⟨s.sampled, runSteps_of_unserved_entry idle turns entry ?_ ?_ out inn, rfl, s.entryCondition_sampled.trans entry⟩
  · rw [State.intsSetupReq, setup, Bool.false_and]
  · rw [State.intsBusReset, reset, Bool.false_and]

/-- Settles O60: a branch's phases follow each other whatever the flags read, and its first phase is the one micro-step that
clears its flag. -/
theorem sequencerRunsTheEventRows : Obligations.SequencerRunsTheEventRows := by
  intro s
  have branch {p q : Phase} (ps : List Phase) (turns : s.sched = []) (seq : s.seq = .phase p)
      (chain : List.IsChain Phase.Then (p :: (ps ++ [q]))) :
      ∃ t, runPhases (p :: ps) s = .next t ∧ runSteps (ps.length + 1) s = .next { t with seq := .phase q } := by
    obtain ⟨t, run⟩ := runPhases_completes (p :: ps) s
    exact ⟨t, run, runSteps_of_runPhases turns seq chain run⟩
  refine ⟨fun turns => ⟨fun seq => ?_, fun seq => ?_, fun seq => ?_, fun seq => ?_, fun seq => ?_⟩,
    fun rest turns => ⟨fun seq => ?_, fun seq => ?_, fun seq => ?_, fun seq => ?_⟩⟩
  · exact branch [.a2, .a3, .a4] turns seq isChain_setupBranch
  · exact ⟨_, execTraceAppend_eq s, step_of_phase turns seq rfl⟩
  · exact branch [.b2, .b3, .b4] turns seq isChain_resetBranch
  · exact branch [.c2] turns seq isChain_outBranch
  · exact branch [.e2, .e3, .e4, .e5] turns seq isChain_inBranch
  · exact step_of_single_micro turns seq rfl
  · exact step_of_single_micro turns seq rfl
  · exact step_of_single_micro turns seq rfl
  · exact step_of_single_micro turns seq rfl

end Sys2Proof.Machine

/-! ## The Request Dispatcher (41_request_dispatcher.md): one operation per packet, the requests no handler answers, and the
effect of the three that one answers -/

namespace Sys2Proof

/-! ### The bytes of `value`, as numbers (30_encoding.md R92 a, b) -/

theorem lowByte_eq_ofNat (v : Half) : lowByte v = BitVec.ofNat 8 (v.toNat % 256) := by
  apply BitVec.eq_of_toNat_eq
  rw [toNat_lowByte, BitVec.toNat_ofNat]
  omega

theorem highByte_eq_ofNat (v : Half) : highByte v = BitVec.ofNat 8 (v.toNat / 256) := by
  apply BitVec.eq_of_toNat_eq
  rw [toNat_highByte, BitVec.toNat_ofNat]
  omega

end Sys2Proof

namespace Sys2Proof.Machine

/-- The address a SET_ADDRESS stores, as a number (30_encoding.md R92 d). -/
theorem newAddress_eq_ofNat (v : Half) : newAddress v = BitVec.ofNat 7 (v.toNat % 128) := by
  apply BitVec.eq_of_toNat_eq
  simp [newAddress, BitVec.extractLsb'_toNat]

/-! ### What a request runs -/

/-- A no-op handler or an empty table entry (41_request_dispatcher.md R142, R154). -/
@[simp] theorem runMicros_skipMicros (s : State) : runMicros skipMicros s = .next s := rfl

/-- A request code other than 5, 6 and 9 selects a no-op handler or an empty entry. -/
theorem exec_decodeRequest_of_unanswered {k : SetupPacket} (five : k.request ≠ 5) (six : k.request ≠ 6)
    (nine : k.request ≠ 9) (s : State) : exec (decodeRequest k) s = .next s := by
  rw [decodeRequest]
  split
  case h_6 code => exact absurd (BitVec.eq_of_toNat_eq code) five
  case h_7 code => exact absurd (BitVec.eq_of_toNat_eq code) six
  case h_10 code => exact absurd (BitVec.eq_of_toNat_eq code) nine
  all_goals exact runMicros_skipMicros s

/-- SET_ADDRESS stores the pending address and then arms the status IN (41_request_dispatcher.md R147). -/
theorem exec_setAddress (t : Byte) (v i l : Half) (s : State) :
    exec (.setAddress t v i l) s = exec .armStatusIn { s with pendingAddress := newAddress v } := rfl

/-- SET_CONFIGURATION only arms the status IN (41_request_dispatcher.md R148). -/
theorem exec_setConfiguration (t : Byte) (v i l : Half) (s : State) :
    exec (.setConfiguration t v i l) s = exec .armStatusIn s := rfl

/-- GET_DESCRIPTOR is the catalog call on the bytes of `value` (41_request_dispatcher.md R149). -/
theorem exec_getDescriptor (t : Byte) (v i l : Half) (s : State) :
    exec (.getDescriptor t v i l) s = exec (.catalog (highByte v) (lowByte v) l) s := rfl

/-! ### The obligations -/

/-- Settles O18: the three forms run the same micro-steps, and those are micro-steps of a handler. -/
theorem dispatchRunsOneOperation : Obligations.DispatchRunsOneOperation := by
  intro k s
  obtain ⟨t, run⟩ := exec_dispatch_completes k s
  have decoded : exec (decode k) s = .next t := (exec_dispatch k s).symm.trans run
  have inside := handlerMicros_inHandler s.params (decode k)
  exact ⟨t, run, decoded, (exec_decodeRequest k s).trans decoded, runMicros_handler_frame inside run,
    runMicros_handler_window inside (handlerMicros_wordIn _ _) run⟩

/-- Settles O19: at the request level, which the end of decoding and the call run as well. -/
theorem unansweredRequestsChangeNothing : Obligations.UnansweredRequestsChangeNothing := by
  intro k s five six nine
  have decoded : exec (decode k) s = .next s :=
    (exec_decodeRequest k s).symm.trans (exec_decodeRequest_of_unanswered five six nine s)
  exact ⟨(exec_dispatch k s).trans decoded, decoded⟩

/-- Settles O21: the arming of the status IN, from the state with the pending address stored. -/
theorem setAddressDefersTheAddress : Obligations.SetAddressDefersTheAddress := by
  intro t v i l s
  rw [exec_setAddress, newAddress_eq_ofNat]
  exact execArmStatusIn_sends _

/-- Settles O22: the operation is the arming of the status IN. -/
theorem setConfigurationAcknowledgesAnyValue : Obligations.SetConfigurationAcknowledgesAnyValue := by
  intro t v i l s
  rw [exec_setConfiguration]
  exact execArmStatusIn_sends s

/-- Settles O23: the packet dispatches to the row GET_DESCRIPTOR at the request level, and to its descriptor row at the end. -/
theorem getDescriptorIsTheCatalog : Obligations.GetDescriptorIsTheCatalog := by
  intro t v i l s
  let k : SetupPacket := { requestType := t, request := 6, value := v, index := i, length := l }
  obtain ⟨u, -, decoded, request, -⟩ := dispatchRunsOneOperation k s
  have row : exec (.getDescriptor t v i l) s = .next u := request
  refine ⟨u, row, ?_, decoded⟩
  rw [← highByte_eq_ofNat, ← lowByte_eq_ofNat, ← exec_getDescriptor t v i l s, row]

/-- Settles O20: each row's micro-steps are none. -/
theorem noOpOperationsLeaveTheState : Obligations.NoOpOperationsLeaveTheState := by
  intro t r d x v i l s
  have skip : runMicros skipMicros s = .next s := runMicros_skipMicros s
  have otherType : runMicros (catalogResultMicros s.params otherCase) s = .next s := runMicros_nil s
  exact ⟨skip, skip, skip, skip, skip, skip, skip, skip, skip, skip, skip, otherType⟩

end Sys2Proof.Machine

/-! ## The Descriptor Catalog (42_descriptor_catalog.md): which row a call selects, what each of its three outcomes does, and
the bytes of the descriptor ROM -/

namespace Sys2Proof.Machine

/-! ### Which row a call selects -/

/-- The catalog call completes, as the dispatch of the packet with its operands does. -/
theorem exec_catalog_completes (d x : Byte) (l : Half) (s : State) : ∃ u, exec (.catalog d x l) s = .next u := by
  obtain ⟨u, run⟩ := exec_dispatch_completes (descriptorPacket 0 d x 0 l) s
  rw [exec_dispatch, decode_descriptorPacket, ← exec_catalog] at run
  exact ⟨u, run⟩

/-- Under the type STRING the index selects the row (30_encoding.md R94). -/
theorem decodeDescriptor_string (t x : Byte) (i l : Half) : decodeDescriptor t 0x03 x i l = decodeString t x i l := rfl

/-! ### What the outcomes do (42_descriptor_catalog.md R160) -/

/-- A payload is a SEND_DESCRIPTOR of the Transfer Engine. -/
theorem runMicros_payload (q : RomSeq) (n : Nat) (s : State) :
    runMicros (catalogResultMicros s.params (.payload q n)) s = exec (.sendDescriptor q n) s := rfl

/-- A stall is a STALL_EP0 of the Transfer Engine. -/
theorem runMicros_stall (s : State) :
    runMicros (catalogResultMicros s.params .stall) s = exec .stallEp0 s := rfl

/-- The third outcome arms nothing. -/
theorem runMicros_nothing (s : State) : runMicros (catalogResultMicros s.params .nothing) s = .next s := rfl

/-- A sequence that fits one packet, sent at its declared length, is sent in full. -/
theorem payload_sends_in_full {q : RomSeq} {n : Nat} {s : State} (declared : declaredLen s.params q = n) (fits : n < 65) :
    ∃ u, runMicros (catalogResultMicros s.params (.payload q n)) s = .next u ∧
      SendsIn 0 1 (romBytes s.params q) n s u := by
  have whole : (romBytes s.params q).take n = romBytes s.params q :=
    List.take_of_length_le (by rw [length_romBytes, declared])
  rw [runMicros_payload, ← whole]
  exact execSendDescriptor_sends fits declared.ge

/-- A sequence clipped to the requested length sends that many of its first bytes, if they fit one packet. -/
theorem payload_sends_clipped {q : RomSeq} {l : Half} {s : State} (fits : clip (declaredLen s.params q) l < 65) :
    ∃ u, runMicros (catalogResultMicros s.params (.payload q (clip (declaredLen s.params q) l))) s = .next u ∧
      SendsIn 0 1 ((romBytes s.params q).take (clip (declaredLen s.params q) l)) (clip (declaredLen s.params q) l) s u := by
  rw [runMicros_payload]
  exact execSendDescriptor_sends fits (Nat.min_le_left ..)

/-- HID_REPORT where the configuration declares the interface (42_descriptor_catalog.md R172). -/
theorem exec_getDescriptorHidReport_of_hasHid {s : State} (declared : s.params.hasHid = true) (t x : Byte) (i l : Half) :
    exec (.getDescriptorHidReport t x i l) s =
      runMicros (catalogResultMicros s.params (.payload .hidr (clip (hidReportLen s.params) l))) s := by
  change runMicros (catalogResultMicros s.params (hidReportCase s.params l)) s = _
  rw [hidReportCase, if_pos declared]

/-- HID_REPORT where the configuration declares no such interface. -/
theorem exec_getDescriptorHidReport_of_no_hid {s : State} (absent : s.params.hasHid = false) (t x : Byte) (i l : Half) :
    exec (.getDescriptorHidReport t x i l) s = runMicros (catalogResultMicros s.params .nothing) s := by
  change runMicros (catalogResultMicros s.params (hidReportCase s.params l)) s = _
  rw [hidReportCase, absent, if_neg Bool.false_ne_true]

/-! ### The bytes of the ROM -/

/-- The two bytes of a field, low byte first, hold its value (20_memory.md R66 c). -/
theorem toNat_lowByte_add_highByte (h : Half) : (lowByte h).toNat + 256 * (highByte h).toNat = h.toNat := by
  rw [← toNat_le16, le16_lowByte_highByte]

/-- A string descriptor starts with its length and its type (42_descriptor_catalog.md R165). -/
theorem take_two_stringDescriptor {n : Nat} (chars : Vector Half n) :
    (stringDescriptor chars.toList).take 2 = [BitVec.ofNat 8 (2 + 2 * n), 0x03] := by
  rw [stringDescriptor, Vector.length_toList]
  rfl

/-! ### The obligations -/

/-- Settles O24: a call runs the descriptor row of its operands, and the decoder names that row in each case. -/
theorem catalogSelectsByTypeAndIndex : Obligations.CatalogSelectsByTypeAndIndex := by
  intro t d x i l s
  obtain ⟨u, run⟩ := exec_catalog_completes d x l s
  have byType {c : Byte} {row : Instr} (selects : decodeDescriptor t c x i l = row) (type : d = c) :
      exec row s = .next u := by
    rw [← selects, ← type, ← exec_catalog, run]
  have byIndex {c : Byte} {row : Instr} (selects : decodeString t c i l = row) (type : d = 0x03) (index : x = c) :
      exec row s = .next u := by
    refine byType ?_ type
    rw [decodeDescriptor_string, index, selects]
  exact ⟨u, run, byType rfl, byType rfl, byType rfl, byIndex rfl, byIndex rfl, byIndex rfl, byIndex rfl,
    fun type index => byIndex (decodeString_of_ge_4 index t i l) type rfl, byType rfl,
    fun unknown => byType (decodeDescriptor_of_unknown unknown t x i l) rfl⟩

/-- Settles O25: each row's payload is its sequence at the declared length, and the requested length is not read. -/
theorem deviceAndStringsAreSentInFull : Obligations.DeviceAndStringsAreSentInFull := by
  intro t x i l s
  exact ⟨payload_sends_in_full (q := .dev) rfl (by decide), payload_sends_in_full (q := .str0) rfl (by decide),
    payload_sends_in_full (q := .str1) rfl (by decide), payload_sends_in_full (q := .str2) rfl (by decide),
    payload_sends_in_full (q := .str3) rfl (by decide)⟩

/-- Settles O26: the table has 41 bytes, so what is clipped always fits one packet. -/
theorem configurationIsClipped : Obligations.ConfigurationIsClipped := by
  intro t x i l s
  have fits : clip 41 l < 65 := (Nat.min_le_left 41 l.toNat).trans_lt (by decide)
  exact payload_sends_clipped (q := .cfg) fits

/-- Settles O27: the outcome of both rows is a stall, whatever their operands. -/
theorem qualifierAndOtherStringsStall : Obligations.QualifierAndOtherStringsStall := by
  intro t x i l s
  have stalls : ∃ u, runMicros (catalogResultMicros s.params .stall) s = .next u ∧ StallsIn 0 1 s u := by
    rw [runMicros_stall]
    exact execStallEp0_stalls s
  exact ⟨stalls, stalls⟩

/-- Settles O28: the row is a clipped payload, which the Transfer Engine refuses from 65 bytes on, or nothing. -/
theorem hidReportIsClippedOrRefused : Obligations.HidReportIsClippedOrRefused := by
  intro t x i l s
  refine ⟨fun declared fits => ?_, fun declared long => ?_, fun absent => ?_⟩
  · rw [exec_getDescriptorHidReport_of_hasHid declared]
    exact payload_sends_clipped (q := .hidr) fits
  · rw [exec_getDescriptorHidReport_of_hasHid declared, runMicros_payload]
    exact execSendDescriptor_refused long .hidr s
  · rw [exec_getDescriptorHidReport_of_no_hid absent, runMicros_nothing]

/-- Settles O29: the bytes at fixed places are read off the sequences; the 16-bit fields are their two bytes. -/
theorem romHoldsTheFixedBytes : Obligations.RomHoldsTheFixedBytes := by
  intro p
  have reportLen := (toNat_lowByte_add_highByte (BitVec.ofNat 16 (hidReportLen p))).trans (BitVec.toNat_ofNat ..)
  exact ⟨length_romBytes p, Nat.le_add_right .., rfl, rfl, rfl, toNat_lowByte_add_highByte p.device.vid,
    toNat_lowByte_add_highByte p.device.pidId, rfl, rfl, rfl, rfl, rfl, rfl, rfl, reportLen, rfl, rfl, rfl, rfl, rfl,
    take_two_stringDescriptor p.manufacturer, take_two_stringDescriptor p.product, take_two_stringDescriptor p.serial⟩

end Sys2Proof.Machine

/-! ## The Transfer Engine (43_transfer_engine.md): the three primitives with arguments in range and out of range, and the
order of the stores of `sendToHost` -/

namespace Sys2Proof.Machine

/-! ### Slices of the ROM -/

/-- The start of a slice is the shorter slice. -/
theorem take_romSlice (p : Params) (q : RomSeq) (i n k : Nat) :
    (romSlice p q i n).take k = romSlice p q i (min k n) := by
  induction n generalizing i k with
  | zero => rw [Nat.min_zero]; exact List.take_nil
  | succ n ih =>
    cases k with
    | zero => rw [Nat.zero_min]; rfl
    | succ k => rw [romSlice, List.take_succ_cons, ih, Nat.succ_min_succ, romSlice]

/-- Whatever its length, a slice from the start agrees with the sequence up to the declared length. -/
theorem take_declaredLen_romSlice (p : Params) (q : RomSeq) (size : Nat) :
    (romSlice p q 0 size).take (declaredLen p q) = (romBytes p q).take size := by
  rw [take_romSlice, romSlice_eq_take (Nat.min_le_left ..), ← length_romBytes, Nat.min_comm, ← List.take_eq_take_min]

/-! ### The primitives with arguments in range, as claims state their effects -/

/-- The data buffer of an endpoint holds what `sendToHost` copies (20_memory.md R63). -/
theorem bufOff_sourceBytes_le {n size : Nat} (hn : n < 16) (hs : size < 65) (p : Params) (b : Option RomSeq) :
    bufOff n + (sourceBytes p b size).length ≤ Config.windowMin := by
  have copied := length_sourceBytes_le p b size
  have buffer := bufOff_lt hn
  omega

theorem execSendToHost_sends {n p size : Nat} (hn : n < 16) (hp : p < 2) (hs : size < 65) (b : Option RomSeq) (s : State) :
    ∃ t, exec (.sendToHost n p b size) s = .next t ∧ SendsIn n p (sourceBytes s.params b size) size s t :=
  ⟨_, execSendToHost_ok (checkSized_eq_ok.mpr ⟨hn, hp, hs⟩) b s, sendsIn_of_stores hn hp hs _ s⟩

/-! ### A part of the micro-steps of `sendToHost` -/

/-- A part of the byte stores of a copy is the copy of a part of its bytes. -/
theorem append_eq_copyMicros {front back : List Micro} {off : Nat} {bs : List Byte}
    (h : front ++ back = copyMicros off bs) :
    ∃ done left, bs = done ++ left ∧ front = copyMicros off done ∧ back = copyMicros (off + done.length) left := by
  induction front generalizing off bs with
  | nil => exact ⟨[], bs, rfl, rfl, h⟩
  | cons m front ih =>
    cases bs with
    | nil => cases h
    | cons b bs =>
      obtain ⟨rfl, rest⟩ := List.cons.inj h
      obtain ⟨done, left, rfl, rfl, rfl⟩ := ih rest
      exact ⟨b :: done, left, rfl, rfl, by rw [List.length_cons, Nat.add_assoc, Nat.add_comm 1]⟩

@[simp] theorem copyMicros_eq_nil {off : Nat} {bs : List Byte} : copyMicros off bs = [] ↔ bs = [] := by
  cases bs <;> simp [copyMicros]

/-- A part of the micro-steps of `sendToHost` is all of them, or none, or the check and the stores of the first bytes; with only
one micro-step to come those are all the bytes (43_transfer_engine.md R182, R183). -/
theorem append_eq_sendToHostMicros {front back : List Micro} {params : Params} {n p size : Nat} {b : Option RomSeq}
    (check : checkSized n p size = .ok) (h : front ++ back = sendToHostMicros params n p b size) :
    back = [] ∨ (front = [] ∧ 1 < back.length) ∨
    ∃ done left, sourceBytes params b size = done ++ left ∧ back ≠ [] ∧
      front = .checkArguments .ok :: copyMicros (bufOff n) done ∧ (back.length ≤ 1 → left = []) := by
  rw [sendToHostMicros_ok b check] at h
  rcases List.eq_nil_or_concat' back with none | ⟨rest, word, rfl⟩
  · exact .inl none
  rw [← List.append_assoc, ← List.cons_append] at h
  obtain ⟨before, -⟩ := List.append_inj' h rfl
  cases front with
  | nil =>
    refine .inr (.inl ⟨rfl, ?_⟩)
    rw [List.nil_append] at before
    simp [before]
  | cons m front =>
    obtain ⟨rfl, copy⟩ := List.cons.inj before
    obtain ⟨done, left, split, rfl, rfl⟩ := append_eq_copyMicros copy
    exact .inr (.inr ⟨done, left, split, by simp, rfl, by simp⟩)

/-- The check and the stores of a part of the bytes change the indicator and those bytes. -/
theorem runMicros_check_copyMicros {done : List Byte} {n : Nat} (fits : bufOff n + done.length ≤ Config.windowMin) (s : State) :
    runMicros (.checkArguments .ok :: copyMicros (bufOff n) done) s =
      .next { s with indicator := .ok, win := Memory.writeBytes s.win (bufOff n) done } := by
  rw [runMicros_cons, microExec, Result.andThen_next, runMicros_copyMicros done _ fits]

/-! ### The obligations -/

/-- Settles O30: with an argument out of range a call is its failing check alone. -/
theorem refusedArgumentsChangeNothing : Obligations.RefusedArgumentsChangeNothing := by
  intro n p size b s
  refine ⟨fun bad => ?_, fun bad => execSendStall_fail (checkUnsized_eq_fail.mpr bad) s⟩
  have check : checkSized n p size = .fail := checkSized_eq_fail.mpr bad
  exact ⟨execSendToHost_fail check b s, execPrepareOutBuffer_fail check s⟩

/-- Settles O31: what is copied is nothing for `null`, else a slice, which agrees with the sequence up to its declared length. -/
theorem sendToHostCopiesAndArms : Obligations.SendToHostCopiesAndArms := by
  intro n p size s hn hp hs
  refine ⟨execSendToHost_sends hn hp hs none s, fun q => ?_⟩
  obtain ⟨t, run, sends⟩ := execSendToHost_sends hn hp hs (some q) s
  exact ⟨t, romSlice s.params q 0 size, run, sends, length_romSlice .., take_declaredLen_romSlice ..⟩

/-- Settles O32: the call is its check and the store of the OUT word. -/
theorem prepareOutBufferArmsTheOutWord : Obligations.PrepareOutBufferArmsTheOutWord := by
  intro n p size s hn hp hs
  exact ⟨_, execPrepareOutBuffer_ok (checkSized_eq_ok.mpr ⟨hn, hp, hs⟩) s, armsOut_of_store hp hs s⟩

/-- Settles O33: the call is its check, the store of the IN word and, for endpoint 0 only, the arm bit. -/
theorem sendStallArmsOnlyEndpointZero : Obligations.SendStallArmsOnlyEndpointZero := by
  intro n p s hn hp
  exact ⟨_, execSendStall_ok (checkUnsized_eq_ok.mpr ⟨hn, hp⟩) s, stallsIn_of_store hp s⟩

/-- Settles O35: a part that is not all of the micro-steps has stored only bytes of the data buffer, which overlaps no word, and
the part before the last micro-step has stored all of them. -/
theorem sendToHostStoresItsWordLast : Obligations.SendToHostStoresItsWordLast := by
  intro n p size b s front back hn hp hs parts
  rcases append_eq_sendToHostMicros (checkSized_eq_ok.mpr ⟨hn, hp, hs⟩) parts with
    rfl | ⟨rfl, two⟩ | ⟨done, left, split, more, rfl, last⟩
  · rw [List.append_nil] at parts
    obtain ⟨t, run, -, word, data, -⟩ := execSendToHost_sends hn hp hs b s
    exact ⟨t, parts ▸ run, fun none => absurd rfl none, fun _ => data, fun _ => word⟩
  · exact ⟨s, rfl, fun _ _ _ => rfl, fun one => absurd two (Nat.not_lt_of_le one), fun none => by simp [none] at two⟩
  · have fits : bufOff n + done.length ≤ Config.windowMin := by
      have := bufOff_sourceBytes_le hn hs s.params b
      rw [split, List.length_append] at this
      omega
    refine ⟨_, runMicros_check_copyMicros fits s, fun _ m d => ?_, fun one i hi => ?_, fun none => absurd none more⟩
    · exact Memory.read32_writeBytes_other done (.inl (bufOff_clear m n d m.isLt))
    · rw [split, last one, List.append_nil] at hi ⊢
      rw [State.winByte, Memory.read_writeBytes, if_pos ⟨Nat.le_add_right .., Nat.add_lt_add_left hi _⟩,
        Nat.add_sub_cancel_left]

end Sys2Proof.Machine

/-! ## The moves of the SIE (44_sie_environment.md): what each answers, when it is refused, and what none of them touches -/

namespace Sys2Proof.Machine

/-! ### The outcomes of a token move (44_sie_environment.md R203 to R206) -/

/-- When no buffer answers a token, in words. -/
theorem noBufferGuard_iff {s : State} {n : Endpoint} {d : Dir} :
    noBufferGuard s n d = true ↔ bcAvailable (s.bc n d) = false ∨
      (d = .inn ∧ n = 0 ∧ bcStall (s.bc n d) = true ∧ s.stallArmEp0 = false) := by
  simp [noBufferGuard, and_assoc]

section
variable {s : State} {n : Endpoint} {d : Dir} {b : Bool} {data : List Byte}

theorem execEnvNoBuffer_of_reserved (reserved : bcReserved (s.bc n d) = true) :
    execEnvNoBuffer n d s = .refused .reservedFieldSet := if_pos reserved

theorem execEnvNoBuffer_of_guard (clean : bcReserved (s.bc n d) = false) (guard : noBufferGuard s n d = true) :
    execEnvNoBuffer n d s = .next { s with wire := .nak n d :: s.wire } := by
  rw [execEnvNoBuffer, clean, guard]; rfl

theorem execEnvNoBuffer_of_not_guard (clean : bcReserved (s.bc n d) = false) (disabled : ¬ noBufferGuard s n d = true) :
    execEnvNoBuffer n d s = .refused .moveNotEnabled := by
  rw [execEnvNoBuffer, clean, if_neg disabled]; rfl

theorem execEnvInDone_of_reserved (reserved : bcReserved (s.bc n .inn) = true) :
    execEnvInDone n b s = .refused .reservedFieldSet := if_pos reserved

theorem execEnvInDone_of_not_guard (clean : bcReserved (s.bc n .inn) = false) (disabled : ¬ inDoneGuard s n = true) :
    execEnvInDone n b s = .refused .moveNotEnabled := by
  rw [execEnvInDone, clean, if_neg disabled]; rfl

theorem execEnvInDone_of_outside (clean : bcReserved (s.bc n .inn) = false) (guard : inDoneGuard s n = true)
    (outside : ¬ inWindow s.params (bufOff n) (bcLength (s.bc n .inn)) = true) :
    execEnvInDone n b s = .refused (.outsideWindow (bufOff n)) := by
  rw [execEnvInDone, clean, guard, if_neg outside]; rfl

theorem execEnvInDone_of_inside (clean : bcReserved (s.bc n .inn) = false) (guard : inDoneGuard s n = true)
    (inside : inWindow s.params (bufOff n) (bcLength (s.bc n .inn)) = true) :
    execEnvInDone n b s = .next { s with
      win := Memory.write32 s.win (bcOff n .inn) (inDoneWord (s.bc n .inn) b)
      epIn := s.epIn.set n.val true n.isLt
      wire := .data n (bcPid (s.bc n .inn)) (inPayload s n) :: s.wire } := by
  rw [execEnvInDone, clean, guard, inside, State.storeWord_bc _ _ _ n.isLt]; rfl

/-- A completed IN transfer stores the word and nothing else in the window. -/
theorem execEnvInDone_completes (clean : bcReserved (s.bc n .inn) = false) (guard : inDoneGuard s n = true)
    (inside : inWindow s.params (bufOff n) (bcLength (s.bc n .inn)) = true) :
    ∃ t, execEnvInDone n b s = .next t ∧
      t = { s with
        win := t.win, epIn := s.epIn.set n.val true n.isLt
        wire := .data n (bcPid (s.bc n .inn)) (inPayload s n) :: s.wire } ∧
      t.bc n .inn = inDoneWord (s.bc n .inn) b ∧ ∀ a, Outside (bcOff n .inn) 4 a → t.winByte a = s.winByte a := by
  exact ⟨_, execEnvInDone_of_inside clean guard inside, rfl, Memory.read32_write32 s.win _ _,
    fun a outside => Memory.read_write32_outside (m := s.win) _ outside⟩

theorem execEnvOutDone_of_reserved (reserved : bcReserved (s.bc n .out) = true) :
    execEnvOutDone n b data s = .refused .reservedFieldSet := if_pos reserved

theorem execEnvOutDone_of_not_guard (clean : bcReserved (s.bc n .out) = false)
    (disabled : ¬ outDoneGuard s n b data.length = true) : execEnvOutDone n b data s = .refused .moveNotEnabled := by
  rw [execEnvOutDone, clean, if_neg disabled]; rfl

theorem execEnvOutDone_of_outside (clean : bcReserved (s.bc n .out) = false)
    (guard : outDoneGuard s n b data.length = true) (outside : ¬ inWindow s.params (bufOff n) data.length = true) :
    execEnvOutDone n b data s = .refused (.outsideWindow (bufOff n)) := by
  rw [execEnvOutDone, clean, guard, State.storeBytes, if_neg outside]; rfl

theorem execEnvOutDone_of_inside (clean : bcReserved (s.bc n .out) = false)
    (guard : outDoneGuard s n b data.length = true) (inside : inWindow s.params (bufOff n) data.length = true) :
    execEnvOutDone n b data s = .next { s with
      win := Memory.write32 (Memory.writeBytes s.win (bufOff n) data) (bcOff n .out)
        (outDoneWord (s.bc n .out) data.length)
      epOut := s.epOut.set n.val true n.isLt } := by
  rw [execEnvOutDone, clean, guard, State.storeBytes_eq_next.mpr ⟨inside, rfl⟩, if_neg Bool.false_ne_true, if_pos rfl,
    Result.andThen_next, State.storeWord_bc _ _ _ n.isLt]
  rfl

/-- A completed OUT transfer stores the data and the word, which do not overlap, and nothing else in the window. -/
theorem execEnvOutDone_completes (clean : bcReserved (s.bc n .out) = false)
    (guard : outDoneGuard s n b data.length = true) (inside : inWindow s.params (bufOff n) data.length = true) :
    ∃ t, execEnvOutDone n b data s = .next t ∧
      t = { s with win := t.win, epOut := s.epOut.set n.val true n.isLt } ∧
      t.bc n .out = outDoneWord (s.bc n .out) data.length ∧
      (∀ i, i < data.length → t.winByte (bufOff n + i) = data.getD i 0) ∧
      ∀ a, Outside (bcOff n .out) 4 a → Outside (bufOff n) data.length a → t.winByte a = s.winByte a := by
  refine ⟨_, execEnvOutDone_of_inside clean guard inside, rfl,
    Memory.read32_write32 (Memory.writeBytes s.win (bufOff n) data) _ _, fun i hi => ?data, fun a word buffer => ?frame⟩
  case data =>
    have apart := bufOff_clear n n .out n.isLt
    refine (Memory.read_write32_outside _ (.inr (by omega))).trans ?_
    rw [Memory.read_writeBytes, if_pos ⟨Nat.le_add_right .., Nat.add_lt_add_left hi _⟩, Nat.add_sub_cancel_left]
  case frame =>
    exact (Memory.read_write32_outside _ word).trans (Memory.read_writeBytes_outside data buffer)

theorem execEnvStall_of_reserved (reserved : bcReserved (s.bc n .inn) = true) :
    execEnvStall n s = .refused .reservedFieldSet := if_pos reserved

theorem execEnvStall_of_guard (clean : bcReserved (s.bc n .inn) = false) (guard : stallGuard s n = true) :
    execEnvStall n s = .next { s with
      stallArmEp0 := if n = 0 then false else s.stallArmEp0, wire := .stall n :: s.wire } := by
  rw [execEnvStall, clean, guard]; rfl

theorem execEnvStall_of_not_guard (clean : bcReserved (s.bc n .inn) = false) (disabled : ¬ stallGuard s n = true) :
    execEnvStall n s = .refused .moveNotEnabled := by
  rw [execEnvStall, clean, if_neg disabled]; rfl

end

/-! ### The words the completions leave, and the bytes of a packet -/

@[simp] theorem bcAvailable_inDoneWord (w : Word) (b : Bool) : bcAvailable (inDoneWord w b) = false :=
  getLsbD_inDoneWord w b 10

@[simp] theorem bcFull_inDoneWord (w : Word) (b : Bool) : bcFull (inDoneWord w b) = b := getLsbD_inDoneWord w b 15

@[simp] theorem bcPid_inDoneWord (w : Word) (b : Bool) : bcPid (inDoneWord w b) = bcPid w := getLsbD_inDoneWord w b 13

@[simp] theorem bcStall_inDoneWord (w : Word) (b : Bool) : bcStall (inDoneWord w b) = bcStall w :=
  getLsbD_inDoneWord w b 11

@[simp] theorem bcAvailable_outDoneWord (w : Word) (k : Nat) : bcAvailable (outDoneWord w k) = false :=
  getLsbD_outDoneWord w k 10

@[simp] theorem bcFull_outDoneWord (w : Word) (k : Nat) : bcFull (outDoneWord w k) = true := getLsbD_outDoneWord w k 15

@[simp] theorem bcPid_outDoneWord (w : Word) (k : Nat) : bcPid (outDoneWord w k) = bcPid w := getLsbD_outDoneWord w k 13

@[simp] theorem bcStall_outDoneWord (w : Word) (k : Nat) : bcStall (outDoneWord w k) = bcStall w :=
  getLsbD_outDoneWord w k 11

/-- Bytes read where they were written. -/
theorem Memory.readBytes_writeBytes (m : List Host.Cell) (a : Nat) (bs : List Byte) :
    Memory.readBytes (Memory.writeBytes m a bs) a bs.length = bs := by
  induction bs generalizing m a with
  | nil => rfl
  | cons b bs ih =>
    rw [Memory.writeBytes, List.length_cons, Memory.readBytes, ih,
      Memory.read_writeBytes_outside bs (.inl (Nat.lt_succ_self a)), Memory.read_write_same]

/-! ### What no move of the SIE touches (44_sie_environment.md R207) -/

/-- A flag that is set stays set when a flag is set. -/
theorem getElem_set_true {v : Vector Bool 16} (n m : Endpoint) (h : v[m] = true) :
    (v.set n.val true n.isLt)[m] = true := by
  rw [Fin.getElem_fin, Vector.getElem_set]
  split
  · rfl
  · exact h

/-- A move of the SIE clears no flag and does not set the arm bit. -/
theorem exec_env_flags {i : Instr} {s t : State} (env : i.format = .env) (h : exec i s = .next t) :
    (s.setupRec = true → t.setupRec = true) ∧ (s.busReset = true → t.busReset = true) ∧
    (∀ n : Endpoint, (s.epIn[n] = true → t.epIn[n] = true) ∧ (s.epOut[n] = true → t.epOut[n] = true)) ∧
    (t.stallArmEp0 = true → s.stallArmEp0 = true) := by
  rcases exec_env_cases env h with ⟨b, -, rfl⟩ | ⟨-, rfl⟩ | ⟨n, d, -, rfl⟩ | ⟨n, b, -, e⟩ | ⟨n, p, l, -, e⟩ | ⟨n, -, e⟩
  · exact ⟨fun _ => rfl, id, fun _ => ⟨id, id⟩, nofun⟩
  · exact ⟨id, fun _ => rfl, fun _ => ⟨id, id⟩, id⟩
  · exact ⟨id, id, fun _ => ⟨id, id⟩, id⟩
  · obtain ⟨-, -, -, rfl⟩ := execEnvInDone_eq_next e
    exact ⟨id, id, fun m => ⟨getElem_set_true n m, id⟩, id⟩
  · obtain ⟨-, -, -, rfl⟩ := execEnvOutDone_eq_next e
    exact ⟨id, id, fun m => ⟨id, getElem_set_true n m⟩, id⟩
  · obtain ⟨-, -, rfl⟩ := execEnvStall_eq_next e
    refine ⟨id, id, fun _ => ⟨id, id⟩, fun arm => ?_⟩
    by_cases zero : n = 0
    · exact absurd ((if_pos zero).symm.trans arm) Bool.false_ne_true
    · exact (if_neg zero).symm.trans arm

/-- `t` has the window of `s` after a completion: data in the buffer of an endpoint, none for an IN word, and then its word,
which was `available`. -/
def AfterCompletion (s t : State) : Prop :=
  ∃ (m : Endpoint) (e : Dir) (data : List Byte) (w : Word), bcAvailable (s.bc m e) = true ∧ (e = .inn → data = []) ∧
    data.length ≤ bcLength (s.bc m e) ∧
    t.win = Memory.write32 (Memory.writeBytes s.win (bufOff m) data) (bcOff m e) w

/-- What a move of the SIE can do to the window: nothing, the bytes of a SETUP packet, or a completion. -/
theorem exec_env_window {i : Instr} {s t : State} (env : i.format = .env) (h : exec i s = .next t) :
    t.win = s.win ∨ (∃ bytes : Vector Byte 8, t.win = Memory.writeBytes s.win Config.setupOff bytes.toList) ∨
    AfterCompletion s t := by
  rcases exec_env_cases env h with ⟨b, -, rfl⟩ | ⟨-, rfl⟩ | ⟨n, d, -, rfl⟩ | ⟨n, b, -, e⟩ | ⟨n, p, l, -, e⟩ | ⟨n, -, e⟩
  · exact .inr (.inl ⟨b, rfl⟩)
  · exact .inl rfl
  · exact .inl rfl
  · obtain ⟨-, guard, -, rfl⟩ := execEnvInDone_eq_next e
    obtain ⟨available, -⟩ := inDoneGuard_iff.mp guard
    exact .inr (.inr ⟨n, .inn, [], _, available, fun _ => rfl, Nat.zero_le _, rfl⟩)
  · obtain ⟨-, guard, -, rfl⟩ := execEnvOutDone_eq_next e
    obtain ⟨available, -, length, -⟩ := outDoneGuard_iff.mp guard
    exact .inr (.inr ⟨n, .out, l, _, available, nofun, length, rfl⟩)
  · obtain ⟨-, -, rfl⟩ := execEnvStall_eq_next e
    exact .inl rfl

theorem State.bc_congr {s t : State} (h : t.win = s.win) (n : Nat) (d : Dir) : t.bc n d = s.bc n d := by
  rw [State.bc, State.bc, h]

/-- The bytes of a SETUP packet lie before every word. -/
theorem State.bc_of_setup {s t : State} {bytes : Vector Byte 8}
    (h : t.win = Memory.writeBytes s.win Config.setupOff bytes.toList) (n : Endpoint) (d : Dir) : t.bc n d = s.bc n d :=
  (State.bc_congr (s := { s with win := _ }) h n d).trans
    (s.bc_writeBytes (.inl (by rw [Vector.length_toList]; decide)) n d)

/-- A completion writes no word that is not available. -/
theorem AfterCompletion.bc_of_not_available {s t : State} (h : AfterCompletion s t) {n : Endpoint} {d : Dir}
    (off : bcAvailable (s.bc n d) = false) : t.bc n d = s.bc n d := by
  obtain ⟨m, e, data, w, on, -, -, win⟩ := h
  have other : ¬ (m = n ∧ e = d) := by
    rintro ⟨rfl, rfl⟩
    exact Bool.false_ne_true (off.symm.trans on)
  calc t.bc n d
    _ = if m = n ∧ e = d then w else State.bc { s with win := Memory.writeBytes s.win (bufOff m) data } n d :=
      (State.bc_congr (s := { s with win := _ }) win n d).trans
        (State.bc_write32 { s with win := Memory.writeBytes s.win (bufOff m) data } m e w n d)
    _ = State.bc { s with win := Memory.writeBytes s.win (bufOff m) data } n d := if_neg other
    _ = s.bc n d := s.bc_writeBytes (.inr (Nat.le_add_right ..)) n d

/-- With a length the block can have armed, a completion leaves the data buffer of an endpoint whose OUT word is not
available. -/
theorem AfterCompletion.winByte_of_not_available {s t : State} (h : AfterCompletion s t) (words : s.wordsOk)
    {n : Endpoint} {a : Nat} (lo : bufOff n ≤ a) (hi : a < bufOff n + 64) (off : bcAvailable (s.bc n .out) = false) :
    t.winByte a = s.winByte a := by
  obtain ⟨m, e, data, w, on, none, length, win⟩ := h
  have word := bufOff_clear m n e m.isLt
  rw [State.winByte, win, Memory.read_write32_outside w (.inr (by omega))]
  by_cases same : m = n
  · subst same
    cases e with
    | inn => rw [none rfl]; rfl
    | out => exact absurd (off.symm.trans on) Bool.false_ne_true
  · obtain ⟨-, bound⟩ := words m e
    have apart := bufOff_disjoint (Fin.val_ne_of_ne same)
    simp only [Config.sizeLimit] at bound
    exact Memory.read_writeBytes_outside data (by omega)

/-! ### A turn of the SIE (44_sie_environment.md R200) -/

section
variable {s : State} {a : DevAddr} {i : Instr}

theorem step_of_sie {rest : List Turn} (h : s.sched = .sie a i :: rest) : step s = sieTurn a i (s.setSched rest) := by
  rw [step, h]

theorem sieTurn_of_reached (env : i.format = .env) (reached : i = .envBusReset ∨ a = s.addr) :
    sieTurn a i s = exec i s := by
  rw [sieTurn, env]
  refine if_neg fun lost => ?_
  simp only [needsToken, Bool.and_eq_true, decide_eq_true_eq] at lost
  exact reached.elim lost.1 lost.2

theorem sieTurn_of_foreign (env : i.format = .env) (token : i ≠ .envBusReset) (foreign : a ≠ s.addr) :
    sieTurn a i s = .next s := by
  rw [sieTurn, env]
  exact if_pos (by simp [needsToken, token, foreign])

theorem sieTurn_of_not_env (other : i.format ≠ .env) : sieTurn a i s = .refused .notAnSieMove := by
  rw [sieTurn]
  split
  · exact absurd ‹_› other
  all_goals rfl

end

/-! ### The obligations -/

/-- Settles O36: the 8 bytes lie before every word, and no other byte is written. -/
theorem setupArrivalWritesThePacket : Obligations.SetupArrivalWritesThePacket := by
  intro bytes s
  have length : bytes.toList.length = 8 := bytes.length_toList
  refine ⟨_, execEnvSetup_eq bytes s, rfl, ?_, fun a outside => ?_, fun n d => State.bc_of_setup rfl n d⟩
  · have whole := Memory.readBytes_writeBytes s.win Config.setupOff bytes.toList
    rwa [length] at whole
  · rw [← length] at outside
    exact Memory.read_writeBytes_outside bytes.toList outside

/-- Settles O37: the move is that one write. -/
theorem busResetArrivalSetsOnlyTheFlag : Obligations.BusResetArrivalSetsOnlyTheFlag := fun _ => rfl

/-- Settles O38: the guard in words, in each of the three cases. -/
theorem noBufferChangesNothing : Obligations.NoBufferChangesNothing := by
  intro n d s clean
  refine ⟨fun idle => execEnvNoBuffer_of_guard clean (noBufferGuard_iff.mpr (.inl idle)),
    fun inn zero stall unarmed => execEnvNoBuffer_of_guard clean (noBufferGuard_iff.mpr (.inr ⟨inn, zero, stall, unarmed⟩)),
    fun armed answers => execEnvNoBuffer_of_not_guard clean fun guard => ?_⟩
  rcases noBufferGuard_iff.mp guard with idle | ⟨inn, zero, stall, unarmed⟩
  · exact Bool.false_ne_true (idle.symm.trans armed)
  · rcases answers with out | other | noStall | arm
    · cases inn.symm.trans out
    · exact other zero
    · exact Bool.false_ne_true (noStall.symm.trans stall)
    · exact Bool.false_ne_true (unarmed.symm.trans arm)

/-- Settles O39: inside the window the move stores the word, whose other fields stay; outside it is refused. -/
theorem inDoneCompletesTheTransfer : Obligations.InDoneCompletesTheTransfer := by
  intro n draw s clean available stall full
  have guard : inDoneGuard s n = true := inDoneGuard_iff.mpr ⟨available, stall, full⟩
  refine ⟨fun fits => ?_, fun some beyond => execEnvInDone_of_outside clean guard fun inside => ?_⟩
  · obtain ⟨t, run, change, word, frame⟩ := execEnvInDone_completes (b := draw) clean guard (inWindow_iff.mpr fits)
    refine ⟨t, run, change, ?_⟩
    rw [word]
    exact ⟨bcAvailable_inDoneWord .., bcFull_inDoneWord .., bcLength_inDoneWord .., bcPid_inDoneWord ..,
      (bcStall_inDoneWord ..).trans stall, (bcReserved_inDoneWord ..).trans clean, frame⟩
  · exact (inWindow_iff.mp inside).elim some (Nat.not_le_of_lt beyond)

/-- Settles O40: inside the window the move stores the data and the word, whose other fields stay; outside it is refused. -/
theorem outDoneCompletesTheTransfer : Obligations.OutDoneCompletesTheTransfer := by
  intro n pid data s clean available stall length check
  have guard : outDoneGuard s n pid data.length = true := outDoneGuard_iff.mpr ⟨available, stall, length, check⟩
  rw [← List.length_eq_zero_iff, ne_eq, ← List.length_eq_zero_iff]
  refine ⟨fun fits => ?_, fun some beyond => execEnvOutDone_of_outside clean guard fun inside => ?_⟩
  · obtain ⟨t, run, change, word, received, frame⟩ := execEnvOutDone_completes clean guard (inWindow_iff.mpr fits)
    have count : data.length < 1024 := length.trans_lt (bcLength_lt _)
    refine ⟨t, run, change, ?_⟩
    rw [word]
    exact ⟨bcAvailable_outDoneWord .., bcFull_outDoneWord .., bcLength_outDoneWord _ count, bcPid_outDoneWord ..,
      (bcStall_outDoneWord ..).trans stall, (bcReserved_outDoneWord ..).trans clean, received, frame⟩
  · exact (inWindow_iff.mp inside).elim some (Nat.not_le_of_lt beyond)

/-- Settles O41: the guard in words, and the arm bit after the move. -/
theorem stallAnswerUsesTheArmBit : Obligations.StallAnswerUsesTheArmBit := by
  intro n s clean available stall
  refine ⟨fun zero armed => ?_, fun other => ?_, fun zero unarmed => execEnvStall_of_not_guard clean fun guard => ?_⟩
  · have run := execEnvStall_of_guard clean (stallGuard_iff.mpr ⟨available, stall, .inr armed⟩)
    rwa [if_pos zero] at run
  · have run := execEnvStall_of_guard clean (stallGuard_iff.mpr ⟨available, stall, .inl other⟩)
    rwa [if_neg other] at run
  · obtain ⟨-, -, other | armed⟩ := stallGuard_iff.mp guard
    · exact other zero
    · exact Bool.false_ne_true (unarmed.symm.trans armed)

/-- Settles O42: a reserved field is tested first, then the guard, which each of the named cases makes false. -/
theorem disabledMovesAreRefused : Obligations.DisabledMovesAreRefused := by
  intro n d b data s
  refine ⟨fun reserved => execEnvNoBuffer_of_reserved reserved,
    fun reserved => ⟨execEnvInDone_of_reserved reserved, execEnvStall_of_reserved reserved⟩,
    fun reserved => execEnvOutDone_of_reserved reserved,
    fun clean disabled => execEnvInDone_of_not_guard clean fun guard => ?inDone,
    fun clean disabled => execEnvOutDone_of_not_guard clean fun guard => ?outDone,
    fun clean disabled => execEnvStall_of_not_guard clean fun guard => ?stall⟩
  case inDone =>
    obtain ⟨available, stall, full⟩ := inDoneGuard_iff.mp guard
    simp [available, stall, full] at disabled
  case outDone =>
    obtain ⟨available, stall, length, check⟩ := outDoneGuard_iff.mp guard
    rcases disabled with off | on | long | ⟨drop, wrong⟩
    · exact Bool.false_ne_true (off.symm.trans available)
    · exact Bool.false_ne_true (stall.symm.trans on)
    · exact Nat.not_le_of_lt long length
    · rcases check with ignore | right
      · cases drop.symm.trans ignore
      · exact wrong right
  case stall =>
    obtain ⟨available, stall, -⟩ := stallGuard_iff.mp guard
    simp [available, stall] at disabled

/-- Settles O43: the frame and the flags of a move, and for each of the things it can do to the window what that leaves. -/
theorem sieMovesNeedOwnership : Obligations.SieMovesNeedOwnership := by
  intro i s t env words h
  obtain ⟨setup, reset, status, arm⟩ := exec_env_flags env h
  refine ⟨exec_env_frame env h, setup, reset, status, arm, ?_⟩
  rcases exec_env_window env h with same | ⟨bytes, win⟩ | completed
  · exact ⟨fun n d _ => State.bc_congr same n d, fun n a _ _ _ => congrArg (Memory.read · a) same⟩
  · refine ⟨fun n d _ => State.bc_of_setup win n d, fun n a lo _ _ => ?_⟩
    have before : Config.setupOff + 8 ≤ a := by simp only [bufOff, Config.setupOff] at lo ⊢; omega
    rw [State.winByte, win]
    exact Memory.read_writeBytes_outside _ (.inr (by rwa [Vector.length_toList]))
  · exact ⟨fun n d off => completed.bc_of_not_available off,
      fun n a lo hi off => completed.winByte_of_not_available words lo hi off⟩

/-- Settles O45: whether the token reaches the device decides between the move and none; no other format is a move. -/
theorem stepRunsTheScheduledMove : Obligations.StepRunsTheScheduledMove := by
  intro s a i rest turns
  rw [step_of_sie turns]
  exact ⟨sieTurn_of_reached (s := s.setSched rest), sieTurn_of_foreign (s := s.setSched rest), sieTurn_of_not_env⟩

end Sys2Proof.Machine

/-! ## Entries of the controller interrupt (60_exceptions.md): when one starts, and that it ends -/

namespace Sys2Proof.Machine

/-! ### The entry condition in words (60_exceptions.md R222) -/

/-- `BUFF_STATUS` is not 0 exactly if a completion flag of some endpoint is set. -/
theorem State.anyBuffStatus_iff {s : State} :
    s.anyBuffStatus = true ↔ ∃ n : Endpoint, s.epIn[n] = true ∨ s.epOut[n] = true := by
  have flag {v : Vector Bool 16} (any : v.toList.any id = true) : ∃ n : Endpoint, v[n] = true := by
    obtain ⟨b, mem, set⟩ := List.any_eq_true.mp any
    obtain ⟨i, hi, rfl⟩ := Vector.mem_iff_getElem.mp (Vector.mem_toList_iff.mp mem)
    exact ⟨⟨i, hi⟩, set⟩
  refine ⟨fun any => ?_, fun ⟨_, set⟩ => State.anyBuffStatus_of_flag set⟩
  rw [State.anyBuffStatus, Bool.or_eq_true] at any
  rcases any with inn | out
  · exact (flag inn).imp fun _ => .inl
  · exact (flag out).imp fun _ => .inr

/-- At IDLE the condition is the controller's enable and one of the three requests. -/
theorem State.entryCondition_iff {s : State} (idle : s.seq = .idle) :
    s.entryCondition = true ↔ s.irqEnabled = true ∧
      ((s.setupRec = true ∧ s.inteSetupReq = true) ∨ (s.busReset = true ∧ s.inteBusReset = true) ∨
        ((∃ n : Endpoint, s.epIn[n] = true ∨ s.epOut[n] = true) ∧ s.inteBuffStatus = true)) := by
  simp only [State.entryCondition, State.irq, State.intsSetupReq, State.intsBusReset, State.intsBuffStatus, idle, decide_true,
    Bool.and_true, Bool.and_eq_true, Bool.or_eq_true, State.anyBuffStatus_iff, or_assoc]
  exact and_comm

/-! ### How far an entry is from its end (40_event_adapter.md R120, R121) -/

/-- The phases from `p` to X, both counted; `Phase` lists them in the order of R121. -/
def Phase.stepsLeft (p : Phase) : Nat := 20 - p.ctorIdx

/-- The most whole-phase steps from this position to IDLE: as many as if no branch were skipped. -/
def Seq.stepsLeft : Seq → Nat
  | .idle => 0
  | .phase p => p.stepsLeft
  | .inside p _ => p.stepsLeft

theorem Seq.stepsLeft_le (q : Seq) : q.stepsLeft ≤ 20 := by
  cases q with
  | idle => exact Nat.zero_le 20
  | phase p => exact Nat.sub_le 20 _
  | inside p left => exact Nat.sub_le 20 _

theorem State.AtPhase.stepsLeft {s : State} {p : Phase} (here : s.AtPhase p) : s.seq.stepsLeft = p.stepsLeft := by
  rcases here with seq | ⟨left, seq⟩ <;> rw [seq] <;> rfl

theorem State.idle_or_atPhase (s : State) : s.seq = .idle ∨ ∃ p, s.AtPhase p := by
  cases seq : s.seq with
  | idle => exact .inl rfl
  | phase p => exact .inr ⟨p, .inl seq⟩
  | inside p left => exact .inr ⟨p, .inr ⟨left, seq⟩⟩

/-- Whether a branch is served or skipped, the sequencer moves towards X, and from X to IDLE. -/
theorem stepsLeft_nextSeq_lt (p : Phase) (s : State) : (nextSeq p s).stepsLeft < p.stepsLeft := by
  cases p with
  | a0 | b0 | c0 | e0 => rw [nextSeq]; split <;> decide
  | _ => exact Nat.lt_succ_self _

/-- Whatever is left of a phase completes, and the sequencer then moves on. -/
theorem State.AtPhase.ctrlWhole_eq {s : State} {p : Phase} (here : s.AtPhase p) (ok : s.seqOk) :
    ∃ u : State, ctrlWhole s = .next (u.advance p) ∧ u.sched = s.sched := by
  rcases here with seq | ⟨left, seq⟩
  · obtain ⟨u, run⟩ := runPhase_completes p s
    exact ⟨u, by rw [ctrlWhole_phase seq, run]; rfl, runMicros_sched run⟩
  · obtain ⟨u, run⟩ := runMicros_completes_of_fits (ok.fits seq) s
    exact ⟨u, by rw [ctrlWhole_inside seq, run]; rfl, runMicros_sched run⟩

/-- With no turn to come, a step inside an entry brings it nearer to its end. -/
theorem State.AtPhase.step_nearer {s : State} {p : Phase} (here : s.AtPhase p) (ok : s.seqOk) (turns : s.sched = []) :
    ∃ t, step s = .next t ∧ t.seqOk ∧ t.sched = [] ∧ t.seq.stepsLeft < s.seq.stepsLeft := by
  obtain ⟨u, whole, sched⟩ := here.ctrlWhole_eq ok
  refine ⟨u.advance p, (step_of_no_turn turns).trans whole, u.seqOk_advance p, ?_, ?_⟩
  · rw [State.sched_advance, sched, turns]
  · rw [here.stepsLeft, State.advance_eq, State.seq_setSeq]
    exact stepsLeft_nextSeq_lt p u

/-- A run with no turn to come is at IDLE after at most the steps its position has left. -/
theorem exists_runSteps_idle {s : State} (ok : s.seqOk) (turns : s.sched = []) :
    ∃ k t, k ≤ s.seq.stepsLeft ∧ runSteps k s = .next t ∧ t.seq = .idle := by
  rcases s.idle_or_atPhase with idle | ⟨p, here⟩
  · exact ⟨0, s, Nat.zero_le _, rfl, idle⟩
  · obtain ⟨t, moved, ok', turns', nearer⟩ := here.step_nearer ok turns
    obtain ⟨k, u, bound, run, idle⟩ := exists_runSteps_idle ok' turns'
    exact ⟨k + 1, u, Nat.lt_of_le_of_lt bound nearer, runSteps_of_step moved run, idle⟩
termination_by s.seq.stepsLeft

/-! ### The obligations -/

/-- Settles O46: a turn of CTRL at IDLE tests the entry condition, which R222 says in words, and at most sets the sequencer. -/
theorem entryStartsExactlyOnItsCondition : Obligations.EntryStartsExactlyOnItsCondition := by
  intro s rest idle turns
  have condition := State.entryCondition_iff (s := s.setSched rest) idle
  rw [step_of_idle idle turns, idleTurn]
  exact ⟨fun entry => congrArg _ (if_pos (condition.mpr entry)), fun wait => congrArg _ (if_neg fun e => wait (condition.mp e))⟩

/-- Settles O51: every step brings the sequencer nearer to X and IDLE, and no position is more than 20 steps away. -/
theorem everyEntryEnds : Obligations.EveryEntryEnds := by
  intro s inv turns
  obtain ⟨k, t, bound, run, idle⟩ := exists_runSteps_idle inv.seq turns
  exact ⟨k, t, bound.trans s.seq.stepsLeft_le, run, idle⟩

end Sys2Proof.Machine

/-! ## Reset and hazards (70_reset_and_hazards.md): the boot sequence, the address applied early, the torn read -/

namespace Sys2Proof

/-! ### Byte loads into a packet (40_event_adapter.md R123) -/

/-- Replacing byte `i` of a packet replaces entry `i` of its bytes. -/
theorem SetupPacket.toBytes_setByte (k : SetupPacket) (i : Fin 8) (b : Byte) :
    (k.setByte i b).toBytes = k.toBytes.set i b := by
  fin_cases i <;> simp [SetupPacket.setByte, SetupPacket.toBytes]

end Sys2Proof

namespace Sys2Proof.Machine

/-! ### Writes of the boot sequence (70_reset_and_hazards.md R254) -/

theorem State.bootWrite_setSched (s : State) (l : List Turn) (w : BootWrite) :
    (s.setSched l).bootWrite w = (s.bootWrite w).setSched l := by cases w <;> rfl

/-- As many steps as there are turns of the boot sequence do its writes in order; the later turns stay. -/
theorem runSteps_of_bootWrites {ws : List BootWrite} {s : State} {rest : List Turn}
    (turns : s.sched = ws.map .boot ++ rest) : runSteps ws.length s = .next (ws.foldl State.bootWrite (s.setSched rest)) := by
  induction ws generalizing s with
  | nil =>
    have same : s.setSched rest = s := (congrArg s.setSched turns.symm).trans s.setSched_self
    rw [List.foldl_nil, same]
    rfl
  | cons w ws ih =>
    have moved : step s = .next ((s.bootWrite w).setSched (ws.map .boot ++ rest)) := by
      rw [← State.bootWrite_setSched, step, turns]
      rfl
    refine runSteps_of_step moved ((ih rfl).trans ?_)
    rw [State.setSched_setSched, ← State.bootWrite_setSched, List.foldl_cons]

/-! ### SET_ADDRESS in the latch (41_request_dispatcher.md R147) -/

/-- A packet with request code 5 runs SET_ADDRESS: the address is pending and the status IN is armed. -/
theorem exec_decode_setAddress {k : SetupPacket} (five : k.request = 5) (s : State) :
    ∃ t, exec (decode k) s = .next t ∧ SendsIn 0 1 [] 0 { s with pendingAddress := newAddress k.value } t := by
  have row : decodeRequest k = .setAddress k.requestType k.value k.index k.length := by
    rw [decodeRequest, five]
    rfl
  rw [← exec_decodeRequest, row, exec_setAddress]
  exact execArmStatusIn_sends _

/-- The address a SET_ADDRESS stores (30_encoding.md R92 d). -/
theorem toNat_newAddress (v : Half) : (newAddress v).toNat = v.toNat % 128 := by
  rw [newAddress_eq_ofNat, BitVec.toNat_ofNat]
  exact Nat.mod_mod _ _

/-! ### A flag that reads the same now and in the snapshot (40_event_adapter.md R122) -/

theorem State.fReset_eq_false {s : State} (flag : s.busReset = false) (snap : s.snap.busReset = false) :
    s.fReset = false := by
  rw [State.fReset]
  cases s.params.flagSampling with
  | atEntry => exact snap
  | perBranch => rw [State.intsBusReset, flag, Bool.false_and]

theorem State.fIn_eq_true {s : State} (flag : s.epIn[0] = true) (snap : s.snap.ep0In = true) : s.fIn = true := by
  rw [State.fIn]
  cases s.params.flagSampling with
  | atEntry => exact snap
  | perBranch => exact flag

/-! ### A stale IN completion behind a pending address (70_reset_and_hazards.md R258) -/

/-- The block is at phase `p` of an entry that will serve an IN completion, with no turn to come: address `a` is pending and
its status IN is armed. -/
structure State.StaleInAt (s : State) (a : DevAddr) (p : Phase) : Prop where
  turns   : s.sched = []
  seq     : s.seq = .phase p
  flag    : s.epIn[0] = true
  snap    : s.snap.ep0In = true
  pending : s.pendingAddress = a
  armed   : bcAvailable (s.bc 0 .inn) = true

/-- A SET_ADDRESS dispatched while the completion flag is set leaves the situation behind. -/
theorem step_setAddress_staleInAt {s : State} (turns : s.sched = []) (seq : s.seq = .phase .a4) (five : s.pkt.request = 5)
    (flag : s.epIn[0] = true) (snap : s.snap.ep0In = true) :
    ∃ t, step s = .next t ∧ t.StaleInAt (newAddress s.pkt.value) .b0 ∧ t.busReset = s.busReset ∧
      t.snap.busReset = s.snap.busReset := by
  obtain ⟨u, run, frame, word, -⟩ := exec_decode_setAddress five s
  have moved := step_of_phase turns seq ((wholePhase_eq_runPhase .a4 s).symm.trans run)
  have armed : bcAvailable (u.bc 0 .inn) = true := by rw [word]; decide
  rw [frame] at moved armed
  exact ⟨_, moved, ⟨turns, rfl, flag, snap, rfl, armed⟩, rfl, rfl⟩

/-- Without a bus reset the entry goes past the reset branch. -/
theorem State.StaleInAt.past_reset {s : State} {a : DevAddr} (h : s.StaleInAt a .b0) (none : s.fReset = false) :
    step s = .next (s.setSeq (.phase .c0)) ∧ (s.setSeq (.phase .c0)).StaleInAt a .c0 := by
  refine ⟨?_, h.turns, rfl, h.flag, h.snap, h.pending, h.armed⟩
  rw [step_of_empty_phase h.turns h.seq rfl, nextSeq, none]
  rfl

/-- Served or not, the EP0-OUT branch touches none of it (40_event_adapter.md R128). -/
theorem State.StaleInAt.past_out {s : State} {a : DevAddr} (h : s.StaleInAt a .c0) :
    ∃ k t, runSteps k s = .next t ∧ t.StaleInAt a .e0 := by
  have flag : nextSeq .c0 s = .phase .c1 ∨ nextSeq .c0 s = .phase .e0 := by rw [nextSeq]; split <;> simp
  obtain ⟨k, u, run, rfl | rfl⟩ :=
    runSteps_of_guard (ps := [.c2]) h.turns h.seq rfl flag isChain_outBranch (execEvEp0Out_eq s)
  · exact ⟨k, _, run, h.turns, rfl, h.flag, h.snap, h.pending, h.armed⟩
  · exact ⟨k, _, run, h.turns, rfl, h.flag, h.snap, h.pending, h.armed⟩

/-- The EP0-IN branch serves the completion: it applies the pending address and leaves the armed status IN
(40_event_adapter.md R130). -/
theorem State.StaleInAt.served {s : State} {a : DevAddr} (h : s.StaleInAt a .e0) (nonzero : a ≠ 0) :
    ∃ t, runSteps 6 s = .next t ∧ t.seq = .phase .x ∧ t.addr = a ∧ t.pendingAddress = 0 ∧
      bcAvailable (t.bc 0 .inn) = true := by
  have moved : step s = .next (s.setSeq (.phase .e1)) := by
    rw [step_of_empty_phase h.turns h.seq rfl, nextSeq, State.fIn_eq_true h.flag h.snap]
    rfl
  have branch := runSteps_of_runPhases (s := s.setSeq (.phase .e1)) (ps := [.e2, .e3, .e4, .e5]) h.turns rfl
    isChain_inBranch (execEvEp0In_eq _)
  refine ⟨_, runSteps_of_step moved branch, rfl, ?_, rfl, ?_⟩
  · have pending : s.pendingAddress ≠ 0 := h.pending ▸ nonzero
    exact (if_neg pending).trans h.pending
  · exact (congrArg bcAvailable (s.bc_write32 0 .out (outWord 0 1) 0 .inn)).trans h.armed

/-! ### A part of a phase, one turn of CTRL after the other -/

/-- As many turns of CTRL as the first part `front` of what is left do what the run of that part does; the sequencer then
stands inside the phase. -/
theorem State.HasLeft.runSteps_part {s u : State} {p : Phase} {front back : List Micro} (left : s.HasLeft p (front ++ back))
    (started : front ≠ []) (more : back ≠ []) (run : runMicros front s = .next u) {turns : List Turn}
    (sched : s.sched = List.replicate front.length .ctrl ++ turns) :
    runSteps front.length s = .next ((u.setSched turns).setSeq (.inside p back)) := by
  induction front generalizing s u with
  | nil => exact absurd rfl started
  | cons m l ih =>
    obtain ⟨v, first, later⟩ := Result.andThen_eq_next.mp run
    let turns' := List.replicate l.length Turn.ctrl ++ turns
    obtain ⟨m', l', next⟩ := List.exists_cons_of_ne_nil (List.append_ne_nil_of_right_ne_nil l more)
    have moved : step s = .next ((v.setSched turns').setSeq (.inside p (l ++ back))) := by
      rw [left.step_eq (turns := turns') sched, List.cons_append, next, firstMicro_cons_cons, microExec_setSched, first]
      rfl
    cases l with
    | nil =>
      cases later
      exact runSteps_of_step moved rfl
    | cons m₂ l =>
      have later' : runMicros (m₂ :: l) ((v.setSched turns').setSeq (.inside p (m₂ :: l ++ back))) =
          .next ((u.setSched turns').setSeq (.inside p (m₂ :: l ++ back))) := by
        rw [runMicros_setSeq, runMicros_setSched, later]
        rfl
      exact runSteps_of_step moved (ih (u := (u.setSched turns').setSeq (.inside p (m₂ :: l ++ back)))
        (.inr rfl) (List.cons_ne_nil m₂ l) later' rfl)

/-! ### The byte loads of phase A2 (40_event_adapter.md R123) -/

/-- The latch `k` after the byte loads of `js` from the window `win`. -/
def latchAfterLoads (win : List Host.Cell) (js : List (Fin 8)) (k : SetupPacket) : SetupPacket :=
  js.foldl (fun k j => k.setByte j (Memory.read win (Config.setupOff + j))) k

theorem latchAfterLoads_cons (win : List Host.Cell) (j : Fin 8) (js : List (Fin 8)) (k : SetupPacket) :
    latchAfterLoads win (j :: js) k =
      latchAfterLoads win js (k.setByte j (Memory.read win (Config.setupOff + j))) := rfl

/-- Byte loads change only the latch. -/
theorem runMicros_loads (js : List (Fin 8)) (s : State) :
    runMicros (js.map .loadSetupByte) s = .next { s with pkt := latchAfterLoads s.win js s.pkt } := by
  induction js generalizing s with
  | nil => rfl
  | cons j js ih =>
    have inside : Config.setupOff + j.val + 1 ≤ Config.windowMin := by simp only [Config.setupOff, Config.windowMin]; omega
    have load : microExec (.loadSetupByte j) s =
        .next { s with pkt := s.pkt.setByte j (Memory.read s.win (Config.setupOff + j)) } :=
      State.loadIntoLatch_eq_next.mpr ⟨inWindow_of_le inside, rfl⟩
    rw [List.map_cons, runMicros_cons, load, Result.andThen_next, ih]
    rfl

/-- A byte of the latch after some loads: from the window if it was loaded, else as it was. -/
theorem getElem_toBytes_latchAfterLoads (win : List Host.Cell) (js : List (Fin 8)) (k : SetupPacket) (j : Fin 8) :
    (latchAfterLoads win js k).toBytes[j.val] =
      if j ∈ js then Memory.read win (Config.setupOff + j) else k.toBytes[j.val] := by
  induction js generalizing k with
  | nil => rfl
  | cons i js ih =>
    rw [latchAfterLoads_cons, ih]
    simp only [SetupPacket.toBytes_setByte, List.getElem_set, List.mem_cons, Fin.val_inj]
    by_cases later : j ∈ js
    · simp [later]
    · by_cases here : i = j
      · simp [here]
      · simp [later, here, Ne.symm here]

theorem Memory.getElem_readBytes (m : List Host.Cell) (a n i : Nat) (h : i < (Memory.readBytes m a n).length) :
    (Memory.readBytes m a n)[i] = Memory.read m (a + i) := by
  rw [← List.getD_eq_getElem _ 0 h]
  exact Memory.getD_readBytes a i (by rwa [Memory.length_readBytes] at h)

theorem mem_take_finRange {j : Fin 8} {i : Nat} : j ∈ (List.finRange 8).take i ↔ j.val < i := by
  rw [List.mem_take_iff_getElem]
  simp only [List.getElem_finRange, List.length_finRange, Fin.ext_iff, Fin.val_cast]
  exact ⟨fun ⟨_, h, e⟩ => by omega, fun h => ⟨j, by omega, rfl⟩⟩

theorem mem_drop_finRange {j : Fin 8} {i : Nat} : j ∈ (List.finRange 8).drop i ↔ i ≤ j.val := by
  rw [List.mem_drop_iff_getElem]
  simp only [List.getElem_finRange, List.length_finRange, Fin.ext_iff, Fin.val_cast]
  exact ⟨fun ⟨_, _, e⟩ => by omega, fun h => ⟨j - i, by omega, by omega⟩⟩

/-- Loads of the first `i` bytes from one window and of the others from a second leave a torn packet, whatever the latch
held. -/
theorem toBytes_torn_latch (old new : List Host.Cell) (k : SetupPacket) {i : Nat} (hi : i ≤ 8) :
    (latchAfterLoads new ((List.finRange 8).drop i) (latchAfterLoads old ((List.finRange 8).take i) k)).toBytes =
      Memory.readBytes old Config.setupOff i ++ (Memory.readBytes new Config.setupOff 8).drop i := by
  refine List.ext_getElem (by simp [Memory.length_readBytes, hi]) fun j hj _ => ?_
  rw [getElem_toBytes_latchAfterLoads new _ _ ⟨j, hj⟩, getElem_toBytes_latchAfterLoads old _ _ ⟨j, hj⟩]
  simp only [mem_drop_finRange, mem_take_finRange, List.getElem_append, Memory.length_readBytes, List.getElem_drop,
    Memory.getElem_readBytes]
  by_cases early : j < i
  · simp [early, Nat.not_le_of_lt early]
  · have late : i ≤ j := Nat.le_of_not_lt early
    simp [early, late]

/-! ### A SETUP packet that arrives between two loads (70_reset_and_hazards.md R263) -/

/-- A SETUP packet sent to the current address arrives (44_sie_environment.md R200, R201). -/
theorem step_of_setup_arrival {s : State} {bytes : Vector Byte 8} {turns : List Turn}
    (sched : s.sched = .sie s.addr (.envSetup bytes) :: turns) :
    step s = .next { s with
      win := Memory.writeBytes s.win Config.setupOff bytes.toList, setupRec := true, stallArmEp0 := false, sched := turns } := by
  rw [step_of_sie sched]
  exact (sieTurn_of_reached (s := s.setSched turns) rfl (.inr rfl)).trans (execEnvSetup_eq bytes _)

/-- The loads before the arrival read the old window, those after it the new one. -/
theorem runSteps_of_torn_loads {s : State} {bytes : Vector Byte 8} {js ks : List (Fin 8)} {rest : List Turn}
    (seq : s.seq = .phase .a2) (all : js ++ ks = List.finRange 8) (before : js ≠ []) (after : ks ≠ [])
    (sched : s.sched = List.replicate js.length .ctrl ++
      .sie s.addr (.envSetup bytes) :: (List.replicate ks.length .ctrl ++ rest)) :
    ∃ t, runSteps (js.length + (ks.length + 1)) s = .next t ∧ t.seq = .phase .a3 ∧ t.setupRec = true ∧ t.sched = rest ∧
      t.pkt = latchAfterLoads (Memory.writeBytes s.win Config.setupOff bytes.toList) ks (latchAfterLoads s.win js s.pkt) := by
  have left : s.HasLeft .a2 (js.map .loadSetupByte ++ ks.map .loadSetupByte) := by
    refine .inl ⟨seq, ?_⟩
    rw [← List.map_append, all]
    rfl
  have first := left.runSteps_part (by simpa using before) (by simpa using after) (runMicros_loads js s)
    (by rwa [List.length_map])
  rw [List.length_map] at first
  let u : State := { s with
    pkt := latchAfterLoads s.win js s.pkt
    seq := .inside .a2 (ks.map .loadSetupByte)
    sched := .sie s.addr (.envSetup bytes) :: (List.replicate ks.length .ctrl ++ rest) }
  let v : State := { u with
    win := Memory.writeBytes s.win Config.setupOff bytes.toList, setupRec := true, stallArmEp0 := false
    sched := List.replicate ks.length .ctrl ++ rest }
  have arrival : step u = .next v := step_of_setup_arrival rfl
  have turns : max 1 (ks.map Micro.loadSetupByte).length = ks.length := by
    rw [List.length_map]
    exact Nat.max_eq_right (List.length_pos_of_ne_nil after)
  let w : State := { v with pkt := latchAfterLoads v.win ks v.pkt, seq := .phase .a3, sched := rest }
  have last : runSteps ks.length v = .next w := by
    have run := State.HasLeft.runSteps_eq (s := v) (.inr rfl) (runMicros_loads ks v) (turns := rest) (by rw [turns])
    rw [turns, State.advance_eq] at run
    exact run
  refine ⟨w, ?_, rfl, rfl, rfl, rfl⟩
  rw [runSteps_add, first]
  exact runSteps_of_step arrival last

/-! ### The obligations -/

/-- Settles O9: each turn is its write. -/
theorem bootSequenceSetsOnlyTheEnables : Obligations.BootSequenceSetsOnlyTheEnables := by
  refine ⟨fun s turns => ?_, rfl⟩
  let writes : List BootWrite := [.enableSetupReq, .enableBusReset, .enableBuffStatus, .enableInterrupt]
  have run : runSteps 4 s = .next (writes.foldl State.bootWrite (s.setSched [])) :=
    runSteps_of_bootWrites (ws := writes) turns
  simpa only [writes, List.foldl_cons, List.foldl_nil, State.bootWrite, State.setSched] using run

/-- Settles O54: the dispatch makes the address pending, no branch before EP0-IN touches it, and that branch applies it. -/
theorem staleCompletionAppliesTheAddressEarly : Obligations.StaleCompletionAppliesTheAddressEarly := by
  intro s turns seq five nonzero reset snapReset flag snap
  obtain ⟨u, dispatched, hu, sameReset, sameSnap⟩ := step_setAddress_staleInAt turns seq five flag snap
  obtain ⟨pastReset, hv⟩ := hu.past_reset (State.fReset_eq_false (sameReset.trans reset) (sameSnap.trans snapReset))
  obtain ⟨k, w, out, hw⟩ := hv.past_out
  have address : newAddress s.pkt.value ≠ 0 := fun zero => by
    rw [← toNat_newAddress, zero] at nonzero
    exact nonzero rfl
  obtain ⟨t, inn, seq', addr, pending, armed⟩ := hw.served address
  refine ⟨k + 6 + 1 + 1, t, ?_, seq', addr ▸ toNat_newAddress _, armed, pending⟩
  refine runSteps_of_step dispatched (runSteps_of_step pastReset ?_)
  rw [runSteps_add, out, Result.andThen_next, inn]

/-- Settles O59: the loads before the arrival read the old window, those after it the new one. -/
theorem setupReadCanBeTorn : Obligations.SetupReadCanBeTorn := by
  intro s bytes i rest lo hi seq sched
  have jsLength : ((List.finRange 8).take i).length = i := by simp; omega
  have ksLength : ((List.finRange 8).drop i).length = 8 - i := by simp
  obtain ⟨t, run, seq', flag, turns, pkt⟩ := runSteps_of_torn_loads seq (List.take_append_drop i (List.finRange 8))
    (List.ne_nil_of_length_pos (by omega)) (List.ne_nil_of_length_pos (by omega)) (by rwa [jsLength, ksLength])
  rw [jsLength, ksLength, show i + (8 - i + 1) = 9 by omega] at run
  refine ⟨t, run, seq', flag, turns, ?_⟩
  have arrived := Memory.readBytes_writeBytes s.win Config.setupOff bytes.toList
  rw [bytes.length_toList] at arrived
  rw [pkt, toBytes_torn_latch _ _ _ (by omega), arrived]

end Sys2Proof.Machine
